-- ==== Sys2Proof/Word.lean ====
section
/-! DEFINITION. The plain word types of bee2-core (00_scope R12): octets, 32-bit registers, and the 64-bit
carrier in which a B-bit word is held zero-extended. -/

namespace Sys2Proof

/-- An octet: an entry of the S-box ROM, or one byte of an OPMEM word. -/
abbrev Byte := BitVec 8

/-- A 32-bit register: RA, RB, RD, RN, RM, RP, RES, RES2, CMD, KEY[j], BLK[j] (00_scope R12). -/
abbrev Reg32 := BitVec 32

/-- A value of the 64-bit host port. A B-bit register (RV, RESW) is held in one too, zero-extended, which is how the
port reads it (10_state R37, R39, R54); B is at most 64 (00_scope R9). DESIGN CHOICE, log 15. -/
abbrev Word := BitVec 64

end Sys2Proof
end

