-- ==== Sys2Proof/Config.lean ====
section
/-! DEFINITION. What a build of bee2-core fixes (00_scope R9 to R11) and the one free value of the model. -/

namespace Sys2Proof

/-- The three word widths a build may have: B is one of 16, 32 or 64 (00_scope R9). -/
inductive WordWidth where
  | w16 | w32 | w64
deriving DecidableEq, Repr

/-- The octets of one word: B / 8. -/
def WordWidth.bytes : WordWidth → Nat
  | .w16 => 2
  | .w32 => 4
  | .w64 => 8

/-- WORD_BITS, B (00_scope R9). -/
def WordWidth.bits : WordWidth → Nat
  | .w16 => 16
  | .w32 => 32
  | .w64 => 64

/-- The build parameters: WORD_BITS, OPMEM_WORDS and H_ROM (00_scope R9, R10, R11). They stand in State, where no step
changes them, so that a statement for every state is a statement for every build (log 1). -/
structure Config where
  /-- WORD_BITS (00_scope R9). -/
  width : WordWidth
  /-- OPMEM_WORDS, the number of words of the operand memory (00_scope R10). -/
  opmemWords : Nat
  /-- H_ROM, the S-box H of 256 octets (00_scope R11, 45_block_cipher R451). -/
  hRom : Vector Byte 256
deriving DecidableEq, Repr

/-- B, the width of a word in bits. -/
def Config.bits (c : Config) : Nat := c.width.bits

/-- The range 00_scope R10 gives OPMEM_WORDS: 1 to 2^24. The width and the ROM need no check: their types hold the
range. -/
abbrev Config.wf (c : Config) : Prop := 1 ≤ c.opmemWords ∧ c.opmemWords ≤ 2 ^ 24

/-- FREE VALUE. What the port answers to the n-th host read of a result register, KEY, BLK or OPMEM made while
BUSY = 1 (60_exceptions R511 item 3, 93_implementation_defined I15). No body: nothing can be proved of it. Log 8. -/
opaque Config.busyReadValue : Nat → Word

end Sys2Proof
end

