-- ==== Sys2Proof/Machine/State.lean ====
section
/-! DEFINITION. The state of bee2-core (10_state), all of it plain data: the registers, the register files, the operand
memory, the pending-command latch, the build parameters, and the script of what the host, the core and the platform do
next. The core has no program counter, no general register file and no flags (10_state R31 to R33). -/

namespace Sys2Proof.Machine

/-- The operand memory as bytes at host-window offsets (10_state R51, R54): strictly rising offsets, an offset that is
not listed is unwritten. Log 6. -/
abbrev Memory := List Host.Cell

/-- The canonical form: strictly rising offsets. An unlisted offset reads as no value, so no entry can equal it. -/
abbrev Memory.wf (m : Memory) : Prop := m.Pairwise fun x y => x.1 < y.1

/-- The argument registers (10_state R34 to R37). -/
structure Args where
  /-- Base of the first source operand, or of the operand modified in place (R34). -/
  ra : Reg32
  /-- Base of the second source operand (R34). -/
  rb : Reg32
  /-- Base of the destination (R34). -/
  rd : Reg32
  /-- Length n in words (R35). -/
  rn : Reg32
  /-- Second length m, of WCMPL (R35). -/
  rm : Reg32
  /-- Bit position or shift amount (R36). -/
  rp : Reg32
  /-- Word value, B bits, zero-extended (R37). -/
  rv : Word
deriving DecidableEq, Repr

/-- Every argument register 0 (10_state R57). -/
def Args.zero : Args := { ra := 0, rb := 0, rd := 0, rn := 0, rm := 0, rp := 0, rv := 0 }

/-- The pending-command latch: the CMD word and the snapshot of the argument registers (10_state R52). It is full exactly
when STATUS.BUSY = 1. -/
structure Latch where
  /-- The latched CMD word. -/
  cmd : Reg32
  /-- RA, RB, RD, RN, RM, RP and RV as they stood at the CMD write. -/
  args : Args
deriving DecidableEq, Repr

/-- The empty latch. Its contents are never read; they are held at 0. DESIGN CHOICE, log 5. -/
def Latch.empty : Latch := { cmd := 0, args := Args.zero }

/-- The completion codes of STATUS.ERR (60_exceptions R501). The codes 0x05 to 0xFF are never written, so they are no
values of this type (93_implementation_defined I26). -/
inductive Err where
  /-- 0x00: the command completed and wrote its results. -/
  | ok
  /-- 0x01: the latched CMD word is not legal. -/
  | illegal
  /-- 0x02: a check_param failed. -/
  | param
  /-- 0x03: a region reaches past the end of OPMEM. -/
  | range
  /-- 0x04: two regions overlap in a way the command's rule forbids. -/
  | overlap
deriving DecidableEq, Repr

/-- The fields of STATUS that hold something (10_state R42); the reserved bits have no storage. -/
structure Status where
  /-- Bit 0: 1 from the CMD write until the command completes. -/
  busy : Bool
  /-- Bit 1: set when a command completes. -/
  done : Bool
  /-- Bits 15:8: completion code of the last completed command. -/
  err : Err
deriving DecidableEq, Repr

/-- One access at the host port: a 28-bit byte offset in the window, and 64 bits of data (10_state R54, R56). -/
inductive HostAccess where
  | read (offset : BitVec 28)
  | write (offset : BitVec 28) (value : Word)
deriving DecidableEq, Repr

/-- Who moves next (20_memory R92): one item of the interleaving of the host, the core and the platform. Log 3. -/
inductive Turn where
  /-- The host makes an access. -/
  | host (a : HostAccess)
  /-- The core moves: it executes the latched command, or stays idle if there is none (60_exceptions R500, R524). -/
  | core
  /-- The platform applies the power-on reset and holds it (70_reset R550, R551). -/
  | powerOn
  /-- The platform releases the power-on reset (70_reset R551). -/
  | release
deriving DecidableEq, Repr

/-- The machine's state (10_state R30), the build parameters, and the model's own fields. -/
structure State where
  /-- The build parameters, among them the S-box ROM H (10_state R45, R46, R50). No step changes them. -/
  cfg : Config
  /-- RA, RB, RD, RN, RM, RP, RV (10_state R34 to R37). -/
  args : Args
  /-- RES (10_state R38). -/
  res : Reg32
  /-- RES2 (10_state R38). -/
  res2 : Reg32
  /-- RESW, B bits, zero-extended (10_state R39). -/
  resw : Word
  /-- CMD: the last value written (10_state R41). -/
  cmd : Reg32
  /-- STATUS (10_state R42). -/
  status : Status
  /-- CTRL.IE (10_state R44). -/
  ie : Bool
  /-- KEY[0..7] (10_state R47). -/
  key : Vector Reg32 8
  /-- BLK[0..3] (10_state R48). -/
  blk : Vector Reg32 4
  /-- The pending-command latch (10_state R52). -/
  latch : Latch
  /-- OPMEM (10_state R51). -/
  opmem : Memory
  /-- The model's own: the turns still to come, next first. Log 3. -/
  script : List Turn
  /-- The model's own: what the port returned to the last host read; none before the first. Log 14. -/
  busRead : Option Word
  /-- The model's own: how many free values have been used. Log 8. -/
  freeReads : Nat
  /-- The model's own: the platform still holds the power-on reset (70_reset R551). Log 12. -/
  resetHeld : Bool
deriving DecidableEq, Repr

/-- Why the machine stops. Each is a case in which the spec sets its FAULT mark and ends the run (10_state R53,
60_exceptions R510); the mark is this outcome (log 2). All are safe: the model stops where the hardware goes on. -/
inductive Fault where
  /-- The host or a command reads an OPMEM word that is unwritten (20_memory R83, R84). Raised by a host read of an OPMEM
  slot and by every command that reads a region. Safe. -/
  | unwrittenWord
  /-- WOREC with an even A (42_wordarray_recoding R406). Raised by WOREC. Safe. -/
  | evenInput
  /-- WOWF with an even A, or A >= 2^(k'*w) (42_wordarray_recoding R408). Raised by WOWF. Safe. -/
  | owfPrecondition
  /-- A CMD write while BUSY = 1 (60_exceptions R511 item 1). Raised by a host write. Safe. -/
  | commandWhileBusy
  /-- A host write of a slot other than CMD, CTRL and STATUS while BUSY = 1 (60_exceptions R511 item 2). Raised by a host
  write. Safe. -/
  | writeWhileBusy
  /-- A host access before the platform releases the power-on reset (70_reset R551). Raised by a host access. Safe. -/
  | accessInReset
deriving DecidableEq, Repr

/-- Why the model gives no meaning. -/
inductive Refusal where
  /-- The command has no meaning in the model yet. Raised by exec's arms only; no arm raises it. Safe. -/
  | notModelled (mnemonic : String)
deriving DecidableEq, Repr

/-- What one step answers. -/
abbrev StepResult := Host.Outcome State Fault Refusal

/-- The power-on column of 10_state R57 (70_reset R550), for any build. -/
def State.powerOn (cfg : Config) : State :=
  { cfg := cfg
    args := Args.zero
    res := 0
    res2 := 0
    resw := 0
    cmd := 0
    status := { busy := false, done := false, err := .ok }
    ie := false
    key := Vector.replicate 8 0
    blk := Vector.replicate 4 0
    latch := Latch.empty
    opmem := []
    script := []
    busRead := none
    freeReads := 0
    resetHeld := false }

/-- The machine right after the platform has released the power-on reset (70_reset R550, R551), in the build
`Config.standard` (log 1): idle, waiting for a CMD write, with no host access to come (log 4). -/
def State.reset : State := State.powerOn Config.standard

end Sys2Proof.Machine
end

