-- ==== Sys2Proof/Machine/Flags.lean ====
section
/-! DEFINITION. The core has no flags, condition codes or predicates (10_state R33). What stands in their place: the
encodings of boolean and three-way results in RES (00_scope R19), the STATUS word (10_state R42), the CTRL, CFG and ID
words (R44 to R46), and the interrupt level (60_exceptions R520). -/

namespace Sys2Proof.Machine

/-- A boolean result in RES: 1 for true, 0 for false (00_scope R19). -/
def boolResult (b : Bool) : Reg32 := if b then 1 else 0

/-- `twos_32` of a signed integer (00_scope R14). -/
def twos32 (x : Int) : Reg32 := BitVec.ofInt 32 x

/-- The three-way compare of two unsigned integers, in -1, 0, 1 (40_wordarray_basic R205). -/
def threeWay (x y : Nat) : Int := if x > y then 1 else if x < y then -1 else 0

/-- A three-way result in RES (00_scope R19). -/
def compareResult (x y : Nat) : Reg32 := twos32 (threeWay x y)

/-- A count in RES or RES2, taken mod 2^32 (42_wordarray_recoding R407; every other count is below 2^32). -/
def countResult (x : Nat) : Reg32 := BitVec.ofNat 32 x

/-- A B-bit word result in RESW, zero-extended; bits above B are 0 (10_state R39). -/
def wordResult (cfg : Config) (x : Nat) : Word := BitVec.ofNat 64 (x % 2 ^ cfg.bits)

/-- The number of a completion code (60_exceptions R501). -/
def errCode : Err → Nat
  | .ok => 0x00
  | .illegal => 0x01
  | .param => 0x02
  | .range => 0x03
  | .overlap => 0x04

/-- STATUS as the host reads it (10_state R42): BUSY in bit 0, DONE in bit 1, ERR in bits 15:8, the rest 0. -/
def statusWord (st : Status) : Word :=
  BitVec.ofNat 64 (st.busy.toNat + 2 * st.done.toNat + 2 ^ 8 * errCode st.err)

/-- CTRL as the host reads it (10_state R44): IE in bit 0; SRST and the reserved bits read 0. -/
def ctrlWord (ie : Bool) : Word := BitVec.ofNat 64 ie.toNat

/-- CFG (10_state R45): OPMEM_WORDS in bits [31:0], 0 above. -/
def cfgWord (cfg : Config) : Word := BitVec.ofNat 64 (cfg.opmemWords % 2 ^ 32)

/-- ID (10_state R46): B in bits [7:0], the command-set version 0x01 in [15:8], 0 in [31:16], "bee2" in [63:32]. -/
def idWord (cfg : Config) : Word := BitVec.ofNat 64 (cfg.bits + 2 ^ 8 * 0x01 + 2 ^ 32 * 0x62656532)

/-- The interrupt output, a level: IRQ = STATUS.DONE and CTRL.IE (60_exceptions R520). -/
def State.irq (s : State) : Bool := s.status.done && s.ie

end Sys2Proof.Machine
end

