-- ==== Sys2Proof/Machine/Memory.lean ====
section
/-! DEFINITION. The operand memory (10_state R51, 20_memory): bytes, words, and the word-array reads and writes MemRead
and MemWrite of 00_scope R15. OPMEM word i stands in the B/8 lowest bytes of the host slot at 0x8000000 + 8*i
(10_state R54), least significant byte first. A word is written when all its bytes are listed. Log 6. -/

namespace Sys2Proof.Machine

/-- The host-window offset of OPMEM (10_state R54). -/
def opmemBase : Nat := 0x8000000

/-- The host-window offset of the slot of OPMEM word i (10_state R54, 20_memory R82). -/
def wordOffset (i : Nat) : Nat := opmemBase + 8 * i

/-- The byte at an offset; none when it is unwritten. -/
def Memory.read : Memory → Nat → Option Byte
  | [], _ => none
  | (b, v) :: rest, a => if b = a then some v else Memory.read rest a

/-- Write one byte, keeping the canonical form. -/
def Memory.write : Memory → Nat → Byte → Memory
  | [], a, v => [(a, v)]
  | (b, u) :: rest, a, v =>
    if a < b then (a, v) :: (b, u) :: rest
    else if b = a then (a, v) :: rest
    else (b, u) :: Memory.write rest a v

/-- The little-endian value of `k` bytes from offset `a` up; none when one is unwritten. -/
def loadBytes (m : Memory) (a : Nat) : Nat → Option Nat
  | 0 => some 0
  | k + 1 =>
    match m.read a, loadBytes m (a + 1) k with
    | some b, some v => some (b.toNat + 2 ^ 8 * v)
    | _, _ => none

/-- Write the `k` low bytes of `v` from offset `a` up, least significant first. -/
def storeBytes (m : Memory) (a : Nat) : Nat → Nat → Memory
  | 0, _ => m
  | k + 1, v => storeBytes (m.write a (BitVec.ofNat 8 v)) (a + 1) k (v / 2 ^ 8)

/-- OPMEM[i], an integer below 2^B; none when the word is unwritten (10_state R51). -/
def loadWord (cfg : Config) (m : Memory) (i : Nat) : Option Nat :=
  loadBytes m (wordOffset i) cfg.width.bytes

/-- `OPMEM[i] <- v mod 2^B`: the word is written afterwards (20_memory R82). -/
def storeWord (cfg : Config) (m : Memory) (i v : Nat) : Memory :=
  storeBytes m (wordOffset i) cfg.width.bytes v

/-- MemRead(base, n): the sum of `OPMEM[base+i] * 2^(B*i)` (00_scope R15); none when a word of the region is unwritten
(20_memory R84). -/
def memRead (cfg : Config) (m : Memory) (base : Nat) : Nat → Option Nat
  | 0 => some 0
  | n + 1 =>
    match loadWord cfg m base, memRead cfg m (base + 1) n with
    | some x, some v => some (x + 2 ^ cfg.bits * v)
    | _, _ => none

/-- MemWrite(base, n, v): `OPMEM[base+i] <- (v / 2^(B*i)) mod 2^B` for every i < n (00_scope R15). -/
def memWrite (cfg : Config) (m : Memory) (base : Nat) : Nat → Nat → Memory
  | 0, _ => m
  | n + 1, v => memWrite cfg (storeWord cfg m base v) (base + 1) n (v / 2 ^ cfg.bits)

/-- `for i < n: OPMEM[base+i] <- v` (40_wordarray_basic R217). -/
def memFill (cfg : Config) (m : Memory) (base : Nat) : Nat → Nat → Memory
  | 0, _ => m
  | n + 1, v => memFill cfg (storeWord cfg m base v) (base + 1) n v

/-- Mark as unwritten every OPMEM word, below OPMEM_WORDS, of the region [base, base+len) (70_reset R553). -/
def memUnwrite (cfg : Config) (m : Memory) (base len : Nat) : Memory :=
  m.filter fun c =>
    !(wordOffset base ≤ c.1 && c.1 < wordOffset (min (base + len) cfg.opmemWords))

end Sys2Proof.Machine
end

