-- ==== Sys2Proof/Machine/Operands.lean ====
section
/-! DEFINITION. The operands of a command (30_encoding R124): full-width unsigned values of the latch snapshot
(10_state R52), and the arithmetic of 00_scope R14 they go through. There is no other operand form: no sign extension,
no scaling, no pre- or post-modification, no indirection (20_memory R81). -/

namespace Sys2Proof.Machine

/-- RA of the snapshot: base of the first source, or of the operand modified in place (10_state R34). -/
def State.baseA (s : State) : Nat := s.latch.args.ra.toNat

/-- RB of the snapshot: base of the second source (10_state R34). -/
def State.baseB (s : State) : Nat := s.latch.args.rb.toNat

/-- RD of the snapshot: base of the destination (10_state R34). -/
def State.baseD (s : State) : Nat := s.latch.args.rd.toNat

/-- n, RN of the snapshot (40_wordarray_basic R200). -/
def State.lenN (s : State) : Nat := s.latch.args.rn.toNat

/-- m, RM of the snapshot (40_wordarray_basic R200). -/
def State.lenM (s : State) : Nat := s.latch.args.rm.toNat

/-- p, RP of the snapshot: a bit position or shift amount (41_wordarray_bits R300). -/
def State.posP (s : State) : Nat := s.latch.args.rp.toNat

/-- RV of the snapshot: a word value (10_state R37). -/
def State.valV (s : State) : Nat := s.latch.args.rv.toNat

/-- L = n * B, the bit length of the operand (RA, n) (41_wordarray_bits R300). -/
def State.bitsL (s : State) : Nat := s.lenN * s.cfg.bits

/-- The value of the word-array operand (base, n) (00_scope R16); none when a word of it is unwritten. -/
def State.operand (s : State) (base n : Nat) : Option Nat := memRead s.cfg s.opmem base n

/-- OPMEM[i]; none when it is unwritten. -/
def State.word (s : State) (i : Nat) : Option Nat := loadWord s.cfg s.opmem i

/-- `ceil_div(a, b)` (00_scope R14). -/
def ceilDiv (a b : Nat) : Nat := (a + b - 1) / b

/-- `bit(v, i)` (00_scope R14). -/
def bitAt (v i : Nat) : Nat := v / 2 ^ i % 2

/-- Limb i of an integer: `(v / 2^(B*i)) mod 2^B` (00_scope R15). -/
def limb (bits v i : Nat) : Nat := v / 2 ^ (bits * i) % 2 ^ bits

/-- `v & ~mask`, on unbounded integers (00_scope R14). -/
def clearMask (v mask : Nat) : Nat := v ^^^ (v &&& mask)

/-- `bitlen`: 0 for 0, else the index of the highest nonzero bit plus 1 (40_wordarray_basic R220). -/
def bitLen (v : Nat) : Nat := if v = 0 then 0 else Nat.log2 v + 1

/-- The number of limbs up to the highest nonzero one of the `n` limbs of v: its index plus 1, or 0 if all are zero
(40_wordarray_basic R218). -/
def significantLimbs (bits v : Nat) : Nat → Nat
  | 0 => 0
  | n + 1 => if limb bits v n ≠ 0 then n + 1 else significantLimbs bits v n

/-- The zero bits below the lowest one of v, counted over at most `len` bits: `len` for 0, else `max (t : 2^t divides v)`
(41_wordarray_bits R306). -/
def lowZeroBits (v : Nat) : Nat → Nat
  | 0 => 0
  | len + 1 => if v % 2 = 1 then 0 else 1 + lowZeroBits (v / 2) len

end Sys2Proof.Machine
end

