-- ==== Sys2Proof/Machine/Ops.lean ====
section
/-! DEFINITION. The shared operations of every command: completion with a code (60_exceptions R500), the checks
(R503 to R506), reading an operand, and writing results.

The core has no traps, no vectors, no saved registers and no return (60_exceptions R522): an error is a completion code
in STATUS.ERR. `State.finish` is therefore the one operation that "takes an exception", and nothing returns from one. -/

namespace Sys2Proof.Machine

/-- `finish(e)`: ERR gets the code, BUSY is cleared, DONE is set, the latch is emptied (60_exceptions R500). For a code
other than OK nothing else changes (R502). -/
def State.finish (s : State) (e : Err) : State :=
  { s with status := { busy := false, done := true, err := e }, latch := Latch.empty }

/-- The command is complete with ERR = OK (60_exceptions R500). -/
def complete (s : State) : StepResult := .next (s.finish .ok)

/-- The first check that fails, in the order listed (60_exceptions R503). -/
def firstFailure : List (Option Err) → Option Err
  | [] => none
  | some e :: _ => some e
  | none :: rest => firstFailure rest

/-- Run the checks of a command in order, then its body: the first failing check completes the command with its code and
nothing else happens (60_exceptions R500, R502, R503). -/
def checked (s : State) (checks : List (Option Err)) (body : StepResult) : StepResult :=
  match firstFailure checks with
  | some e => .next (s.finish e)
  | none => body

/-- `check_param(c)` (60_exceptions R506). -/
def checkParam (c : Prop) [Decidable c] : Option Err := if c then none else some .param

/-- `check_range(base, len)`, on unbounded integers, also when len = 0 (60_exceptions R504). -/
def checkRange (cfg : Config) (base len : Nat) : Option Err :=
  if base + len ≤ cfg.opmemWords then none else some .range

/-- The regions [b1, b1+l1) and [b2, b2+l2) share a word address; an empty region overlaps nothing (00_scope R17). -/
def regionsOverlap (b1 l1 b2 l2 : Nat) : Bool :=
  decide (0 < l1) && decide (0 < l2) && decide (b1 < b2 + l2) && decide (b2 < b1 + l1)

/-- `check_disjoint` (60_exceptions R505). -/
def checkDisjoint (b1 l1 b2 l2 : Nat) : Option Err :=
  if regionsOverlap b1 l1 b2 l2 then some .overlap else none

/-- `check_same_or_disjoint`: identical regions pass (60_exceptions R505). -/
def checkSameOrDisjoint (b1 b2 l : Nat) : Option Err :=
  if b1 ≠ b2 ∧ regionsOverlap b1 l b2 l then some .overlap else none

/-- Read a whole operand and go on with its value; an unwritten word in it is FAULT (20_memory R83, R84). -/
def withOperand (s : State) (base n : Nat) (k : Nat → StepResult) : StepResult :=
  match s.operand base n with
  | some v => k v
  | none => .fault .unwrittenWord

/-- MemWrite(base, n, v) on the state's OPMEM (00_scope R15). -/
def State.writeOperand (s : State) (base n v : Nat) : State :=
  { s with opmem := memWrite s.cfg s.opmem base n v }

/-- Write one value into every word of a region (40_wordarray_basic R217). -/
def State.fillOperand (s : State) (base n v : Nat) : State :=
  { s with opmem := memFill s.cfg s.opmem base n v }

/-- `RES <- v` (10_state R38). -/
def State.setRes (s : State) (v : Reg32) : State := { s with res := v }

/-- `RES2 <- v` (10_state R38). -/
def State.setRes2 (s : State) (v : Reg32) : State := { s with res2 := v }

/-- `RESW <- v` (10_state R39). -/
def State.setResw (s : State) (v : Word) : State := { s with resw := v }

/-- Write the KEY register file (45_block_cipher R460). -/
def State.setKey (s : State) (k : Vector Reg32 8) : State := { s with key := k }

/-- Write the BLK register file (45_block_cipher R461, R462). -/
def State.setBlk (s : State) (b : Vector Reg32 4) : State := { s with blk := b }

end Sys2Proof.Machine
end

