-- ==== Sys2Proof/Machine/Basic.lean ====
section
/-! DEFINITION. The word-array unit: move, compare, predicate, XOR, fill and length commands (40_wordarray_basic). Each
meaning is its rule's checks, in the order listed, and its pseudocode. -/

namespace Sys2Proof.Machine

/-- Operands (RA, n) and (RB, n), both only read, and a result in RES (40_wordarray_basic R203, R205). -/
def compareEqualLengths (s : State) (result : Nat → Nat → Reg32) : StepResult :=
  checked s [checkRange s.cfg s.baseA s.lenN, checkRange s.cfg s.baseB s.lenN] <|
    withOperand s s.baseA s.lenN fun a =>
      withOperand s s.baseB s.lenN fun b => complete (s.setRes (result a b))

/-- Operand (RA, n), only read, and a result in RES (40_wordarray_basic R208 to R212, R218 to R220). -/
def examine (s : State) (result : Nat → Reg32) : StepResult :=
  checked s [checkRange s.cfg s.baseA s.lenN] <|
    withOperand s s.baseA s.lenN fun a => complete (s.setRes (result a))

/-- Every one of the `n` limbs of `a` equals `v` (40_wordarray_basic R212). -/
def allLimbs (bits a v n : Nat) : Bool := (List.range n).all fun i => limb bits a i == v

/-- WCOPY (40_wordarray_basic R201). -/
def execWcopy (s : State) : StepResult :=
  checked s [checkRange s.cfg s.baseA s.lenN, checkRange s.cfg s.baseD s.lenN,
      checkSameOrDisjoint s.baseA s.baseD s.lenN] <|
    withOperand s s.baseA s.lenN fun v => complete (s.writeOperand s.baseD s.lenN v)

/-- WSWAP (40_wordarray_basic R202). -/
def execWswap (s : State) : StepResult :=
  checked s [checkRange s.cfg s.baseA s.lenN, checkRange s.cfg s.baseB s.lenN,
      checkDisjoint s.baseA s.lenN s.baseB s.lenN] <|
    withOperand s s.baseA s.lenN fun x =>
      withOperand s s.baseB s.lenN fun y =>
        complete ((s.writeOperand s.baseA s.lenN y).writeOperand s.baseB s.lenN x)

/-- WEQ (40_wordarray_basic R203). -/
def execWeq (s : State) : StepResult := compareEqualLengths s fun a b => boolResult (a == b)

/-- WEQF (40_wordarray_basic R204): it reads every word of both regions too. -/
def execWeqf (s : State) : StepResult := compareEqualLengths s fun a b => boolResult (a == b)

/-- WCMP (40_wordarray_basic R205). -/
def execWcmp (s : State) : StepResult := compareEqualLengths s compareResult

/-- WCMPF (40_wordarray_basic R206). -/
def execWcmpf (s : State) : StepResult := compareEqualLengths s compareResult

/-- WCMPL (40_wordarray_basic R207). -/
def execWcmpl (s : State) : StepResult :=
  checked s [checkRange s.cfg s.baseA s.lenN, checkRange s.cfg s.baseB s.lenM] <|
    withOperand s s.baseA s.lenN fun x =>
      withOperand s s.baseB s.lenM fun y => complete (s.setRes (compareResult x y))

/-- WCMPW (40_wordarray_basic R208). -/
def execWcmpw (s : State) : StepResult := examine s fun a => compareResult a s.valV

/-- WISZ (40_wordarray_basic R209). -/
def execWisz (s : State) : StepResult := examine s fun a => boolResult (a == 0)

/-- WISZF (40_wordarray_basic R210). -/
def execWiszf (s : State) : StepResult := examine s fun a => boolResult (a == 0)

/-- WISW (40_wordarray_basic R211). -/
def execWisw (s : State) : StepResult := examine s fun a => boolResult (a == s.valV)

/-- WISREP (40_wordarray_basic R212): the empty array repeats the value 0 only. -/
def execWisrep (s : State) : StepResult :=
  examine s fun a =>
    boolResult (allLimbs s.cfg.bits a s.valV s.lenN && (decide (0 < s.lenN) || s.valV == 0))

/-- WXOR (40_wordarray_basic R213): the two sources may overlap each other. -/
def execWxor (s : State) : StepResult :=
  checked s [checkRange s.cfg s.baseA s.lenN, checkRange s.cfg s.baseB s.lenN,
      checkRange s.cfg s.baseD s.lenN, checkSameOrDisjoint s.baseA s.baseD s.lenN,
      checkSameOrDisjoint s.baseB s.baseD s.lenN] <|
    withOperand s s.baseA s.lenN fun a =>
      withOperand s s.baseB s.lenN fun b => complete (s.writeOperand s.baseD s.lenN (a ^^^ b))

/-- WXORA (40_wordarray_basic R214): the destination is read and written. -/
def execWxora (s : State) : StepResult :=
  checked s [checkRange s.cfg s.baseA s.lenN, checkRange s.cfg s.baseD s.lenN,
      checkSameOrDisjoint s.baseA s.baseD s.lenN] <|
    withOperand s s.baseA s.lenN fun a =>
      withOperand s s.baseD s.lenN fun d => complete (s.writeOperand s.baseD s.lenN (d ^^^ a))

/-- WZERO (40_wordarray_basic R215). -/
def execWzero (s : State) : StepResult :=
  checked s [checkRange s.cfg s.baseD s.lenN] <| complete (s.writeOperand s.baseD s.lenN 0)

/-- WSETW (40_wordarray_basic R216): n = 0 with a nonzero word is PARAM. -/
def execWsetw (s : State) : StepResult :=
  checked s [checkParam (¬(s.lenN = 0 ∧ s.valV ≠ 0)), checkRange s.cfg s.baseD s.lenN] <|
    complete (s.writeOperand s.baseD s.lenN s.valV)

/-- WFILL (40_wordarray_basic R217). -/
def execWfill (s : State) : StepResult :=
  checked s [checkRange s.cfg s.baseD s.lenN] <| complete (s.fillOperand s.baseD s.lenN s.valV)

/-- WSWL (40_wordarray_basic R218). -/
def execWswl (s : State) : StepResult :=
  examine s fun a => countResult (significantLimbs s.cfg.bits a s.lenN)

/-- WSBYL (40_wordarray_basic R219). -/
def execWsbyl (s : State) : StepResult := examine s fun a => countResult (ceilDiv (bitLen a) 8)

/-- WSBL (40_wordarray_basic R220). -/
def execWsbl (s : State) : StepResult := examine s fun a => countResult (bitLen a)

end Sys2Proof.Machine
end

