-- ==== Sys2Proof/Machine/Bits.lean ====
section
/-! DEFINITION. The word-array unit: bit access, zero counts, shifts and trims (41_wordarray_bits). Bit positions count
from bit 0 of limb 0; the bounds are checked against L = n * B and reported as PARAM (R300). -/

namespace Sys2Proof.Machine

/-- The operand (RA, n) modified in place: the checks, the read of the whole region, and the write of the new value
(41_wordarray_bits R300). -/
def modifyInPlace (s : State) (params : List (Option Err)) (new : Nat → Nat) : StepResult :=
  checked s (params ++ [checkRange s.cfg s.baseA s.lenN]) <|
    withOperand s s.baseA s.lenN fun a => complete (s.writeOperand s.baseA s.lenN (new a))

/-- WTBIT (41_wordarray_bits R301). -/
def execWtbit (s : State) : StepResult :=
  checked s [checkParam (s.posP < s.bitsL), checkRange s.cfg s.baseA s.lenN] <|
    withOperand s s.baseA s.lenN fun a => complete (s.setRes (countResult (bitAt a s.posP)))

/-- WGBITS (41_wordarray_bits R302). -/
def execWgbits (wd : Nat) (s : State) : StepResult :=
  checked s [checkParam (wd ≤ s.cfg.bits), checkParam (s.posP + wd ≤ s.bitsL),
      checkRange s.cfg s.baseA s.lenN] <|
    withOperand s s.baseA s.lenN fun a =>
      complete (s.setResw (wordResult s.cfg (a / 2 ^ s.posP % 2 ^ wd)))

/-- WSBIT (41_wordarray_bits R303): only bit 0 of RV is used. -/
def execWsbit (s : State) : StepResult :=
  modifyInPlace s [checkParam (s.posP < s.bitsL)] fun a =>
    clearMask a (2 ^ s.posP) ||| (bitAt s.valV 0 * 2 ^ s.posP)

/-- WSBITS (41_wordarray_bits R304). -/
def execWsbits (wd : Nat) (s : State) : StepResult :=
  modifyInPlace s [checkParam (wd ≤ s.cfg.bits), checkParam (s.posP + wd ≤ s.bitsL)] fun a =>
    clearMask a ((2 ^ wd - 1) * 2 ^ s.posP) ||| (s.valV % 2 ^ wd * 2 ^ s.posP)

/-- WFBIT (41_wordarray_bits R305). -/
def execWfbit (s : State) : StepResult :=
  modifyInPlace s [checkParam (s.posP < s.bitsL)] fun a => a ^^^ 2 ^ s.posP

/-- WLZC (41_wordarray_bits R306). -/
def execWlzc (s : State) : StepResult :=
  checked s [checkRange s.cfg s.baseA s.lenN] <|
    withOperand s s.baseA s.lenN fun a => complete (s.setRes (countResult (lowZeroBits a s.bitsL)))

/-- WHZC (41_wordarray_bits R307). -/
def execWhzc (s : State) : StepResult :=
  checked s [checkRange s.cfg s.baseA s.lenN] <|
    withOperand s s.baseA s.lenN fun a => complete (s.setRes (countResult (s.bitsL - bitLen a)))

/-- Y of WSHLC: the virtual limb c above the array, a zero virtual limb below it, shifted low by `sh`
(41_wordarray_bits R308). -/
def shiftedLow (bits len a c sh : Nat) : Nat := (c * 2 ^ len + a) * 2 ^ bits / 2 ^ sh

/-- Y of WSHHC: the virtual limb c below the array, shifted high by `sh` (41_wordarray_bits R309). -/
def shiftedHigh (bits a c sh : Nat) : Nat := (a * 2 ^ bits + c) * 2 ^ sh

/-- WSHLC (41_wordarray_bits R308). -/
def execWshlc (s : State) : StepResult :=
  checked s [checkParam (s.posP ≤ s.bitsL), checkRange s.cfg s.baseA s.lenN] <|
    withOperand s s.baseA s.lenN fun a =>
      let y := shiftedLow s.cfg.bits s.bitsL a s.valV s.posP
      complete ((s.writeOperand s.baseA s.lenN (y / 2 ^ s.cfg.bits % 2 ^ s.bitsL)).setResw
        (wordResult s.cfg y))

/-- WSHHC (41_wordarray_bits R309). -/
def execWshhc (s : State) : StepResult :=
  checked s [checkParam (s.posP ≤ s.bitsL), checkRange s.cfg s.baseA s.lenN] <|
    withOperand s s.baseA s.lenN fun a =>
      let y := shiftedHigh s.cfg.bits a s.valV s.posP
      complete ((s.writeOperand s.baseA s.lenN (y / 2 ^ s.cfg.bits % 2 ^ s.bitsL)).setResw
        (wordResult s.cfg (y / 2 ^ (s.cfg.bits + s.bitsL))))

/-- WTRL (41_wordarray_bits R311): every position is legal. -/
def execWtrl (s : State) : StepResult :=
  modifyInPlace s [] fun a => a - a % 2 ^ min s.posP s.bitsL

/-- WTRH (41_wordarray_bits R312): every position is legal, and the region is rewritten even where nothing changes. -/
def execWtrh (s : State) : StepResult :=
  modifyInPlace s [] fun a => a % 2 ^ min s.posP s.bitsL

end Sys2Proof.Machine
end

