-- ==== Sys2Proof/Machine/Cipher.lean ====
section
/-! DEFINITION. The block cipher unit (45_block_cipher), for any S-box H (R451). It never touches OPMEM and writes no
result register. -/

namespace Sys2Proof.Machine

/-- `rotl32(x, r)` for 0 < r < 32 (45_block_cipher R450). -/
def rotl32 (x : Reg32) (r : Nat) : Reg32 := (x <<< r) ||| (x >>> (32 - r))

/-- `byte_j(x) = (x >> 8j) & 255` (45_block_cipher R450). -/
def byteOf (j : Nat) (x : Reg32) : Byte := (x >>> (8 * j)).setWidth 8

/-- The S-box H (45_block_cipher R451). -/
def sbox (cfg : Config) (x : Byte) : Byte := cfg.hRom[x.toNat]'x.isLt

/-- The rotated tables: `Hr[x] = rotl32(zext_32(H[x]), r)`, r in 5, 13, 21, 29 (45_block_cipher R453). -/
def rotatedSbox (cfg : Config) (r : Nat) (x : Byte) : Reg32 := rotl32 ((sbox cfg x).setWidth 32) r

/-- The XOR of four table entries, the table of byte j of x being the j-th given (45_block_cipher R454). -/
def substitute (cfg : Config) (r0 r1 r2 r3 : Nat) (x : Reg32) : Reg32 :=
  rotatedSbox cfg r0 (byteOf 0 x) ^^^ rotatedSbox cfg r1 (byteOf 1 x) ^^^
    rotatedSbox cfg r2 (byteOf 2 x) ^^^ rotatedSbox cfg r3 (byteOf 3 x)

/-- G5 (45_block_cipher R454). -/
def g5 (cfg : Config) (x : Reg32) : Reg32 := substitute cfg 5 13 21 29 x

/-- G13 (45_block_cipher R454). -/
def g13 (cfg : Config) (x : Reg32) : Reg32 := substitute cfg 13 21 29 5 x

/-- G21 (45_block_cipher R454). -/
def g21 (cfg : Config) (x : Reg32) : Reg32 := substitute cfg 21 29 5 13 x

/-- Four 32-bit words: the physical registers P0..P3, or the roles a, b, c, d (45_block_cipher R450, R455). -/
structure Quad where
  /-- P0, or role a. -/
  p0 : Reg32
  /-- P1, or role b. -/
  p1 : Reg32
  /-- P2, or role c. -/
  p2 : Reg32
  /-- P3, or role d. -/
  p3 : Reg32
deriving DecidableEq, Repr

/-- One round (45_block_cipher R455): the nine steps in order, each on the values the steps before it left. `k j` is the
subkey k_j and `i` the round index. -/
def cipherRound (cfg : Config) (i : Nat) (k : Nat → Reg32) (q : Quad) : Quad :=
  let a := q.p0
  let b := q.p1
  let c := q.p2
  let d := q.p3
  let b := b ^^^ g5 cfg (a + k 0)
  let c := c ^^^ g21 cfg (d + k 1)
  let a := a - g13 cfg (b + k 2)
  let c := c + b
  let b := b + (g21 cfg (c + k 3) ^^^ BitVec.ofNat 32 i)
  let c := c - b
  let d := d + g13 cfg (c + k 4)
  let b := b ^^^ g21 cfg (a + k 5)
  let c := c ^^^ g5 cfg (d + k 6)
  { p0 := a, p1 := b, p2 := c, p3 := d }

/-- `KEY[i mod 8]`. -/
def keyWord (key : Vector Reg32 8) (i : Nat) : Reg32 := key[i % 8]'(Nat.mod_lt i (by decide))

/-- The encryption subkeys of round i: `k_j = KEY[(7*i - 7 + j) mod 8]` (45_block_cipher R456). -/
def encSubkey (key : Vector Reg32 8) (i j : Nat) : Reg32 := keyWord key (7 * i - 7 + j)

/-- The decryption subkeys of round i: `k_j = KEY[(7*i - 1 - j) mod 8]` (45_block_cipher R457). -/
def decSubkey (key : Vector Reg32 8) (i j : Nat) : Reg32 := keyWord key (7 * i - 1 - j)

/-- A binding row: the roles (a, b, c, d) and the physical registers they stand in (45_block_cipher R458, R459). -/
inductive Row where
  /-- (P0, P1, P2, P3), the source's (a,b,c,d). -/
  | abcd
  /-- (P1, P3, P0, P2), the source's (b,d,a,c). -/
  | bdac
  /-- (P3, P2, P1, P0), the source's (d,c,b,a). -/
  | dcba
  /-- (P2, P0, P3, P1), the source's (c,a,d,b). -/
  | cadb
deriving DecidableEq, Repr

/-- The four registers in a row's order: the roles bound to them, and also the final permutations of R458 and R459. -/
def Row.gather (e : Row) (q : Quad) : Quad :=
  match e with
  | .abcd => q
  | .bdac => { p0 := q.p1, p1 := q.p3, p2 := q.p0, p3 := q.p2 }
  | .dcba => { p0 := q.p3, p1 := q.p2, p2 := q.p1, p3 := q.p0 }
  | .cadb => { p0 := q.p2, p1 := q.p0, p2 := q.p3, p3 := q.p1 }

/-- Write the four roles back to the physical registers they are bound to (45_block_cipher R458). -/
def Row.scatter (e : Row) (r : Quad) : Quad :=
  match e with
  | .abcd => r
  | .bdac => { p1 := r.p0, p3 := r.p1, p0 := r.p2, p2 := r.p3 }
  | .dcba => { p3 := r.p0, p2 := r.p1, p1 := r.p2, p0 := r.p3 }
  | .cadb => { p2 := r.p0, p0 := r.p1, p3 := r.p2, p1 := r.p3 }

/-- The row of round t of encryption: row (t-1) mod 4 of the table of 45_block_cipher R458. -/
def encRow (t : Nat) : Row :=
  match (t - 1) % 4 with
  | 0 => .abcd
  | 1 => .bdac
  | 2 => .dcba
  | _ => .cadb

/-- The row of step t of decryption: row (t-1) mod 4 of the table of 45_block_cipher R459. -/
def decRow (t : Nat) : Row :=
  match (t - 1) % 4 with
  | 0 => .abcd
  | 1 => .cadb
  | 2 => .dcba
  | _ => .bdac

/-- Round t of encryption on the physical registers (45_block_cipher R458). -/
def encStep (cfg : Config) (key : Vector Reg32 8) (t : Nat) (p : Quad) : Quad :=
  (encRow t).scatter (cipherRound cfg t (encSubkey key t) ((encRow t).gather p))

/-- Step t of decryption, of round index 9 - t, on the physical registers (45_block_cipher R459). -/
def decStep (cfg : Config) (key : Vector Reg32 8) (t : Nat) (p : Quad) : Quad :=
  (decRow t).scatter (cipherRound cfg (9 - t) (decSubkey key (9 - t)) ((decRow t).gather p))

/-- The physical registers after encryption rounds 1 to t. -/
def encRounds (cfg : Config) (key : Vector Reg32 8) : Nat → Quad → Quad
  | 0, p => p
  | t + 1, p => encStep cfg key (t + 1) (encRounds cfg key t p)

/-- The physical registers after decryption steps 1 to t. -/
def decRounds (cfg : Config) (key : Vector Reg32 8) : Nat → Quad → Quad
  | 0, p => p
  | t + 1, p => decStep cfg key (t + 1) (decRounds cfg key t p)

/-- Encrypt one block: eight rounds, then the output (P1, P3, P0, P2) (45_block_cipher R458, R461). -/
def encryptBlock (cfg : Config) (key : Vector Reg32 8) (p : Quad) : Quad :=
  Row.gather .bdac (encRounds cfg key 8 p)

/-- Decrypt one block: eight steps, then the output (P2, P0, P3, P1) (45_block_cipher R459, R462). -/
def decryptBlock (cfg : Config) (key : Vector Reg32 8) (p : Quad) : Quad :=
  Row.gather .cadb (decRounds cfg key 8 p)

/-- P_j <- BLK[j] (45_block_cipher R458). -/
def quadOfBlk (b : Vector Reg32 4) : Quad := { p0 := b[0], p1 := b[1], p2 := b[2], p3 := b[3] }

/-- BLK[0..3] from four words. -/
def blkOfQuad (q : Quad) : Vector Reg32 4 := #v[q.p0, q.p1, q.p2, q.p3]

/-- The expanded key for an input key of `octets` octets in KEY (45_block_cipher R460). -/
def expandKey (octets : Nat) (k : Vector Reg32 8) : Vector Reg32 8 :=
  if octets = 16 then #v[k[0], k[1], k[2], k[3], k[0], k[1], k[2], k[3]]
  else if octets = 24 then
    #v[k[0], k[1], k[2], k[3], k[4], k[5], k[0] ^^^ k[1] ^^^ k[2], k[3] ^^^ k[4] ^^^ k[5]]
  else k

/-- BKEXP (45_block_cipher R460): any other key length is PARAM. -/
def execBkexp (octets : Nat) (s : State) : StepResult :=
  checked s [checkParam (octets = 16 ∨ octets = 24 ∨ octets = 32)] <|
    complete (s.setKey (expandKey octets s.key))

/-- BENC (45_block_cipher R461). -/
def execBenc (s : State) : StepResult :=
  complete (s.setBlk (blkOfQuad (encryptBlock s.cfg s.key (quadOfBlk s.blk))))

/-- BDEC (45_block_cipher R462). -/
def execBdec (s : State) : StepResult :=
  complete (s.setBlk (blkOfQuad (decryptBlock s.cfg s.key (quadOfBlk s.blk))))

end Sys2Proof.Machine
end

