-- ==== Sys2Proof/Machine/Recoding.lean ====
section
/-! DEFINITION. The word-array unit: NAF and odd-digit recodings (42_wordarray_recoding). A recoding is a list of signed
digits, least significant first (R400). -/

namespace Sys2Proof.Machine

/-- The digit that the loop of R401 takes from k: 0 for an even k, else k mod 2^w read as a signed w-bit value. -/
def nafDigit (w k : Nat) : Int :=
  if k % 2 = 1 then
    if k % 2 ^ w < 2 ^ (w - 1) then ((k % 2 ^ w : Nat) : Int) else ((k % 2 ^ w : Nat) : Int) - 2 ^ w
  else 0

/-- The loop of 42_wordarray_recoding R401, on at most `fuel` digits. It makes at most bitlen(k) + 1 of them
(R404 item 4), so `nafLoop w (bitLen k + 1) k` is the whole loop (log 16). -/
def nafLoop (w : Nat) : Nat → Nat → List Int
  | 0, _ => []
  | fuel + 1, k =>
    if k = 0 then []
    else nafDigit w k :: nafLoop w fuel (((k : Int) - nafDigit w k) / 2).toNat

/-- The rewrite of R401 applies: the top digit is 1, the w-1 digits below it are 0, and the next one is negative. -/
def nafRewritable (w : Nat) (d : List Int) : Bool :=
  decide (w + 1 ≤ d.length) && d.getLast? == some 1 &&
    (d.drop (d.length - w)).take (w - 1) == List.replicate (w - 1) 0 &&
    decide (d.getD (d.length - w - 1) 0 < 0)

/-- The special-case rewrite at the most significant end (42_wordarray_recoding R401): the negative digit gains
2^(w-1), the digit below the top one becomes 1 and the top one is removed. -/
def nafRewrite (w : Nat) (d : List Int) : List Int :=
  if nafRewritable w d then
    d.take (d.length - w - 1) ++ [d.getD (d.length - w - 1) 0 + 2 ^ (w - 1)] ++
      List.replicate (w - 2) 0 ++ [1]
  else d

/-- `naf_w(A)` (42_wordarray_recoding R401). -/
def naf (w a : Nat) : List Int := nafRewrite w (nafLoop w (bitLen a + 1) a)

/-- `twos_w(d)`: the w-bit pattern of a signed digit (00_scope R14). -/
def twosOf (w : Nat) (d : Int) : Nat := (d % 2 ^ w).toNat

/-- `naf_encode` from position p, the symbols given most significant first: the code and the position after it
(42_wordarray_recoding R403). -/
def nafEncodeFrom (w : Nat) : List Int → Nat → Nat × Nat
  | [], p => (0, p)
  | d :: rest, p =>
    if d = 0 then nafEncodeFrom w rest (p + 1)
    else
      let r := nafEncodeFrom w rest (p + w)
      (twosOf w d * 2 ^ p ||| r.1, r.2)

/-- `naf_encode(d, w)`: the string starts at bit 0 with the most significant symbol (42_wordarray_recoding R403). -/
def nafEncode (w : Nat) (d : List Int) : Nat × Nat := nafEncodeFrom w d.reverse 0

/-- `orec_w(A, k)`: k signed odd digits (42_wordarray_recoding R405). -/
def orec (w : Nat) : Nat → Nat → List Int
  | 0, _ => []
  | 1, a => [(a : Int)]
  | k + 2, a =>
    let d : Int := ((a % 2 ^ (w + 1) : Nat) : Int) - 2 ^ w
    d :: orec w (k + 1) (((a : Int) - d) / 2 ^ w).toNat

/-- `ocode_w(d)`: sign in bit w-1, (|d| - 1) / 2 below it (42_wordarray_recoding R410). -/
def ocode (w : Nat) (d : Int) : Nat := (if d < 0 then 2 ^ (w - 1) else 0) + (d.natAbs - 1) / 2

/-- `sum_{i<k} ocode_w(d[i]) << (w*i)` (42_wordarray_recoding R406, R410). -/
def ocodeSum (w : Nat) : List Int → Nat
  | [] => 0
  | d :: rest => ocode w d + 2 ^ w * ocodeSum w rest

/-- k of WOREC: `ceil_div(L, w)` (42_wordarray_recoding R406). -/
def orecDigits (bits n w : Nat) : Nat := ceilDiv (n * bits) w

/-- `orec_words(n, w)`: the length of WOREC's destination (42_wordarray_recoding R406). -/
def orecWords (bits n w : Nat) : Nat := ceilDiv (orecDigits bits n w * w) bits

/-- k' of WOWF: `floor(L / w)` (42_wordarray_recoding R408). -/
def owfDigits (bits n w : Nat) : Nat := n * bits / w

/-- `owf_words(n, w)`: the length of WOWF's destination (42_wordarray_recoding R408). -/
def owfWords (bits n w : Nat) : Nat := ceilDiv (owfDigits bits n w * w) bits

/-- WNAF (42_wordarray_recoding R402). -/
def execWnaf (w : Nat) (s : State) : StepResult :=
  checked s [checkParam (2 ≤ w ∧ w < s.cfg.bits), checkRange s.cfg s.baseA s.lenN,
      checkRange s.cfg s.baseD (2 * s.lenN + 1),
      checkDisjoint s.baseA s.lenN s.baseD (2 * s.lenN + 1)] <|
    withOperand s s.baseA s.lenN fun a =>
      let d := naf w a
      let code := nafEncode w d
      complete (((s.writeOperand s.baseD (2 * s.lenN + 1) code.1).setRes
        (countResult d.length)).setRes2 (countResult code.2))

/-- WOREC (42_wordarray_recoding R406): an even A is Undefined, so FAULT (60_exceptions R510). -/
def execWorec (w : Nat) (s : State) : StepResult :=
  checked s [checkParam (1 ≤ w ∧ w < s.cfg.bits), checkParam (1 ≤ s.lenN),
      checkRange s.cfg s.baseA s.lenN, checkRange s.cfg s.baseD (orecWords s.cfg.bits s.lenN w),
      checkDisjoint s.baseA s.lenN s.baseD (orecWords s.cfg.bits s.lenN w)] <|
    withOperand s s.baseA s.lenN fun a =>
      if a % 2 = 0 then .fault .evenInput
      else
        complete ((s.writeOperand s.baseD (orecWords s.cfg.bits s.lenN w)
          (ocodeSum w (orec w (orecDigits s.cfg.bits s.lenN w) a))).setRes
            (countResult (orecDigits s.cfg.bits s.lenN w)))

/-- WORSZ (42_wordarray_recoding R407): no region, no range check. -/
def execWorsz (w : Nat) (s : State) : StepResult :=
  checked s [checkParam (1 ≤ w ∧ w < s.cfg.bits)] <|
    complete (s.setRes (countResult (orecDigits s.cfg.bits s.lenN w)))

/-- WOWF (42_wordarray_recoding R408): an even A, or A >= 2^(k'*w), is Undefined, so FAULT (60_exceptions R510). -/
def execWowf (w : Nat) (s : State) : StepResult :=
  checked s [checkParam (1 ≤ w ∧ w < s.cfg.bits), checkParam (1 ≤ s.lenN),
      checkRange s.cfg s.baseA s.lenN, checkRange s.cfg s.baseD (owfWords s.cfg.bits s.lenN w),
      checkDisjoint s.baseA s.lenN s.baseD (owfWords s.cfg.bits s.lenN w)] <|
    withOperand s s.baseA s.lenN fun a =>
      if a % 2 = 0 ∨ a ≥ 2 ^ (owfDigits s.cfg.bits s.lenN w * w) then .fault .owfPrecondition
      else
        complete ((s.writeOperand s.baseD (owfWords s.cfg.bits s.lenN w)
          (ocodeSum w (orec w (owfDigits s.cfg.bits s.lenN w) a))).setRes
            (countResult (owfDigits s.cfg.bits s.lenN w)))

/-- WOWSZ (42_wordarray_recoding R409): no region, no range check. -/
def execWowsz (w : Nat) (s : State) : StepResult :=
  checked s [checkParam (1 ≤ w ∧ w < s.cfg.bits)] <|
    complete (s.setRes (countResult (owfDigits s.cfg.bits s.lenN w)))

end Sys2Proof.Machine
end

