-- ==== Sys2Proof/Syntax.lean ====
section
/-! DEFINITION. The commands of bee2-core: one constructor per row of the opcode map of 30_encoding R126. The only
operand a command word holds is its W field (R123), a count: the eight commands that take it carry it as `w`. Every
other operand is taken from the latched argument registers (R124). -/

namespace Sys2Proof

/-- A command of the opcode map (30_encoding R126). -/
inductive Instr where
  /-- WCOPY, OP = 0x01: copy (40_wordarray_basic R201). -/
  | wcopy
  /-- WSWAP, OP = 0x02: swap (40_wordarray_basic R202). -/
  | wswap
  /-- WEQ, OP = 0x03: equal, constant-time (40_wordarray_basic R203). -/
  | weq
  /-- WEQF, OP = 0x04: equal, fast (40_wordarray_basic R204). -/
  | weqf
  /-- WCMP, OP = 0x05: compare, constant-time (40_wordarray_basic R205). -/
  | wcmp
  /-- WCMPF, OP = 0x06: compare, fast (40_wordarray_basic R206). -/
  | wcmpf
  /-- WCMPL, OP = 0x07: compareDifferentLengths (40_wordarray_basic R207). -/
  | wcmpl
  /-- WCMPW, OP = 0x08: compareToWord (40_wordarray_basic R208). -/
  | wcmpw
  /-- WISZ, OP = 0x09: isZero, constant-time (40_wordarray_basic R209). -/
  | wisz
  /-- WISZF, OP = 0x0A: isZero, fast (40_wordarray_basic R210). -/
  | wiszf
  /-- WISW, OP = 0x0B: isWordValue (40_wordarray_basic R211). -/
  | wisw
  /-- WISREP, OP = 0x0C: isRepeatedWord (40_wordarray_basic R212). -/
  | wisrep
  /-- WXOR, OP = 0x0D: xorInto (40_wordarray_basic R213). -/
  | wxor
  /-- WXORA, OP = 0x0E: xorAccumulate (40_wordarray_basic R214). -/
  | wxora
  /-- WZERO, OP = 0x0F: setZero (40_wordarray_basic R215). -/
  | wzero
  /-- WSETW, OP = 0x10: setWordValue (40_wordarray_basic R216). -/
  | wsetw
  /-- WFILL, OP = 0x11: fillWithWord (40_wordarray_basic R217). -/
  | wfill
  /-- WSWL, OP = 0x12: significantWordLength (40_wordarray_basic R218). -/
  | wswl
  /-- WSBYL, OP = 0x13: significantByteLength (40_wordarray_basic R219). -/
  | wsbyl
  /-- WSBL, OP = 0x14: significantBitLength (40_wordarray_basic R220). -/
  | wsbl
  /-- WTBIT, OP = 0x15: testBit (41_wordarray_bits R301). -/
  | wtbit
  /-- WGBITS, OP = 0x16: getBits, width in W (41_wordarray_bits R302). -/
  | wgbits (w : Nat)
  /-- WSBIT, OP = 0x17: setBit (41_wordarray_bits R303). -/
  | wsbit
  /-- WSBITS, OP = 0x18: setBits, width in W (41_wordarray_bits R304). -/
  | wsbits (w : Nat)
  /-- WFBIT, OP = 0x19: flipBit (41_wordarray_bits R305). -/
  | wfbit
  /-- WLZC, OP = 0x1A: countLowZeroBits (41_wordarray_bits R306). -/
  | wlzc
  /-- WHZC, OP = 0x1B: countHighZeroBits (41_wordarray_bits R307). -/
  | whzc
  /-- WSHLC, OP = 0x1C: shiftLowWithCarry (41_wordarray_bits R308). -/
  | wshlc
  /-- WSHHC, OP = 0x1D: shiftHighWithCarry (41_wordarray_bits R309). -/
  | wshhc
  /-- WTRL, OP = 0x1E: trimLow (41_wordarray_bits R311). -/
  | wtrl
  /-- WTRH, OP = 0x1F: trimHigh (41_wordarray_bits R312). -/
  | wtrh
  /-- WNAF, OP = 0x20: computeNAF, window width in W (42_wordarray_recoding R402). -/
  | wnaf (w : Nat)
  /-- WOREC, OP = 0x21: computeOddRecording, window width in W (42_wordarray_recoding R406). -/
  | worec (w : Nat)
  /-- WORSZ, OP = 0x22: oddRecordingSize, window width in W (42_wordarray_recoding R407). -/
  | worsz (w : Nat)
  /-- WOWF, OP = 0x23: computeOddWindowedForm, window width in W (42_wordarray_recoding R408). -/
  | wowf (w : Nat)
  /-- WOWSZ, OP = 0x24: oddWindowedFormSize, window width in W (42_wordarray_recoding R409). -/
  | wowsz (w : Nat)
  /-- BKEXP, OP = 0x30: expandKey, key octets in W (45_block_cipher R460). -/
  | bkexp (w : Nat)
  /-- BENC, OP = 0x31: encryptBlock (45_block_cipher R461). -/
  | benc
  /-- BDEC, OP = 0x32: decryptBlock (45_block_cipher R462). -/
  | bdec
deriving DecidableEq, Repr

end Sys2Proof
end

