-- ==== Sys2Proof/Machine/Dispatch.lean ====
section
/-! DEFINITION. The meaning of every command: exec runs it on the latch snapshot and completes it (60_exceptions R500). -/

namespace Sys2Proof.Machine

def exec (i : Instr) (s : State) : Host.Outcome State Fault Refusal :=
  match i with
  | .wcopy => Sys2Proof.Machine.execWcopy s
  | .wswap => Sys2Proof.Machine.execWswap s
  | .weq => Sys2Proof.Machine.execWeq s
  | .weqf => Sys2Proof.Machine.execWeqf s
  | .wcmp => Sys2Proof.Machine.execWcmp s
  | .wcmpf => Sys2Proof.Machine.execWcmpf s
  | .wcmpl => Sys2Proof.Machine.execWcmpl s
  | .wcmpw => Sys2Proof.Machine.execWcmpw s
  | .wisz => Sys2Proof.Machine.execWisz s
  | .wiszf => Sys2Proof.Machine.execWiszf s
  | .wisw => Sys2Proof.Machine.execWisw s
  | .wisrep => Sys2Proof.Machine.execWisrep s
  | .wxor => Sys2Proof.Machine.execWxor s
  | .wxora => Sys2Proof.Machine.execWxora s
  | .wzero => Sys2Proof.Machine.execWzero s
  | .wsetw => Sys2Proof.Machine.execWsetw s
  | .wfill => Sys2Proof.Machine.execWfill s
  | .wswl => Sys2Proof.Machine.execWswl s
  | .wsbyl => Sys2Proof.Machine.execWsbyl s
  | .wsbl => Sys2Proof.Machine.execWsbl s
  | .wtbit => Sys2Proof.Machine.execWtbit s
  | .wgbits w => Sys2Proof.Machine.execWgbits w s
  | .wsbit => Sys2Proof.Machine.execWsbit s
  | .wsbits w => Sys2Proof.Machine.execWsbits w s
  | .wfbit => Sys2Proof.Machine.execWfbit s
  | .wlzc => Sys2Proof.Machine.execWlzc s
  | .whzc => Sys2Proof.Machine.execWhzc s
  | .wshlc => Sys2Proof.Machine.execWshlc s
  | .wshhc => Sys2Proof.Machine.execWshhc s
  | .wtrl => Sys2Proof.Machine.execWtrl s
  | .wtrh => Sys2Proof.Machine.execWtrh s
  | .wnaf w => Sys2Proof.Machine.execWnaf w s
  | .worec w => Sys2Proof.Machine.execWorec w s
  | .worsz w => Sys2Proof.Machine.execWorsz w s
  | .wowf w => Sys2Proof.Machine.execWowf w s
  | .wowsz w => Sys2Proof.Machine.execWowsz w s
  | .bkexp w => Sys2Proof.Machine.execBkexp w s
  | .benc => Sys2Proof.Machine.execBenc s
  | .bdec => Sys2Proof.Machine.execBdec s

end Sys2Proof.Machine
end

