-- ==== Sys2Proof/WellFormed.lean ====
section
/-! DEFINITION. What an encoding can hold: the W parameter is an 8-bit unsigned value (30_encoding R123). A W outside a
command's own legal range is well formed: it is a PARAM error of that command, not an illegal encoding (R127). -/

namespace Sys2Proof

/-- The W field of a command: its parameter, and 0 for a command without one (30_encoding R123, R126). -/
def Instr.wField : Instr → Nat
  | .wcopy => 0
  | .wswap => 0
  | .weq => 0
  | .weqf => 0
  | .wcmp => 0
  | .wcmpf => 0
  | .wcmpl => 0
  | .wcmpw => 0
  | .wisz => 0
  | .wiszf => 0
  | .wisw => 0
  | .wisrep => 0
  | .wxor => 0
  | .wxora => 0
  | .wzero => 0
  | .wsetw => 0
  | .wfill => 0
  | .wswl => 0
  | .wsbyl => 0
  | .wsbl => 0
  | .wtbit => 0
  | .wgbits w => w
  | .wsbit => 0
  | .wsbits w => w
  | .wfbit => 0
  | .wlzc => 0
  | .whzc => 0
  | .wshlc => 0
  | .wshhc => 0
  | .wtrl => 0
  | .wtrh => 0
  | .wnaf w => w
  | .worec w => w
  | .worsz w => w
  | .wowf w => w
  | .wowsz w => w
  | .bkexp w => w
  | .benc => 0
  | .bdec => 0

/-- The W parameter fits its 8 bits (30_encoding R121, R123). -/
abbrev Instr.WellFormed (i : Instr) : Prop := i.wField < 256

end Sys2Proof
end

