-- ==== Sys2Proof/Decode.lean ====
section
/-! DEFINITION. Command words to commands and back (30_encoding R121 to R128). Every word is decoded: a legal one to its
command, an illegal one to the name of what is wrong with it. -/

namespace Sys2Proof

/-- Why a CMD word is not legal (30_encoding R127). Each completes with ERR = ILLEGAL (60_exceptions R501). -/
inductive Illegal where
  /-- OP is not one of the 39 values of the opcode map (R128). -/
  | unassignedOpcode
  /-- R0 or R1 is not 0. -/
  | reservedBits
  /-- W is not 0 and the command has no W parameter. -/
  | unexpectedW
deriving DecidableEq, Repr

/-- OP, bits [5:0] (30_encoding R121). -/
def cmdOp (c : Reg32) : Nat := c.toNat % 2 ^ 6

/-- R0, bits [7:6], reserved (30_encoding R121). -/
def cmdR0 (c : Reg32) : Nat := c.toNat / 2 ^ 6 % 2 ^ 2

/-- W, bits [15:8] (30_encoding R121, R123). -/
def cmdW (c : Reg32) : Nat := c.toNat / 2 ^ 8 % 2 ^ 8

/-- R1, bits [31:16], reserved (30_encoding R121). -/
def cmdR1 (c : Reg32) : Nat := c.toNat / 2 ^ 16

/-- A command without a W parameter: W must be 0 (30_encoding R127). -/
def withoutW (w : Nat) (i : Instr) : Except Illegal Instr :=
  if w = 0 then .ok i else .error .unexpectedW

/-- The opcode map (30_encoding R126), given OP and W; the unassigned opcodes of R128 are refused. -/
def fromOpcode (op w : Nat) : Except Illegal Instr :=
  match op with
  | 0x01 => withoutW w .wcopy
  | 0x02 => withoutW w .wswap
  | 0x03 => withoutW w .weq
  | 0x04 => withoutW w .weqf
  | 0x05 => withoutW w .wcmp
  | 0x06 => withoutW w .wcmpf
  | 0x07 => withoutW w .wcmpl
  | 0x08 => withoutW w .wcmpw
  | 0x09 => withoutW w .wisz
  | 0x0A => withoutW w .wiszf
  | 0x0B => withoutW w .wisw
  | 0x0C => withoutW w .wisrep
  | 0x0D => withoutW w .wxor
  | 0x0E => withoutW w .wxora
  | 0x0F => withoutW w .wzero
  | 0x10 => withoutW w .wsetw
  | 0x11 => withoutW w .wfill
  | 0x12 => withoutW w .wswl
  | 0x13 => withoutW w .wsbyl
  | 0x14 => withoutW w .wsbl
  | 0x15 => withoutW w .wtbit
  | 0x16 => .ok (.wgbits w)
  | 0x17 => withoutW w .wsbit
  | 0x18 => .ok (.wsbits w)
  | 0x19 => withoutW w .wfbit
  | 0x1A => withoutW w .wlzc
  | 0x1B => withoutW w .whzc
  | 0x1C => withoutW w .wshlc
  | 0x1D => withoutW w .wshhc
  | 0x1E => withoutW w .wtrl
  | 0x1F => withoutW w .wtrh
  | 0x20 => .ok (.wnaf w)
  | 0x21 => .ok (.worec w)
  | 0x22 => .ok (.worsz w)
  | 0x23 => .ok (.wowf w)
  | 0x24 => .ok (.wowsz w)
  | 0x30 => .ok (.bkexp w)
  | 0x31 => withoutW w .benc
  | 0x32 => withoutW w .bdec
  | _ => .error .unassignedOpcode

/-- Decode a CMD word (30_encoding R122, R127): nothing but the word is needed. -/
def decode (c : Reg32) : Except Illegal Instr :=
  if cmdR0 c = 0 ∧ cmdR1 c = 0 then fromOpcode (cmdOp c) (cmdW c) else .error .reservedBits

/-- A CMD word is legal (30_encoding R127). -/
def legal (c : Reg32) : Bool :=
  match decode c with
  | .ok _ => true
  | .error _ => false

/-- OP of each command (30_encoding R126). -/
def Instr.opcode : Instr → Nat
  | .wcopy => 0x01
  | .wswap => 0x02
  | .weq => 0x03
  | .weqf => 0x04
  | .wcmp => 0x05
  | .wcmpf => 0x06
  | .wcmpl => 0x07
  | .wcmpw => 0x08
  | .wisz => 0x09
  | .wiszf => 0x0A
  | .wisw => 0x0B
  | .wisrep => 0x0C
  | .wxor => 0x0D
  | .wxora => 0x0E
  | .wzero => 0x0F
  | .wsetw => 0x10
  | .wfill => 0x11
  | .wswl => 0x12
  | .wsbyl => 0x13
  | .wsbl => 0x14
  | .wtbit => 0x15
  | .wgbits _ => 0x16
  | .wsbit => 0x17
  | .wsbits _ => 0x18
  | .wfbit => 0x19
  | .wlzc => 0x1A
  | .whzc => 0x1B
  | .wshlc => 0x1C
  | .wshhc => 0x1D
  | .wtrl => 0x1E
  | .wtrh => 0x1F
  | .wnaf _ => 0x20
  | .worec _ => 0x21
  | .worsz _ => 0x22
  | .wowf _ => 0x23
  | .wowsz _ => 0x24
  | .bkexp _ => 0x30
  | .benc => 0x31
  | .bdec => 0x32

/-- The CMD word of a command: `(W << 8) | OP`, the reserved fields 0 (30_encoding R121, R129). -/
def encode (i : Instr) : Reg32 := BitVec.ofNat 32 (i.wField * 2 ^ 8 + i.opcode)

/-- The command the decoder reads from a table row's word: the `nbits` lowest bits of `w`, every higher bit 0. A command
is one 32-bit word (30_encoding R122) and a CMD write keeps bits [31:0] (10_state R41). -/
def decodeTableWord (nbits w : Nat) : Option Instr :=
  (decode (BitVec.ofNat 32 (w % 2 ^ nbits))).toOption

end Sys2Proof
end

