-- ==== Sys2Proof/Machine/Reset.lean ====
section
/-! DEFINITION. The soft reset, idle and while a command is pending (10_state R57, 70_reset R552, R553), and the
power-on reset of a running machine (R550, R551). -/

namespace Sys2Proof.Machine

/-- The regions (base, length) of OPMEM that a command's rule writes, from the latch snapshot (30_encoding R126,
70_reset R553). -/
def writtenRegions (i : Instr) (s : State) : List (Nat × Nat) :=
  match i with
  | .wcopy => [(s.baseD, s.lenN)]
  | .wswap => [(s.baseA, s.lenN), (s.baseB, s.lenN)]
  | .weq => []
  | .weqf => []
  | .wcmp => []
  | .wcmpf => []
  | .wcmpl => []
  | .wcmpw => []
  | .wisz => []
  | .wiszf => []
  | .wisw => []
  | .wisrep => []
  | .wxor => [(s.baseD, s.lenN)]
  | .wxora => [(s.baseD, s.lenN)]
  | .wzero => [(s.baseD, s.lenN)]
  | .wsetw => [(s.baseD, s.lenN)]
  | .wfill => [(s.baseD, s.lenN)]
  | .wswl => []
  | .wsbyl => []
  | .wsbl => []
  | .wtbit => []
  | .wgbits _ => []
  | .wsbit => [(s.baseA, s.lenN)]
  | .wsbits _ => [(s.baseA, s.lenN)]
  | .wfbit => [(s.baseA, s.lenN)]
  | .wlzc => []
  | .whzc => []
  | .wshlc => [(s.baseA, s.lenN)]
  | .wshhc => [(s.baseA, s.lenN)]
  | .wtrl => [(s.baseA, s.lenN)]
  | .wtrh => [(s.baseA, s.lenN)]
  | .wnaf _ => [(s.baseD, 2 * s.lenN + 1)]
  | .worec w => [(s.baseD, orecWords s.cfg.bits s.lenN w)]
  | .worsz _ => []
  | .wowf w => [(s.baseD, owfWords s.cfg.bits s.lenN w)]
  | .wowsz _ => []
  | .bkexp _ => []
  | .benc => []
  | .bdec => []

/-- The regions of the pending command; an illegal word has no rule and writes none (70_reset R553). Log 10. -/
def abandonedRegions (s : State) : List (Nat × Nat) :=
  match decode s.latch.cmd with
  | .ok i => writtenRegions i s
  | .error _ => []

/-- OPMEM after a soft reset: unchanged, but for the words of an abandoned command (10_state R57, 70_reset R553). -/
def opmemAfterSoftReset (s : State) : Memory :=
  if s.status.busy then
    (abandonedRegions s).foldl (fun m r => memUnwrite s.cfg m r.1 r.2) s.opmem
  else s.opmem

/-- The power-on column of 10_state R57 on a machine that has a history: the build, the script and the port's read data
are not the core's, and stay. -/
def State.toPowerOn (s : State) : State :=
  { State.powerOn s.cfg with
    script := s.script
    busRead := s.busRead
    freeReads := s.freeReads
    resetHeld := s.resetHeld }

/-- The soft reset (70_reset R552): the power-on column, except that OPMEM is kept. DONE is not set. -/
def State.softReset (s : State) : State := { s.toPowerOn with opmem := opmemAfterSoftReset s }

/-- The platform applies the power-on reset and holds it (70_reset R550, R551). Log 12. -/
def State.applyPowerOn (s : State) : State := { s.toPowerOn with resetHeld := true }

/-- The platform releases the power-on reset (70_reset R551). Log 12. -/
def State.releaseReset (s : State) : State := { s with resetHeld := false }

end Sys2Proof.Machine
end

