-- ==== Sys2Proof/Machine/HostPort.lean ====
section
/-! DEFINITION. The host port (10_state R54 to R56): the slots of the register window, what a read of each answers and
what a write of each does, with the duties of the busy window (60_exceptions R511). -/

namespace Sys2Proof.Machine

/-- The argument registers by name. -/
inductive ArgReg where
  | ra | rb | rd | rn | rm | rp | rv
deriving DecidableEq, Repr

/-- The slots of the register map (10_state R54). -/
inductive Slot where
  | id
  | cfg
  | ctrl
  | status
  | cmd
  | arg (r : ArgReg)
  | res
  | res2
  | resw
  | key (j : Fin 8)
  | blk (j : Fin 4)
  /-- OPMEM[i], with i below OPMEM_WORDS where it comes from an offset. -/
  | opmem (i : Nat)
  | reserved
deriving DecidableEq, Repr

/-- The slot number of an offset: bits [27:3], bits [2:0] ignored (10_state R56). -/
def slotNumber (offset : BitVec 28) : Nat := offset.toNat / 8

/-- The slot at a slot number, in a build (10_state R54). -/
def slotAt (cfg : Config) (k : Nat) : Slot :=
  if k = 0x000 / 8 then .id
  else if k = 0x008 / 8 then .cfg
  else if k = 0x010 / 8 then .ctrl
  else if k = 0x018 / 8 then .status
  else if k = 0x020 / 8 then .cmd
  else if k = 0x028 / 8 then .arg .ra
  else if k = 0x030 / 8 then .arg .rb
  else if k = 0x038 / 8 then .arg .rd
  else if k = 0x040 / 8 then .arg .rn
  else if k = 0x048 / 8 then .arg .rm
  else if k = 0x050 / 8 then .arg .rp
  else if k = 0x058 / 8 then .arg .rv
  else if k = 0x060 / 8 then .res
  else if k = 0x068 / 8 then .res2
  else if k = 0x070 / 8 then .resw
  else if 0x080 / 8 ≤ k ∧ k < 0x0C0 / 8 then .key (Fin.ofNat 8 (k - 0x080 / 8))
  else if 0x0C0 / 8 ≤ k ∧ k < 0x0E0 / 8 then .blk (Fin.ofNat 4 (k - 0x0C0 / 8))
  else if opmemBase / 8 ≤ k ∧ k < opmemBase / 8 + cfg.opmemWords then .opmem (k - opmemBase / 8)
  else .reserved

/-- The slot an offset reaches (10_state R54, R56). -/
def slotOf (cfg : Config) (offset : BitVec 28) : Slot := slotAt cfg (slotNumber offset)

/-- Read an argument register. -/
def Args.get (a : Args) : ArgReg → Word
  | .ra => a.ra.setWidth 64
  | .rb => a.rb.setWidth 64
  | .rd => a.rd.setWidth 64
  | .rn => a.rn.setWidth 64
  | .rm => a.rm.setWidth 64
  | .rp => a.rp.setWidth 64
  | .rv => a.rv

/-- Write an argument register, keeping the bits of its width (10_state R34 to R37, R54). -/
def Args.set (cfg : Config) (a : Args) (r : ArgReg) (v : Word) : Args :=
  match r with
  | .ra => { a with ra := v.setWidth 32 }
  | .rb => { a with rb := v.setWidth 32 }
  | .rd => { a with rd := v.setWidth 32 }
  | .rn => { a with rn := v.setWidth 32 }
  | .rm => { a with rm := v.setWidth 32 }
  | .rp => { a with rp := v.setWidth 32 }
  | .rv => { a with rv := BitVec.ofNat 64 (v.toNat % 2 ^ cfg.bits) }

/-- What a host read of a slot answers when its value is defined: the register or word zero-extended (10_state R54),
0 for a reserved slot (R55), and none for an unwritten OPMEM word (20_memory R83). -/
def State.readSlot (s : State) : Slot → Option Word
  | .id => some (idWord s.cfg)
  | .cfg => some (cfgWord s.cfg)
  | .ctrl => some (ctrlWord s.ie)
  | .status => some (statusWord s.status)
  | .cmd => some (s.cmd.setWidth 64)
  | .arg r => some (s.args.get r)
  | .res => some (s.res.setWidth 64)
  | .res2 => some (s.res2.setWidth 64)
  | .resw => some s.resw
  | .key j => some (s.key[j].setWidth 64)
  | .blk j => some (s.blk[j].setWidth 64)
  | .opmem i => (s.word i).map (BitVec.ofNat 64)
  | .reserved => some 0

/-- The slots whose reads are unspecified while BUSY = 1: result registers, KEY, BLK and OPMEM (60_exceptions R511
item 3). -/
def Slot.unspecifiedWhileBusy : Slot → Bool
  | .id => false
  | .cfg => false
  | .ctrl => false
  | .status => false
  | .cmd => false
  | .arg _ => false
  | .res => true
  | .res2 => true
  | .resw => true
  | .key _ => true
  | .blk _ => true
  | .opmem _ => true
  | .reserved => false

/-- The width of a slot (10_state R54). -/
def Slot.width (cfg : Config) : Slot → Nat
  | .id => 64
  | .cfg => 64
  | .ctrl => 32
  | .status => 32
  | .cmd => 32
  | .arg .rv => cfg.bits
  | .arg _ => 32
  | .res => 32
  | .res2 => 32
  | .resw => cfg.bits
  | .key _ => 32
  | .blk _ => 32
  | .opmem _ => cfg.bits
  | .reserved => 64

/-- The free value of a read in the busy window: any value of the register's width, zero-extended (60_exceptions R511
item 3, 10_state R54). Log 8. -/
def busyRead (cfg : Config) (sl : Slot) (n : Nat) : Word :=
  BitVec.ofNat 64 ((Config.busyReadValue n).toNat % 2 ^ sl.width cfg)

/-- A host read (10_state R54, 20_memory R82, R83, R89): it changes nothing of the core. While BUSY = 1 the reads of
R511 item 3 are free and never FAULT. -/
def hostRead (s : State) (offset : BitVec 28) : StepResult :=
  let sl := slotOf s.cfg offset
  if s.status.busy && sl.unspecifiedWhileBusy then
    .next { s with busRead := some (busyRead s.cfg sl s.freeReads), freeReads := s.freeReads + 1 }
  else
    match s.readSlot sl with
    | some v => .next { s with busRead := some v }
    | none => .fault .unwrittenWord

/-- A CMD write while BUSY = 0: CMD is stored, the latch is filled with CMD and the argument registers, BUSY is set and
DONE cleared (30_encoding R120). ERR keeps the code of the last completed command (10_state R42). -/
def State.issue (s : State) (c : Reg32) : State :=
  { s with
    cmd := c
    latch := { cmd := c, args := s.args }
    status := { s.status with busy := true, done := false } }

/-- A STATUS write: bit 1 clears DONE, nothing else changes (10_state R43). -/
def State.writeStatus (s : State) (v : Word) : State :=
  if v.getLsbD 1 then { s with status := { s.status with done := false } } else s

/-- A CTRL write: bit 1 performs the soft reset, which also clears IE; otherwise IE gets bit 0 (10_state R44). -/
def State.writeCtrl (s : State) (v : Word) : State :=
  if v.getLsbD 1 then s.softReset else { s with ie := v.getLsbD 0 }

/-- A write of a slot while BUSY = 0 (10_state R34 to R56): the read-only and reserved slots ignore it. -/
def State.writeSlot (s : State) (sl : Slot) (v : Word) : State :=
  match sl with
  | .id => s
  | .cfg => s
  | .ctrl => s.writeCtrl v
  | .status => s.writeStatus v
  | .cmd => s.issue (v.setWidth 32)
  | .arg r => { s with args := s.args.set s.cfg r v }
  | .res => s
  | .res2 => s
  | .resw => s
  | .key j => { s with key := s.key.set j (v.setWidth 32) }
  | .blk j => { s with blk := s.blk.set j (v.setWidth 32) }
  | .opmem i => { s with opmem := storeWord s.cfg s.opmem i v.toNat }
  | .reserved => s

/-- The host duty a write of a slot breaks while BUSY = 1: only CTRL and STATUS may be written (60_exceptions R511).
Log 9. -/
def busyDuty : Slot → Option Fault
  | .ctrl => none
  | .status => none
  | .cmd => some .commandWhileBusy
  | .id => some .writeWhileBusy
  | .cfg => some .writeWhileBusy
  | .arg _ => some .writeWhileBusy
  | .res => some .writeWhileBusy
  | .res2 => some .writeWhileBusy
  | .resw => some .writeWhileBusy
  | .key _ => some .writeWhileBusy
  | .blk _ => some .writeWhileBusy
  | .opmem _ => some .writeWhileBusy
  | .reserved => some .writeWhileBusy

/-- A host write (10_state R54, 60_exceptions R511). -/
def hostWrite (s : State) (offset : BitVec 28) (v : Word) : StepResult :=
  let sl := slotOf s.cfg offset
  match (if s.status.busy then busyDuty sl else none) with
  | some f => .fault f
  | none => .next (s.writeSlot sl v)

/-- A host access; none may be made before the platform releases the power-on reset (70_reset R551). -/
def hostAccess (s : State) (a : HostAccess) : StepResult :=
  if s.resetHeld then .fault .accessInReset
  else
    match a with
    | .read offset => hostRead s offset
    | .write offset v => hostWrite s offset v

end Sys2Proof.Machine
end

