-- ==== Sys2Proof/Machine/Engine.lean ====
section
/-! DEFINITION. The core's transition (60_exceptions R500) and the interleaving of host, core and platform
(20_memory R92). -/

namespace Sys2Proof.Machine

/-- `execute(latch)` (60_exceptions R500): an illegal word completes with ILLEGAL (30_encoding R127), a legal one is
run. -/
def executeLatched (s : State) : StepResult :=
  match decode s.latch.cmd with
  | .ok i => exec i s
  | .error _ => .next (s.finish .illegal)

/-- The core moves: with the latch full it executes the latched command; with BUSY = 0 it is idle and keeps all its
state (60_exceptions R500, R524). -/
def coreTurn (s : State) : StepResult := if s.status.busy then executeLatched s else .next s

/-- One item of the interleaving (20_memory R92). -/
def takeTurn (s : State) : Turn → StepResult
  | .host a => hostAccess s a
  | .core => coreTurn s
  | .powerOn => .next s.applyPowerOn
  | .release => .next s.releaseReset

/-- The next item of the script; with none left the core moves, so that a latched command completes after finitely many
host accesses (60_exceptions R500). Log 3, log 18. -/
def nextTurn (s : State) : StepResult :=
  match s.script with
  | [] => coreTurn s
  | t :: rest => takeTurn { s with script := rest } t

end Sys2Proof.Machine
end

