-- ==== Sys2Proof/Machine/Step.lean ====
section
/-! DEFINITION. The step of the machine, and the state in which a given command is the next thing run. -/

namespace Sys2Proof.Machine

/-- One step: the next item of the interleaving of host accesses, core transitions and platform resets
(20_memory R92). -/
def step (s : State) : Host.Outcome State Fault Refusal := nextTurn s

/-- The state in which the next step executes the command word that is the `nbits` lowest bits of `w`. The core fetches
nothing (10_state R31): the word is issued as a host's CMD write issues it (30_encoding R120), with the argument
registers as they stand, and the core moves next. Log 4. -/
def State.withFetchWord (s : State) (nbits w : Nat) : State :=
  { s.issue (BitVec.ofNat 32 (w % 2 ^ nbits)) with script := .core :: s.script }

end Sys2Proof.Machine
end

