-- ==== Sys2Proof/Safety.lean ====
section
/-! DEFINITION. The terms the claims are written in: regions and limbs (00_scope R15 to R17), what a completed command
leaves (60_exceptions R500, R502), the checks and the results of each command as tables read off the rules, the
invariant of the machine, and what a safe step is. They are written from spec/ beside the machine, not through it. -/

namespace Sys2Proof.Machine

/-! ## Regions and limbs -/

/-- The region [base, base+len) lies inside OPMEM (20_memory R91, 60_exceptions R504). -/
abbrev Fits (s : State) (base len : Nat) : Prop := base + len ≤ s.cfg.opmemWords

/-- Two regions overlap: they share a word address (00_scope R17). -/
def Overlap (b1 l1 b2 l2 : Nat) : Prop := ∃ i j, i < l1 ∧ j < l2 ∧ b1 + i = b2 + j

/-- The operand (base, n) is written and its limbs are `a 0`, …, `a (n-1)` (00_scope R16, 10_state R51). -/
abbrev HoldsLimbs (s : State) (base n : Nat) (a : Nat → Nat) : Prop := ∀ i < n, s.word (base + i) = some (a i)

/-- Some word of the region is unwritten (20_memory R83). -/
abbrev HasUnwritten (s : State) (base n : Nat) : Prop := ∃ i < n, s.word (base + i) = none

/-- The value of limbs, `sum_{i<n} a_i * 2^(B*i)` (00_scope R15). -/
def limbValue (bits n : Nat) (a : Nat → Nat) : Nat := ∑ i ∈ Finset.range n, a i * 2 ^ (bits * i)

/-- A byte of a region: one of the B/8 bytes of one of its words. -/
def RegionByte (cfg : Config) (base n x : Nat) : Prop :=
  ∃ i k, i < n ∧ k < cfg.width.bytes ∧ x = wordOffset (base + i) + k

/-- The memory `m` is that of `s` with the limbs `a` stored at (base, n), and every byte outside that region as it
was. -/
def Stores (s : State) (m : Memory) (base n : Nat) (a : Nat → Nat) : Prop :=
  (∀ i < n, loadWord s.cfg m (base + i) = some (a i)) ∧
    ∀ x, ¬RegionByte s.cfg base n x → m.read x = s.opmem.read x

/-- RV of the latch snapshot holds B bits (10_state R37). -/
abbrev RvFits (s : State) : Prop := s.valV < 2 ^ s.cfg.bits

/-! ## Completion -/

/-- `s` with STATUS and the latch as a completion with code `e` leaves them, and nothing else changed
(60_exceptions R500, R502). -/
def State.completed (s : State) (e : Err) : State :=
  { s with status := { busy := false, done := true, err := e }, latch := Latch.empty }

/-! ## The registers at the host port, read off the register map -/

/-- The code in bits 15:8 of STATUS (10_state R42, 60_exceptions R501). -/
def completionCode : Err → Nat
  | .ok => 0x00
  | .illegal => 0x01
  | .param => 0x02
  | .range => 0x03
  | .overlap => 0x04

/-- What a host read of each register returns: the offset of its slot in the register map (10_state R54) and its value,
zero-extended (R37 to R39, R41, R42, R44 to R48). The registers whose reads are unspecified while BUSY = 1 are those above
0x058 (60_exceptions R511 item 3). -/
def registerReads (s : State) : List (Nat × Word) :=
  [(0x000, 0x6265653200000100 + BitVec.ofNat 64 s.cfg.bits),
    (0x008, (BitVec.ofNat 32 s.cfg.opmemWords).setWidth 64),
    (0x010, if s.ie then 1 else 0),
    (0x018, BitVec.ofNat 64
      ((if s.status.busy then 1 else 0) + (if s.status.done then 2 else 0) + 0x100 * completionCode s.status.err)),
    (0x020, s.cmd.setWidth 64),
    (0x028, s.args.ra.setWidth 64),
    (0x030, s.args.rb.setWidth 64),
    (0x038, s.args.rd.setWidth 64),
    (0x040, s.args.rn.setWidth 64),
    (0x048, s.args.rm.setWidth 64),
    (0x050, s.args.rp.setWidth 64),
    (0x058, s.args.rv),
    (0x060, s.res.setWidth 64),
    (0x068, s.res2.setWidth 64),
    (0x070, s.resw)] ++
  List.ofFn (fun j : Fin 8 => (0x080 + 8 * j.val, s.key[j].setWidth 64)) ++
  List.ofFn (fun j : Fin 4 => (0x0C0 + 8 * j.val, s.blk[j].setWidth 64))

/-! ## The checks of each command, read off its rule -/

/-- The condition of the command's check_param (60_exceptions R506); true where its rule lists none. -/
def ParamOk (i : Instr) (s : State) : Prop :=
  match i with
  | .wsetw => ¬(s.lenN = 0 ∧ s.valV ≠ 0)
  | .wtbit => s.posP < s.lenN * s.cfg.bits
  | .wgbits wd => wd ≤ s.cfg.bits ∧ s.posP + wd ≤ s.lenN * s.cfg.bits
  | .wsbit => s.posP < s.lenN * s.cfg.bits
  | .wsbits wd => wd ≤ s.cfg.bits ∧ s.posP + wd ≤ s.lenN * s.cfg.bits
  | .wfbit => s.posP < s.lenN * s.cfg.bits
  | .wshlc => s.posP ≤ s.lenN * s.cfg.bits
  | .wshhc => s.posP ≤ s.lenN * s.cfg.bits
  | .wnaf w => 2 ≤ w ∧ w < s.cfg.bits
  | .worec w => (1 ≤ w ∧ w < s.cfg.bits) ∧ 1 ≤ s.lenN
  | .worsz w => 1 ≤ w ∧ w < s.cfg.bits
  | .wowf w => (1 ≤ w ∧ w < s.cfg.bits) ∧ 1 ≤ s.lenN
  | .wowsz w => 1 ≤ w ∧ w < s.cfg.bits
  | .bkexp octets => octets = 16 ∨ octets = 24 ∨ octets = 32
  | .wcopy | .wswap | .weq | .weqf | .wcmp | .wcmpf | .wcmpl | .wcmpw | .wisz | .wiszf | .wisw | .wisrep
  | .wxor | .wxora | .wzero | .wfill | .wswl | .wsbyl | .wsbl | .wlzc | .whzc | .wtrl | .wtrh | .benc
  | .bdec => True

/-- The number of words of WOREC's destination: `ceil_div(k*w, B)` with k the least count of w-bit digits that covers
n*B bits (42_wordarray_recoding R406). -/
def worecLength (s : State) (w : Nat) : Nat := ((s.lenN * s.cfg.bits + w - 1) / w * w + s.cfg.bits - 1) / s.cfg.bits

/-- The number of words of WOWF's destination: `ceil_div(k'*w, B)` with `k' = floor(n*B / w)`
(42_wordarray_recoding R408). -/
def wowfLength (s : State) (w : Nat) : Nat := (s.lenN * s.cfg.bits / w * w + s.cfg.bits - 1) / s.cfg.bits

/-- The regions a command's rule reads (30_encoding R126, 20_memory R84); an operand modified in place is read. -/
def readRegions (i : Instr) (s : State) : List (Nat × Nat) :=
  match i with
  | .wcopy => [(s.baseA, s.lenN)]
  | .wswap | .weq | .weqf | .wcmp | .wcmpf | .wxor => [(s.baseA, s.lenN), (s.baseB, s.lenN)]
  | .wcmpl => [(s.baseA, s.lenN), (s.baseB, s.lenM)]
  | .wxora => [(s.baseA, s.lenN), (s.baseD, s.lenN)]
  | .wcmpw | .wisz | .wiszf | .wisw | .wisrep | .wswl | .wsbyl | .wsbl | .wtbit | .wgbits _ | .wsbit | .wsbits _
  | .wfbit | .wlzc | .whzc | .wshlc | .wshhc | .wtrl | .wtrh | .wnaf _ | .worec _ | .wowf _ => [(s.baseA, s.lenN)]
  | .wzero | .wsetw | .wfill | .worsz _ | .wowsz _ | .bkexp _ | .benc | .bdec => []

/-- The regions a command's rule writes (30_encoding R126). -/
def storeRegions (i : Instr) (s : State) : List (Nat × Nat) :=
  match i with
  | .wswap => [(s.baseA, s.lenN), (s.baseB, s.lenN)]
  | .wcopy | .wxor | .wxora | .wzero | .wsetw | .wfill => [(s.baseD, s.lenN)]
  | .wsbit | .wsbits _ | .wfbit | .wshlc | .wshhc | .wtrl | .wtrh => [(s.baseA, s.lenN)]
  | .wnaf _ => [(s.baseD, 2 * s.lenN + 1)]
  | .worec w => [(s.baseD, worecLength s w)]
  | .wowf w => [(s.baseD, wowfLength s w)]
  | .weq | .weqf | .wcmp | .wcmpf | .wcmpl | .wcmpw | .wisz | .wiszf | .wisw | .wisrep | .wswl | .wsbyl | .wsbl
  | .wtbit | .wgbits _ | .wlzc | .whzc | .worsz _ | .wowsz _ | .bkexp _ | .benc | .bdec => []

/-- Every region the command reads or writes lies inside OPMEM: its check_range (60_exceptions R504). -/
def RangesOk (i : Instr) (s : State) : Prop := ∀ r ∈ readRegions i s ++ storeRegions i s, Fits s r.1 r.2

/-- The command's overlap checks (60_exceptions R505), as its rule lists them. -/
def OverlapsOk (i : Instr) (s : State) : Prop :=
  match i with
  | .wcopy | .wxora => s.baseA = s.baseD ∨ ¬Overlap s.baseA s.lenN s.baseD s.lenN
  | .wxor =>
    (s.baseA = s.baseD ∨ ¬Overlap s.baseA s.lenN s.baseD s.lenN) ∧
      (s.baseB = s.baseD ∨ ¬Overlap s.baseB s.lenN s.baseD s.lenN)
  | .wswap => ¬Overlap s.baseA s.lenN s.baseB s.lenN
  | .wnaf _ => ¬Overlap s.baseA s.lenN s.baseD (2 * s.lenN + 1)
  | .worec w => ¬Overlap s.baseA s.lenN s.baseD (worecLength s w)
  | .wowf w => ¬Overlap s.baseA s.lenN s.baseD (wowfLength s w)
  | .weq | .weqf | .wcmp | .wcmpf | .wcmpl | .wcmpw | .wisz | .wiszf | .wisw | .wisrep | .wzero | .wsetw | .wfill
  | .wswl | .wsbyl | .wsbl | .wtbit | .wgbits _ | .wsbit | .wsbits _ | .wfbit | .wlzc | .whzc | .wshlc | .wshhc
  | .wtrl | .wtrh | .worsz _ | .wowsz _ | .bkexp _ | .benc | .bdec => True

/-- Every check of the command passes (60_exceptions R503). -/
def ChecksPass (i : Instr) (s : State) : Prop := ParamOk i s ∧ RangesOk i s ∧ OverlapsOk i s

/-! ## The results of each command, read off the opcode map (30_encoding R126) -/

/-- The command's rule names RES. -/
def namesRes : Instr → Bool
  | .weq | .weqf | .wcmp | .wcmpf | .wcmpl | .wcmpw | .wisz | .wiszf | .wisw | .wisrep | .wswl | .wsbyl | .wsbl
  | .wtbit | .wlzc | .whzc | .wnaf _ | .worec _ | .worsz _ | .wowf _ | .wowsz _ => true
  | .wcopy | .wswap | .wxor | .wxora | .wzero | .wsetw | .wfill | .wgbits _ | .wsbit | .wsbits _ | .wfbit | .wshlc
  | .wshhc | .wtrl | .wtrh | .bkexp _ | .benc | .bdec => false

/-- The command's rule names RES2. -/
def namesRes2 : Instr → Bool
  | .wnaf _ => true
  | .weq | .weqf | .wcmp | .wcmpf | .wcmpl | .wcmpw | .wisz | .wiszf | .wisw | .wisrep | .wswl | .wsbyl | .wsbl
  | .wtbit | .wlzc | .whzc | .worec _ | .worsz _ | .wowf _ | .wowsz _
  | .wcopy | .wswap | .wxor | .wxora | .wzero | .wsetw | .wfill | .wgbits _ | .wsbit | .wsbits _ | .wfbit | .wshlc
  | .wshhc | .wtrl | .wtrh | .bkexp _ | .benc | .bdec => false

/-- The command's rule names RESW. -/
def namesResw : Instr → Bool
  | .wgbits _ | .wshlc | .wshhc => true
  | .weq | .weqf | .wcmp | .wcmpf | .wcmpl | .wcmpw | .wisz | .wiszf | .wisw | .wisrep | .wswl | .wsbyl | .wsbl
  | .wtbit | .wlzc | .whzc | .wnaf _ | .worec _ | .worsz _ | .wowf _ | .wowsz _
  | .wcopy | .wswap | .wxor | .wxora | .wzero | .wsetw | .wfill | .wsbit | .wsbits _ | .wfbit
  | .wtrl | .wtrh | .bkexp _ | .benc | .bdec => false

/-- `s` with other values in the three result registers. -/
def State.withResults (s : State) (r r2 : Reg32) (rw : Word) : State := { s with res := r, res2 := r2, resw := rw }

/-! ## Recodings and the cipher, as the spec tells a reader to check them -/

/-- The value of signed digits: `sum_i d[i] * 2^(w*i)` (42_wordarray_recoding R400); w = 1 for a NAF. -/
def digitValue (w : Nat) : List Int → Int
  | [] => 0
  | d :: rest => d + 2 ^ w * digitValue w rest

/-- The decoding procedure of 42_wordarray_recoding R404 item 6, from position p: `count` digits, most significant
first, and the position after them. -/
def nafDecode (w code : Nat) : Nat → Nat → List Int × Nat
  | 0, p => ([], p)
  | count + 1, p =>
    if code / 2 ^ p % 2 = 0 then
      let r := nafDecode w code count (p + 1)
      (0 :: r.1, r.2)
    else
      let v := code / 2 ^ p % 2 ^ w
      let r := nafDecode w code count (p + w)
      ((if v < 2 ^ (w - 1) then (v : Int) else (v : Int) - 2 ^ w) :: r.1, r.2)

/-- The decoding of 42_wordarray_recoding R410: `count` w-bit codes, least significant digit first. -/
def ocodeDecode (w code : Nat) : Nat → List Int
  | 0 => []
  | count + 1 =>
    let c := code % 2 ^ w
    let d : Int := 2 * ((c % 2 ^ (w - 1) : Nat) : Int) + 1
    (if c / 2 ^ (w - 1) % 2 = 1 then -d else d) :: ocodeDecode w (code / 2 ^ w) count

/-- Four physical registers as a function of their index (45_block_cipher R458). -/
def Quad.at (q : Quad) (j : Nat) : Reg32 :=
  match j with
  | 0 => q.p0
  | 1 => q.p1
  | 2 => q.p2
  | _ => q.p3

/-- Write physical register j. -/
def Quad.put (q : Quad) (j : Nat) (v : Reg32) : Quad :=
  match j with
  | 0 => { q with p0 := v }
  | 1 => { q with p1 := v }
  | 2 => { q with p2 := v }
  | _ => { q with p3 := v }

/-- One round of the pseudocode of 45_block_cipher R461 and R462: the roles are bound to the registers numbered by a
table row `e`, and the four results are written back to them. -/
def boundRound (cfg : Config) (i : Nat) (k : Nat → Reg32) (e : List Nat) (p : Quad) : Quad :=
  match e with
  | [e0, e1, e2, e3] =>
    let r := cipherRound cfg i k { p0 := p.at e0, p1 := p.at e1, p2 := p.at e2, p3 := p.at e3 }
    (((p.put e0 r.p0).put e1 r.p1).put e2 r.p2).put e3 r.p3
  | _ => p

/-- ENC_ROW, the table of 45_block_cipher R458. -/
def encRowTable : List (List Nat) := [[0, 1, 2, 3], [1, 3, 0, 2], [3, 2, 1, 0], [2, 0, 3, 1]]

/-- DEC_ROW, the table of 45_block_cipher R459. -/
def decRowTable : List (List Nat) := [[0, 1, 2, 3], [2, 0, 3, 1], [3, 2, 1, 0], [1, 3, 0, 2]]

/-- The loop of BENC's pseudocode, t in 1..8 (45_block_cipher R461). -/
def bencLoop (cfg : Config) (key : Vector Reg32 8) (p : Quad) : Quad :=
  (List.range 8).foldl (fun p t0 =>
    boundRound cfg (t0 + 1) (fun j => keyWord key (7 * (t0 + 1) - 7 + j)) (encRowTable.getD (t0 % 4) []) p) p

/-- The loop of BDEC's pseudocode, t in 1..8 with i = 9 - t (45_block_cipher R462). -/
def bdecLoop (cfg : Config) (key : Vector Reg32 8) (p : Quad) : Quad :=
  (List.range 8).foldl (fun p t0 =>
    boundRound cfg (8 - t0) (fun j => keyWord key (7 * (8 - t0) - 1 - j)) (decRowTable.getD (t0 % 4) []) p) p

/-- `S(x) = H[byte_0(x)] | H[byte_1(x)] << 8 | H[byte_2(x)] << 16 | H[byte_3(x)] << 24` (45_block_cipher R454). -/
def substituted (cfg : Config) (x : Reg32) : Reg32 :=
  (sbox cfg (byteOf 0 x)).setWidth 32 ||| (sbox cfg (byteOf 1 x)).setWidth 32 <<< 8 |||
    (sbox cfg (byteOf 2 x)).setWidth 32 <<< 16 ||| (sbox cfg (byteOf 3 x)).setWidth 32 <<< 24

/-! ## The invariant -/

/-- Every listed byte is a byte of an OPMEM word, and the words are wholly written or wholly unwritten
(10_state R51, R54). -/
def MemoryShape (cfg : Config) (m : Memory) : Prop :=
  m.wf ∧ (∀ x, (m.read x).isSome → RegionByte cfg 0 cfg.opmemWords x) ∧
    ∀ i k, k < cfg.width.bytes → (m.read (wordOffset i + k)).isSome → (loadWord cfg m i).isSome

/-- What holds of the machine after reset and after every step: OPMEM has its shape; the B-bit registers hold B bits
(10_state R37, R39); while BUSY = 0 the latch is empty, and while BUSY = 1 it holds CMD and the argument registers as
they stand, DONE is 0 and the power-on reset is not held (10_state R52, 30_encoding R120, 60_exceptions R511). -/
structure Invariant (s : State) : Prop where
  memory : MemoryShape s.cfg s.opmem
  rvFits : s.args.rv.toNat < 2 ^ s.cfg.bits
  reswFits : s.resw.toNat < 2 ^ s.cfg.bits
  idle : s.status.busy = false → s.latch = Latch.empty
  pending : s.status.busy = true →
    s.latch = { cmd := s.cmd, args := s.args } ∧ s.status.done = false ∧ s.resetHeld = false

/-- The core's turn with a command pending: the next step executes the latched command (60_exceptions R500). -/
abbrev CoreMoves (s : State) : Prop := s.status.busy = true ∧ (s.script = [] ∨ ∃ rest, s.script = .core :: rest)

/-- A safe step: it answers a next state, so no FAULT is set (10_state R53). -/
def Safe (s : State) : Prop := ∃ t, step s = .next t

end Sys2Proof.Machine
end

