-- ==== Sys2Proof/Certificates/Slice0/Obligations.lean ====
section
/-! DEFINITION. The statements for the provers. The regions, limbs, checks and tables they speak of are those of
Sys2Proof/Safety.lean. Slots are named by their offsets in the register map of 10_state R54: an access at offset o reaches
the slot at `o & ~7`, written here `o.toNat / 8 * 8`. -/

open Sys2Proof Sys2Proof.Machine

/-! ## Encoding -/

/-- Decoding the word of a command gives the command back, W included (30_encoding R121, R122, R126, R129). -/
def Obligations.DecodeOfEncodeIsTheCommand : Prop :=
  ∀ i : Instr, i.WellFormed → decode (encode i) = .ok i

/-- Each legal word has one command, whose word it is: no bit of a legal word is dropped (30_encoding R121, R122). -/
def Obligations.EncodeOfDecodeIsTheWord : Prop :=
  ∀ (c : Reg32) (i : Instr), decode c = .ok i → encode i = c ∧ i.WellFormed

/-- 30_encoding R127: the legal words; an illegal one, executed, completes with ILLEGAL and changes nothing else; a W
outside a command's range is that command's PARAM error. -/
def Obligations.LegalWordsAreThoseOfTheOpcodeMap : Prop :=
  (∀ c : Reg32, legal c = true ↔
    ((1 ≤ (c.extractLsb' 0 6).toNat ∧ (c.extractLsb' 0 6).toNat ≤ 0x24) ∨
        (0x30 ≤ (c.extractLsb' 0 6).toNat ∧ (c.extractLsb' 0 6).toNat ≤ 0x32)) ∧
      (c.extractLsb' 6 2 = 0 ∧ c.extractLsb' 16 16 = 0) ∧
      (c.extractLsb' 8 8 = 0 ∨
        (c.extractLsb' 0 6).toNat ∈ [0x16, 0x18, 0x20, 0x21, 0x22, 0x23, 0x24, 0x30])) ∧
  (∀ s : State, s.status.busy = true → legal s.latch.cmd = false → coreTurn s = .next (s.completed .illegal)) ∧
  ∀ (i : Instr) (s : State), i.WellFormed → ¬ParamOk i s →
    legal (encode i) = true ∧ exec i s = .next (s.completed .param)

/-- Words written out from 30_encoding R126 and R131, one or more a family, decode to what they stand for. -/
def Obligations.SampleWordsDecode : Prop :=
  decode 0b00000000000000000000000000001101 = .ok .wxor ∧
  decode 0b00000000000000000000000000000001 = .ok .wcopy ∧
  decode 0b00000000000000000000100000010110 = .ok (.wgbits 8) ∧
  decode 0b00000000000000000000000000011101 = .ok .wshhc ∧
  decode 0b00000000000000000000010000100000 = .ok (.wnaf 4) ∧
  decode 0b00000000000000000000010100100011 = .ok (.wowf 5) ∧
  decode 0b00000000000000000001000000110000 = .ok (.bkexp 16) ∧
  decode 0b00000000000000000000000000110010 = .ok .bdec ∧
  decode 0x00000000 = .error .unassignedOpcode ∧
  decode 0x0000004D = .error .reservedBits ∧
  decode 0x8000000D = .error .reservedBits ∧
  decode 0x0000010D = .error .unexpectedW

/-! ## The core's transition -/

/-- A step takes the next turn of the script. A host's turn is that access. A core's turn with the latch full runs the
command its word decodes to, and so does a step with no turn left; with BUSY = 0 the core's turn changes nothing
(20_memory R92, 60_exceptions R500, R524; the script is the model's own, log 3). -/
def Obligations.StepRunsTheNextTurn : Prop :=
  (∀ (s : State) (a : HostAccess) (rest : List Turn), s.script = .host a :: rest →
    step s = hostAccess { s with script := rest } a) ∧
  (∀ (s : State) (rest : List Turn), s.script = .core :: rest → step s = coreTurn { s with script := rest }) ∧
  (∀ s : State, s.script = [] → step s = coreTurn s) ∧
  (∀ (s : State) (i : Instr), s.status.busy = true → decode s.latch.cmd = .ok i → coreTurn s = exec i s) ∧
  ∀ s : State, s.status.busy = false → coreTurn s = .next s

/-- 60_exceptions R503 (with the range check of R504): legality first, then PARAM, then RANGE, then OVERLAP; a command
that fails a check never sets FAULT and changes nothing but STATUS. -/
def Obligations.FirstFailingCheckSetsErr : Prop :=
  (∀ s : State, s.status.busy = true → legal s.latch.cmd = false → coreTurn s = .next (s.completed .illegal)) ∧
  ∀ (i : Instr) (s : State),
    (¬ParamOk i s → exec i s = .next (s.completed .param)) ∧
    (ParamOk i s → ¬RangesOk i s → exec i s = .next (s.completed .range)) ∧
    (ParamOk i s → RangesOk i s → ¬OverlapsOk i s → exec i s = .next (s.completed .overlap))

/-- 20_memory R83 and R84: a host read of an unwritten OPMEM word, and a command that reads or modifies a region with an
unwritten word once its checks have passed, are FAULT; a host read of a written word returns it.
The turns are the script's, the model's own (log 3). -/
def Obligations.UnwrittenReadsFault : Prop :=
  (∀ (i : Instr) (s : State), ChecksPass i s → (∃ r ∈ readRegions i s, HasUnwritten s r.1 r.2) →
    exec i s = .fault .unwrittenWord) ∧
  ∀ (s : State) (rest : List Turn) (o : BitVec 28) (i : Nat), s.script = .host (.read o) :: rest →
    s.resetHeld = false → s.status.busy = false → i < s.cfg.opmemWords → o.toNat / 8 * 8 = 0x8000000 + 8 * i →
    (s.word i = none → step s = .fault .unwrittenWord) ∧
    ∀ v, s.word i = some v →
      step s = .next { s with script := rest, busRead := some (BitVec.ofNat 64 v) }

/-- 60_exceptions R510, the unchecked preconditions: WOREC of an even A, and WOWF of an even A or of one that k' digits
cannot hold, are FAULT once the checks have passed and the operand is written. -/
def Obligations.UndefinedRecodingInputsFault : Prop :=
  (∀ (s : State) (w : Nat) (a : Nat → Nat), ChecksPass (.worec w) s → HoldsLimbs s s.baseA s.lenN a →
    limbValue s.cfg.bits s.lenN a % 2 = 0 → exec (.worec w) s = .fault .evenInput) ∧
  ∀ (s : State) (w : Nat) (a : Nat → Nat), ChecksPass (.wowf w) s → HoldsLimbs s s.baseA s.lenN a →
    (limbValue s.cfg.bits s.lenN a % 2 = 0 ∨
      2 ^ (s.lenN * s.cfg.bits / w * w) ≤ limbValue s.cfg.bits s.lenN a) →
    exec (.wowf w) s = .fault .owfPrecondition

/-- 60_exceptions R502: a command that completes with ERR other than OK changes only STATUS (BUSY, DONE, ERR; the latch
is empty with BUSY = 0), and reads no OPMEM word: with any other OPMEM it ends in the same way. -/
def Obligations.ErrorsArePrecise : Prop :=
  ∀ s t : State, s.status.busy = true → coreTurn s = .next t → t.status.err ≠ .ok →
    t = s.completed t.status.err ∧
    ∀ m : Memory, coreTurn { s with opmem := m } = .next (State.completed { s with opmem := m } t.status.err)

/-- What a completed command leaves alone, for every command at once: the argument and control registers, the build, the
result registers its rule does not name, KEY but for BKEXP, BLK but for BENC and BDEC, and every byte of OPMEM outside the
regions its rule writes; STATUS and the latch are those of a completion (30_encoding R126, 10_state R34 to R41, R47,
R48, R51; 60_exceptions R500). -/
def Obligations.CommandsChangeOnlyWhatTheirRuleNames : Prop :=
  ∀ (i : Instr) (s t : State), exec i s = .next t →
    (t.cfg = s.cfg ∧ t.args = s.args ∧ t.cmd = s.cmd ∧ t.ie = s.ie ∧ t.script = s.script ∧
      t.busRead = s.busRead ∧ t.freeReads = s.freeReads ∧ t.resetHeld = s.resetHeld) ∧
    (t.status.busy = false ∧ t.status.done = true ∧ t.status.err ≠ .illegal ∧ t.latch = Latch.empty) ∧
    (namesRes i = false → t.res = s.res) ∧ (namesRes2 i = false → t.res2 = s.res2) ∧
    (namesResw i = false → t.resw = s.resw) ∧
    ((∀ w, i ≠ .bkexp w) → t.key = s.key) ∧ (i ≠ .benc → i ≠ .bdec → t.blk = s.blk) ∧
    ∀ x, (∀ r ∈ storeRegions i s, ¬RegionByte s.cfg r.1 r.2 x) → t.opmem.read x = s.opmem.read x

/-- No command reads a result register as an input (10_state R33): with other values in RES, RES2 and RESW a command ends
in the same way, and a result register then holds the command's result if the command completes with OK and names it, and
its own old value if not (R40). -/
def Obligations.NoResultRegisterIsAnInput : Prop :=
  ∀ (i : Instr) (s : State) (r r2 : Reg32) (rw : Word),
    match exec i s with
    | .next t =>
      exec i (s.withResults r r2 rw) = .next (t.withResults
        (if namesRes i = true ∧ t.status.err = .ok then t.res else r)
        (if namesRes2 i = true ∧ t.status.err = .ok then t.res2 else r2)
        (if namesResw i = true ∧ t.status.err = .ok then t.resw else rw))
    | .fault f => exec i (s.withResults r r2 rw) = .fault f
    | .refused q => exec i (s.withResults r r2 rw) = .refused q

/-- Every command completes with OK when its checks pass and its operands are written, and, for WOREC and WOWF, A is odd
and fits (60_exceptions R500, R503, R510, R522; 20_memory R83): no command waits, traps or stops then. -/
def Obligations.CommandsWithGoodOperandsComplete : Prop :=
  ∀ (i : Instr) (s : State), ChecksPass i s → (∀ r ∈ readRegions i s, ¬HasUnwritten s r.1 r.2) →
    (∀ w a, i = .worec w ∨ i = .wowf w → HoldsLimbs s s.baseA s.lenN a → limbValue s.cfg.bits s.lenN a % 2 = 1) →
    (∀ w a, i = .wowf w → HoldsLimbs s s.baseA s.lenN a →
      limbValue s.cfg.bits s.lenN a < 2 ^ (s.lenN * s.cfg.bits / w * w)) →
    ∃ t, exec i s = .next t ∧ t.status = { busy := false, done := true, err := .ok }

/-- The only ways to a FAULT (10_state R53, 20_memory R83, R84, 60_exceptions R510, R511, 70_reset R551; a reserved slot
written while BUSY: log 9): each is a duty the host broke, or a pending command that reads an unwritten word or breaks the
precondition of WOREC or WOWF. No step is refused.
The turns are the script's, the model's own (log 3). -/
def Obligations.FaultsComeOnlyFromTheCasesOfTheSpec : Prop :=
  ∀ s : State, (∀ q, step s ≠ .refused q) ∧
    (step s = .fault .accessInReset → s.resetHeld = true ∧ ∃ a rest, s.script = .host a :: rest) ∧
    (step s = .fault .commandWhileBusy → s.status.busy = true ∧ ∃ o v rest,
      s.script = .host (.write o v) :: rest ∧ o.toNat / 8 * 8 = 0x020) ∧
    (step s = .fault .writeWhileBusy → s.status.busy = true ∧ ∃ o v rest,
      s.script = .host (.write o v) :: rest ∧ o.toNat / 8 * 8 ∉ [0x010, 0x018, 0x020]) ∧
    (step s = .fault .unwrittenWord →
      (s.status.busy = false ∧ ∃ o i rest, s.script = .host (.read o) :: rest ∧ i < s.cfg.opmemWords ∧
        o.toNat / 8 * 8 = 0x8000000 + 8 * i ∧ s.word i = none) ∨
      (CoreMoves s ∧ ∃ i, decode s.latch.cmd = .ok i ∧ ChecksPass i s ∧
        ∃ r ∈ readRegions i s, HasUnwritten s r.1 r.2)) ∧
    (step s = .fault .evenInput → CoreMoves s ∧ ∃ w a, decode s.latch.cmd = .ok (.worec w) ∧
      ChecksPass (.worec w) s ∧ HoldsLimbs s s.baseA s.lenN a ∧ limbValue s.cfg.bits s.lenN a % 2 = 0) ∧
    (step s = .fault .owfPrecondition → CoreMoves s ∧ ∃ w a, decode s.latch.cmd = .ok (.wowf w) ∧
      ChecksPass (.wowf w) s ∧ HoldsLimbs s s.baseA s.lenN a ∧
      (limbValue s.cfg.bits s.lenN a % 2 = 0 ∨
        2 ^ (s.lenN * s.cfg.bits / w * w) ≤ limbValue s.cfg.bits s.lenN a))

/-! ## The invariant -/

/-- Every step keeps the invariant: OPMEM keeps its canonical form and whole words, RV and RESW hold B bits, and the latch
is full exactly when BUSY = 1 and then holds CMD and the argument registers (10_state R37, R39, R51, R52; 30_encoding R120;
60_exceptions R511). -/
def Obligations.StepKeepsInvariant : Prop :=
  ∀ s t : State, Invariant s → step s = .next t → Invariant t

/-- The machine after power-on, in any build, has the invariant (10_state R57, 70_reset R550). -/
def Obligations.PowerOnHasInvariant : Prop :=
  (∀ cfg : Config, Invariant (State.powerOn cfg)) ∧ Invariant State.reset

/-! ## The host port -/

/-- 30_encoding R120: a CMD write with BUSY = 0 stores bits [31:0] in CMD, fills the latch with CMD and the argument
registers, sets BUSY and clears DONE, and the core's turn executes the latched command; with BUSY = 1 it breaks a host
duty and is FAULT. -/
def Obligations.CmdWriteIssuesTheCommand : Prop :=
  ∀ (s : State) (o : BitVec 28) (v : Word), s.resetHeld = false → o.toNat / 8 * 8 = 0x020 →
    (s.status.busy = true → hostAccess s (.write o v) = .fault .commandWhileBusy) ∧
    (s.status.busy = false → ∃ t,
      hostAccess s (.write o v) = .next t ∧
      t = { s with
            cmd := v.setWidth 32, latch := { cmd := v.setWidth 32, args := s.args },
            status := { busy := true, done := false, err := s.status.err } } ∧
      (∀ i, decode (v.setWidth 32) = .ok i → coreTurn t = exec i t) ∧
      ∀ e, decode (v.setWidth 32) = .error e → coreTurn t = .next (t.completed .illegal))

/-- 10_state R43: a STATUS write clears DONE if bit 1 of the value is 1, and changes nothing else, whether BUSY or not. -/
def Obligations.StatusWriteOnlyClearsDone : Prop :=
  ∀ (s : State) (o : BitVec 28) (v : Word), s.resetHeld = false → o.toNat / 8 * 8 = 0x018 →
    hostAccess s (.write o v) = .next { s with
      status := { s.status with done := s.status.done && !v.getLsbD 1 } }

/-- CTRL and STATUS at the port (10_state R42, R44): a CTRL write with bit 1 = 0 sets IE to bit 0 and changes nothing else;
one with bit 1 = 1 leaves IE = 0; CTRL reads IE in bit 0 and 0 above; STATUS reads BUSY in bit 0, DONE in bit 1, the code of
ERR in bits 15:8, and 0 elsewhere.
The turns are the script's, the model's own (log 3). -/
def Obligations.CtrlAndStatusFields : Prop :=
  (∀ (s : State) (rest : List Turn) (o : BitVec 28) (v : Word), s.script = .host (.write o v) :: rest →
    s.resetHeld = false → o.toNat / 8 * 8 = 0x010 →
    (v.getLsbD 1 = false → step s = .next { s with script := rest, ie := v.getLsbD 0 }) ∧
    (v.getLsbD 1 = true → ∃ t, step s = .next t ∧ t.ie = false)) ∧
  ∀ (s : State) (rest : List Turn) (o : BitVec 28), s.script = .host (.read o) :: rest → s.resetHeld = false →
    (o.toNat / 8 * 8 = 0x010 → ∃ x : Word, step s = .next { s with script := rest, busRead := some x } ∧
      ∀ j, x.getLsbD j = (decide (j = 0) && s.ie)) ∧
    (o.toNat / 8 * 8 = 0x018 → ∃ x : Word, step s = .next { s with script := rest, busRead := some x } ∧
      x.getLsbD 0 = s.status.busy ∧ x.getLsbD 1 = s.status.done ∧
      x.extractLsb' 8 8 = BitVec.ofNat 8 (match s.status.err with
        | .ok => 0 | .illegal => 1 | .param => 2 | .range => 3 | .overlap => 4) ∧
      x.extractLsb' 2 6 = 0 ∧ x.extractLsb' 16 48 = 0)

/-- A CTRL write with bit 1 = 1, at any time (70_reset R552, R553). Every register is as after power-on; OPMEM is kept,
except that with a command pending every word below OPMEM_WORDS of a region its rule writes becomes unwritten. Two clauses
are the model's choice and not the words of R552 or R553 (log 10, DEDUCED, unsafe): a pending word that is illegal leaves
OPMEM unchanged, and a pending WOREC or WOWF with w = 0 marks no word, its region having length 0. -/
def Obligations.SoftResetAbandonsThePendingCommand : Prop :=
  ∀ (s : State) (o : BitVec 28) (v : Word), s.resetHeld = false → o.toNat / 8 * 8 = 0x010 → v.getLsbD 1 = true →
    ∃ m : Memory,
      hostAccess s (.write o v) = .next
        { cfg := s.cfg, args := { ra := 0, rb := 0, rd := 0, rn := 0, rm := 0, rp := 0, rv := 0 }
          res := 0, res2 := 0, resw := 0, cmd := 0, status := { busy := false, done := false, err := .ok }
          ie := false, key := Vector.replicate 8 0, blk := Vector.replicate 4 0, latch := Latch.empty, opmem := m
          script := s.script, busRead := s.busRead, freeReads := s.freeReads, resetHeld := false } ∧
      (s.status.busy = false → m = s.opmem) ∧
      (∀ e, decode s.latch.cmd = .error e → m = s.opmem) ∧
      ∀ i, s.status.busy = true → decode s.latch.cmd = .ok i → ∀ k,
        (k < s.cfg.opmemWords → (∃ r ∈ storeRegions i s, r.1 ≤ k ∧ k < r.1 + r.2) → loadWord s.cfg m k = none) ∧
        ((∀ r ∈ storeRegions i s, ¬(r.1 ≤ k ∧ k < r.1 + r.2)) → loadWord s.cfg m k = s.word k)

/-- A host write of an argument register, a KEY or BLK register or an OPMEM word, made with BUSY = 0, is what a read of the
same slot returns next, cut to the slot's width and zero-extended; every other slot reads as before, and nothing but the
slot is changed (10_state R34 to R37, R47, R48, R54; 20_memory R82).
The turns are the script's, the model's own (log 3). -/
def Obligations.HostWriteReadsBack : Prop :=
  ∀ (s : State) (rest : List Turn) (o : BitVec 28) (v : Word),
    s.script = .host (.write o v) :: .host (.read o) :: rest → s.resetHeld = false → s.status.busy = false →
    ((0x028 ≤ o.toNat / 8 * 8 ∧ o.toNat / 8 * 8 ≤ 0x058) ∨ (0x080 ≤ o.toNat / 8 * 8 ∧ o.toNat / 8 * 8 ≤ 0x0D8) ∨
      (0x8000000 ≤ o.toNat / 8 * 8 ∧ o.toNat / 8 * 8 < 0x8000000 + 8 * s.cfg.opmemWords)) →
    ∃ t,
      step s = .next t ∧
      t = { s with
            script := .host (.read o) :: rest, args := t.args, key := t.key, blk := t.blk, opmem := t.opmem } ∧
      (∀ o' : BitVec 28, o'.toNat / 8 ≠ o.toNat / 8 →
        t.readSlot (slotOf s.cfg o') = s.readSlot (slotOf s.cfg o')) ∧
      step t = .next { t with
        script := rest
        busRead := some (
          if o.toNat / 8 * 8 = 0x058 ∨ 0x8000000 ≤ o.toNat / 8 * 8 then BitVec.ofNat 64 (v.toNat % 2 ^ s.cfg.bits)
          else BitVec.ofNat 64 (v.toNat % 2 ^ 32)) }

/-- The slots a host write does not change (10_state R38, R39, R45, R46, R55): with BUSY = 0 a write of ID, CFG, RES, RES2,
RESW or a reserved slot is ignored, and a reserved slot reads 0, BUSY or not.
The turns are the script's, the model's own (log 3). -/
def Obligations.ReadOnlyAndReservedSlotsIgnoreWrites : Prop :=
  (∀ (s : State) (rest : List Turn) (o : BitVec 28) (v : Word), s.script = .host (.write o v) :: rest →
    s.resetHeld = false → s.status.busy = false →
    (o.toNat / 8 * 8 ∈ [0x000, 0x008, 0x060, 0x068, 0x070, 0x078] ∨
      (0x0E0 ≤ o.toNat / 8 * 8 ∧ o.toNat / 8 * 8 < 0x8000000) ∨
      0x8000000 + 8 * s.cfg.opmemWords ≤ o.toNat / 8 * 8) →
    step s = .next { s with script := rest }) ∧
  ∀ (s : State) (rest : List Turn) (o : BitVec 28), s.script = .host (.read o) :: rest → s.resetHeld = false →
    (o.toNat / 8 * 8 = 0x078 ∨ (0x0E0 ≤ o.toNat / 8 * 8 ∧ o.toNat / 8 * 8 < 0x8000000) ∨
      0x8000000 + 8 * s.cfg.opmemWords ≤ o.toNat / 8 * 8) →
    step s = .next { s with script := rest, busRead := some 0 }

/-- 60_exceptions R511, while BUSY = 1: a CMD write is FAULT; a write of any slot but CMD, CTRL and STATUS is FAULT (a
reserved slot too: log 9); a read of a result register, KEY, BLK or OPMEM returns some value of the register's width and no
FAULT; a read of ID, CFG, CTRL, STATUS, CMD or an argument register, at the offsets 0x000 to 0x058, returns its value.
The turns are the script's, the model's own (log 3). -/
def Obligations.BusyWindowDuties : Prop :=
  ∀ (s : State) (rest : List Turn) (o : BitVec 28), s.resetHeld = false → s.status.busy = true →
    (∀ v : Word, s.script = .host (.write o v) :: rest →
      (o.toNat / 8 * 8 = 0x020 → step s = .fault .commandWhileBusy) ∧
      (o.toNat / 8 * 8 ∉ [0x010, 0x018, 0x020] → step s = .fault .writeWhileBusy)) ∧
    (s.script = .host (.read o) :: rest →
      ((0x060 ≤ o.toNat / 8 * 8 ∧ o.toNat / 8 * 8 ≤ 0x070) ∨ (0x080 ≤ o.toNat / 8 * 8 ∧ o.toNat / 8 * 8 ≤ 0x0D8) ∨
        (0x8000000 ≤ o.toNat / 8 * 8 ∧ o.toNat / 8 * 8 < 0x8000000 + 8 * s.cfg.opmemWords) →
        ∃ x : Word,
          step s = .next { s with script := rest, busRead := some x, freeReads := s.freeReads + 1 } ∧
          x.toNat < 2 ^ (if o.toNat / 8 * 8 = 0x070 ∨ 0x8000000 ≤ o.toNat / 8 * 8 then s.cfg.bits else 32)) ∧
      ∀ r ∈ registerReads s, r.1 ≤ 0x058 → o.toNat / 8 * 8 = r.1 →
        step s = .next { s with script := rest, busRead := some r.2 })

/-- A host read returns the register at its offset and has no side effect. With BUSY = 0 a read of any register's slot
returns that register, zero-extended, and so does one of ID, CFG, CTRL, STATUS, CMD or an argument register while BUSY = 1
(10_state R37 to R39, R41, R42, R44 to R48, R54; the offsets are written out in registerReads); whatever the slot and
whether BUSY or not, nothing of the core changes, and with BUSY = 0 a second read of the slot returns the same value
(20_memory R89).
The turns are the script's, the model's own (log 3). -/
def Obligations.HostReadsHaveNoSideEffect : Prop :=
  (∀ (s : State) (rest : List Turn) (o : BitVec 28), s.script = .host (.read o) :: rest → s.resetHeld = false →
    ∀ r ∈ registerReads s, (r.1 ≤ 0x058 ∨ s.status.busy = false) → o.toNat / 8 * 8 = r.1 →
      step s = .next { s with script := rest, busRead := some r.2 }) ∧
  ∀ (s t : State) (rest : List Turn) (o : BitVec 28), s.script = .host (.read o) :: rest → step s = .next t →
    (t = { s with script := rest, busRead := t.busRead, freeReads := t.freeReads }) ∧
    (s.status.busy = false → t.freeReads = s.freeReads ∧
      step { t with script := .host (.read o) :: rest } = .next t)

/-- 10_state R56: bits [2:0] of an offset are ignored: two offsets that differ only there are the same access. -/
def Obligations.OffsetLowBitsAreIgnored : Prop :=
  ∀ (s : State) (o o' : BitVec 28) (v : Word), o.extractLsb' 3 25 = o'.extractLsb' 3 25 →
    hostAccess s (.read o) = hostAccess s (.read o') ∧ hostAccess s (.write o v) = hostAccess s (.write o' v)

/-- What the host reads after power-on, in every build (10_state R45, R46, R57; 70_reset R550): ID, CFG, 0 in every other
register and reserved slot, FAULT at every OPMEM word, and IRQ = 0.
The turns are the script's, the model's own (log 3). -/
def Obligations.PowerOnReads : Prop :=
  ∀ (cfg : Config) (o : BitVec 28), cfg.wf →
    (State.powerOn cfg).irq = false ∧
    ((0x8000000 ≤ o.toNat / 8 * 8 ∧ o.toNat / 8 * 8 < 0x8000000 + 8 * cfg.opmemWords) →
      step { State.powerOn cfg with script := [.host (.read o)] } = .fault .unwrittenWord) ∧
    (¬(0x8000000 ≤ o.toNat / 8 * 8 ∧ o.toNat / 8 * 8 < 0x8000000 + 8 * cfg.opmemWords) →
      step { State.powerOn cfg with script := [.host (.read o)] } =
        .next { State.powerOn cfg with
          busRead := some (
            if o.toNat / 8 * 8 = 0x000 then 0x6265653200000100 + BitVec.ofNat 64 cfg.bits
            else if o.toNat / 8 * 8 = 0x008 then BitVec.ofNat 64 cfg.opmemWords
            else 0) })

/-- The platform's power-on reset (70_reset R550, R551; its two turns are the model's own, log 12): it puts every register
at its power-on value and every OPMEM word to unwritten, whatever the state; a host access while it is held is FAULT;
releasing it changes nothing else.
The turns are the script's, the model's own (log 3). -/
def Obligations.PlatformResetHoldsTheHostOff : Prop :=
  (∀ (s : State) (rest : List Turn), s.script = .powerOn :: rest →
    step s = .next { State.powerOn s.cfg with
      script := rest, busRead := s.busRead, freeReads := s.freeReads, resetHeld := true }) ∧
  (∀ (s : State) (a : HostAccess) (rest : List Turn), s.script = .host a :: rest → s.resetHeld = true →
    step s = .fault .accessInReset) ∧
  ∀ (s : State) (rest : List Turn), s.script = .release :: rest →
    step s = .next { s with script := rest, resetHeld := false }

/-- The interrupt level (60_exceptions R520) is DONE and IE: every completion, whether the core moves by its turn or with
the script empty, asserts IRQ exactly when IE = 1; writing IE = 1 asserts it at once exactly when DONE = 1; clearing DONE,
writing IE = 0, the soft reset (CTRL bit 1), the power-on reset (70_reset R550) and the next CMD write clear it.
The turns are the script's, the model's own (log 3). -/
def Obligations.IrqFollowsDoneAndEnable : Prop :=
  (∀ s : State, s.irq = (s.status.done && s.ie)) ∧
  (∀ s t : State, CoreMoves s → step s = .next t → t.irq = s.ie) ∧
  (∀ (s t : State) (rest : List Turn), s.script = .powerOn :: rest → step s = .next t → t.irq = false) ∧
  ∀ (s t : State) (rest : List Turn) (o : BitVec 28) (v : Word), s.script = .host (.write o v) :: rest →
    step s = .next t →
    (o.toNat / 8 * 8 = 0x010 → t.irq = (s.status.done && v.getLsbD 0 && !v.getLsbD 1)) ∧
    (o.toNat / 8 * 8 = 0x018 → v.getLsbD 1 = true → t.irq = false) ∧
    (o.toNat / 8 * 8 = 0x020 → t.irq = false)

/-! ## Move, compare, predicate, XOR, fill and length commands -/

/-- WCOPY (40_wordarray_basic R201). -/
def Obligations.WcopyCopiesTheRegion : Prop :=
  ∀ (s : State) (a : Nat → Nat), Fits s s.baseA s.lenN → Fits s s.baseD s.lenN →
    (s.baseA = s.baseD ∨ ¬Overlap s.baseA s.lenN s.baseD s.lenN) → HoldsLimbs s s.baseA s.lenN a →
    ∃ m, exec .wcopy s = .next { s.completed .ok with opmem := m } ∧ Stores s m s.baseD s.lenN a

/-- WSWAP (40_wordarray_basic R202). -/
def Obligations.WswapExchangesTheRegions : Prop :=
  ∀ (s : State) (a b : Nat → Nat), Fits s s.baseA s.lenN → Fits s s.baseB s.lenN →
    ¬Overlap s.baseA s.lenN s.baseB s.lenN → HoldsLimbs s s.baseA s.lenN a → HoldsLimbs s s.baseB s.lenN b →
    ∃ m, exec .wswap s = .next { s.completed .ok with opmem := m } ∧
      (∀ i < s.lenN, loadWord s.cfg m (s.baseA + i) = some (b i)) ∧
      (∀ i < s.lenN, loadWord s.cfg m (s.baseB + i) = some (a i)) ∧
      ∀ x, ¬RegionByte s.cfg s.baseA s.lenN x → ¬RegionByte s.cfg s.baseB s.lenN x → m.read x = s.opmem.read x

/-- WEQ and WEQF (40_wordarray_basic R203, R204): RES is 1 iff all n limbs match, and nothing else changes. -/
def Obligations.WeqTestsEveryLimb : Prop :=
  ∀ (i : Instr) (s : State) (a b : Nat → Nat), i = .weq ∨ i = .weqf → Fits s s.baseA s.lenN →
    Fits s s.baseB s.lenN → HoldsLimbs s s.baseA s.lenN a → HoldsLimbs s s.baseB s.lenN b →
    exec i s = .next { s.completed .ok with res := if ∀ j < s.lenN, a j = b j then 1 else 0 }

/-- WCMP and WCMPF (40_wordarray_basic R205, R206): the most significant differing limb decides. -/
def Obligations.WcmpComparesFromTheTopLimb : Prop :=
  ∀ (i : Instr) (s : State) (a b : Nat → Nat), i = .wcmp ∨ i = .wcmpf → Fits s s.baseA s.lenN →
    Fits s s.baseB s.lenN → HoldsLimbs s s.baseA s.lenN a → HoldsLimbs s s.baseB s.lenN b →
    ∃ r : Reg32, exec i s = .next { s.completed .ok with res := r } ∧
      (r = 0 ↔ ∀ j < s.lenN, a j = b j) ∧
      (r = 1 ↔ ∃ j < s.lenN, b j < a j ∧ ∀ k < s.lenN, j < k → a k = b k) ∧
      (r = 0xFFFFFFFF ↔ ∃ j < s.lenN, a j < b j ∧ ∀ k < s.lenN, j < k → a k = b k)

/-- WCMPL (40_wordarray_basic R207): the shorter operand counts as zero-extended. -/
def Obligations.WcmplComparesValues : Prop :=
  ∀ (s : State) (a b : Nat → Nat), Fits s s.baseA s.lenN → Fits s s.baseB s.lenM →
    HoldsLimbs s s.baseA s.lenN a → HoldsLimbs s s.baseB s.lenM b →
    exec .wcmpl s = .next { s.completed .ok with
      res :=
        if limbValue s.cfg.bits s.lenM b < limbValue s.cfg.bits s.lenN a then 1
        else if limbValue s.cfg.bits s.lenN a < limbValue s.cfg.bits s.lenM b then 0xFFFFFFFF else 0 }

/-- WCMPW and WISW (40_wordarray_basic R208, R211): the operand's value against the word RV; for n >= 1 it equals RV exactly
when limb 0 is RV and every other limb is 0. -/
def Obligations.WcmpwAndWiswCompareWithTheWord : Prop :=
  ∀ (s : State) (a : Nat → Nat), Fits s s.baseA s.lenN → HoldsLimbs s s.baseA s.lenN a → RvFits s →
    exec .wcmpw s = .next { s.completed .ok with
      res :=
        if s.valV < limbValue s.cfg.bits s.lenN a then 1
        else if limbValue s.cfg.bits s.lenN a < s.valV then 0xFFFFFFFF else 0 } ∧
    exec .wisw s = .next { s.completed .ok with
      res :=
        if (if s.lenN = 0 then s.valV = 0 else a 0 = s.valV ∧ ∀ j < s.lenN, 0 < j → a j = 0) then 1 else 0 }

/-- WISZ and WISZF (40_wordarray_basic R209, R210). -/
def Obligations.WiszTestsEveryLimbForZero : Prop :=
  ∀ (i : Instr) (s : State) (a : Nat → Nat), i = .wisz ∨ i = .wiszf → Fits s s.baseA s.lenN →
    HoldsLimbs s s.baseA s.lenN a →
    exec i s = .next { s.completed .ok with res := if ∀ j < s.lenN, a j = 0 then 1 else 0 }

/-- WISREP (40_wordarray_basic R212): the empty array repeats the value 0 only. -/
def Obligations.WisrepTestsEveryLimbForTheWord : Prop :=
  ∀ (s : State) (a : Nat → Nat), Fits s s.baseA s.lenN → HoldsLimbs s s.baseA s.lenN a →
    exec .wisrep s = .next { s.completed .ok with
      res := if (∀ j < s.lenN, a j = s.valV) ∧ (0 < s.lenN ∨ s.valV = 0) then 1 else 0 }

/-- WXOR (40_wordarray_basic R213): limb by limb; the sources may overlap each other. -/
def Obligations.WxorXorsLimbByLimb : Prop :=
  ∀ (s : State) (a b : Nat → Nat), Fits s s.baseA s.lenN → Fits s s.baseB s.lenN → Fits s s.baseD s.lenN →
    (s.baseA = s.baseD ∨ ¬Overlap s.baseA s.lenN s.baseD s.lenN) →
    (s.baseB = s.baseD ∨ ¬Overlap s.baseB s.lenN s.baseD s.lenN) →
    HoldsLimbs s s.baseA s.lenN a → HoldsLimbs s s.baseB s.lenN b →
    ∃ m, exec .wxor s = .next { s.completed .ok with opmem := m } ∧
      Stores s m s.baseD s.lenN (fun i => a i ^^^ b i)

/-- WXORA (40_wordarray_basic R214). -/
def Obligations.WxoraXorsIntoTheDestination : Prop :=
  ∀ (s : State) (a d : Nat → Nat), Fits s s.baseA s.lenN → Fits s s.baseD s.lenN →
    (s.baseA = s.baseD ∨ ¬Overlap s.baseA s.lenN s.baseD s.lenN) →
    HoldsLimbs s s.baseA s.lenN a → HoldsLimbs s s.baseD s.lenN d →
    ∃ m, exec .wxora s = .next { s.completed .ok with opmem := m } ∧
      Stores s m s.baseD s.lenN (fun i => d i ^^^ a i)

/-- WZERO, WSETW and WFILL (40_wordarray_basic R215, R216, R217): the region need not be written beforehand; n = 0 with a
nonzero word is WSETW's PARAM error. -/
def Obligations.WzeroWsetwWfillSetEveryLimb : Prop :=
  ∀ s : State, Fits s s.baseD s.lenN → RvFits s →
    (∃ m, exec .wzero s = .next { s.completed .ok with opmem := m } ∧ Stores s m s.baseD s.lenN (fun _ => 0)) ∧
    (∃ m, exec .wfill s = .next { s.completed .ok with opmem := m } ∧
      Stores s m s.baseD s.lenN (fun _ => s.valV)) ∧
    (¬(s.lenN = 0 ∧ s.valV ≠ 0) →
      ∃ m, exec .wsetw s = .next { s.completed .ok with opmem := m } ∧
        Stores s m s.baseD s.lenN (fun i => if i = 0 then s.valV else 0)) ∧
    (s.lenN = 0 ∧ s.valV ≠ 0 → exec .wsetw s = .next (s.completed .param))

/-- WSWL (40_wordarray_basic R218): index of the highest nonzero limb plus 1, or 0; it is `ceil_div(bitlen(A), B)`. -/
def Obligations.WswlIsTheSignificantWordLength : Prop :=
  ∀ (s : State) (a : Nat → Nat), Fits s s.baseA s.lenN → HoldsLimbs s s.baseA s.lenN a →
    ∃ k : Nat, exec .wswl s = .next { s.completed .ok with res := BitVec.ofNat 32 k } ∧
      k < 2 ^ 32 ∧ k ≤ s.lenN ∧ (∀ j < s.lenN, k ≤ j → a j = 0) ∧ (0 < k → a (k - 1) ≠ 0) ∧
      ∀ b : Nat, (limbValue s.cfg.bits s.lenN a < 2 ^ b ∧
          (0 < b → 2 ^ (b - 1) ≤ limbValue s.cfg.bits s.lenN a)) →
        k = (b + s.cfg.bits - 1) / s.cfg.bits

/-- WSBYL (40_wordarray_basic R219): index of the highest nonzero byte of the value plus 1, or 0. -/
def Obligations.WsbylIsTheSignificantByteLength : Prop :=
  ∀ (s : State) (a : Nat → Nat), s.cfg.wf → Fits s s.baseA s.lenN → HoldsLimbs s s.baseA s.lenN a →
    ∃ k : Nat, exec .wsbyl s = .next { s.completed .ok with res := BitVec.ofNat 32 k } ∧
      k < 2 ^ 32 ∧ limbValue s.cfg.bits s.lenN a < 256 ^ k ∧
      (0 < k → 256 ^ (k - 1) ≤ limbValue s.cfg.bits s.lenN a)

/-- 40_wordarray_basic R222 (and R220): WSBL's result m is 0 iff the value is 0, and for m > 0 the value lies in
`[2^(m-1), 2^m - 1]`. -/
def Obligations.WsblIsTheSignificantBitLength : Prop :=
  ∀ (s : State) (a : Nat → Nat), s.cfg.wf → Fits s s.baseA s.lenN → HoldsLimbs s s.baseA s.lenN a →
    ∃ m : Nat, exec .wsbl s = .next { s.completed .ok with res := BitVec.ofNat 32 m } ∧
      m < 2 ^ 32 ∧ (m = 0 ↔ limbValue s.cfg.bits s.lenN a = 0) ∧
      (0 < m → 2 ^ (m - 1) ≤ limbValue s.cfg.bits s.lenN a ∧ limbValue s.cfg.bits s.lenN a ≤ 2 ^ m - 1)

/-- 40_wordarray_basic R221: the fast and the safe commands agree in every state. -/
def Obligations.FastAndSafeVariantsAgree : Prop :=
  ∀ s : State, exec .weqf s = exec .weq s ∧ exec .wcmpf s = exec .wcmp s ∧ exec .wiszf s = exec .wisz s

/-! ## Bit access, zero counts, shifts and trims -/

/-- WTBIT (41_wordarray_bits R301): bit p of the operand is bit p mod B of limb p / B. -/
def Obligations.WtbitReadsTheBit : Prop :=
  ∀ (s : State) (a : Nat → Nat), s.posP < s.lenN * s.cfg.bits → Fits s s.baseA s.lenN →
    HoldsLimbs s s.baseA s.lenN a →
    exec .wtbit s = .next { s.completed .ok with
      res := if (a (s.posP / s.cfg.bits)).testBit (s.posP % s.cfg.bits) then 1 else 0 }

/-- WGBITS (41_wordarray_bits R302): bits [p, p+wd) in RESW, whose other bits are 0. -/
def Obligations.WgbitsReadsTheField : Prop :=
  ∀ (wd : Nat) (s : State) (a : Nat → Nat), wd ≤ s.cfg.bits → s.posP + wd ≤ s.lenN * s.cfg.bits →
    Fits s s.baseA s.lenN → HoldsLimbs s s.baseA s.lenN a →
    ∃ r : Word, exec (.wgbits wd) s = .next { s.completed .ok with resw := r } ∧
      ∀ j, r.getLsbD j = (decide (j < wd) && (limbValue s.cfg.bits s.lenN a).testBit (s.posP + j))

/-- WSBIT and WFBIT (41_wordarray_bits R303, R305): bit p becomes bit 0 of RV, or is flipped; every other bit and every byte
outside the operand stays. -/
def Obligations.WsbitAndWfbitChangeOneBit : Prop :=
  ∀ (s : State) (a : Nat → Nat), s.posP < s.lenN * s.cfg.bits → Fits s s.baseA s.lenN →
    HoldsLimbs s s.baseA s.lenN a →
    (∃ m a', exec .wsbit s = .next { s.completed .ok with opmem := m } ∧ Stores s m s.baseA s.lenN a' ∧
      ∀ j, (limbValue s.cfg.bits s.lenN a').testBit j =
        if j = s.posP then s.valV.testBit 0 else (limbValue s.cfg.bits s.lenN a).testBit j) ∧
    ∃ m a', exec .wfbit s = .next { s.completed .ok with opmem := m } ∧ Stores s m s.baseA s.lenN a' ∧
      ∀ j, (limbValue s.cfg.bits s.lenN a').testBit j =
        if j = s.posP then !(limbValue s.cfg.bits s.lenN a).testBit j
        else (limbValue s.cfg.bits s.lenN a).testBit j

/-- WSBITS (41_wordarray_bits R304): bits [p, p+wd) become the low wd bits of RV. -/
def Obligations.WsbitsWritesTheField : Prop :=
  ∀ (wd : Nat) (s : State) (a : Nat → Nat), wd ≤ s.cfg.bits → s.posP + wd ≤ s.lenN * s.cfg.bits →
    Fits s s.baseA s.lenN → HoldsLimbs s s.baseA s.lenN a →
    ∃ m a', exec (.wsbits wd) s = .next { s.completed .ok with opmem := m } ∧ Stores s m s.baseA s.lenN a' ∧
      ∀ j, (limbValue s.cfg.bits s.lenN a').testBit j =
        if s.posP ≤ j ∧ j < s.posP + wd then s.valV.testBit (j - s.posP)
        else (limbValue s.cfg.bits s.lenN a).testBit j

/-- WLZC and WHZC (41_wordarray_bits R306, R307). -/
def Obligations.WlzcAndWhzcCountTheZeroRuns : Prop :=
  ∀ (s : State) (a : Nat → Nat), s.cfg.wf → Fits s s.baseA s.lenN → HoldsLimbs s s.baseA s.lenN a →
    (∃ t : Nat, exec .wlzc s = .next { s.completed .ok with res := BitVec.ofNat 32 t } ∧ t < 2 ^ 32 ∧
      (limbValue s.cfg.bits s.lenN a = 0 → t = s.lenN * s.cfg.bits) ∧
      (limbValue s.cfg.bits s.lenN a ≠ 0 →
        2 ^ t ∣ limbValue s.cfg.bits s.lenN a ∧ ¬2 ^ (t + 1) ∣ limbValue s.cfg.bits s.lenN a)) ∧
    ∃ t : Nat, exec .whzc s = .next { s.completed .ok with res := BitVec.ofNat 32 t } ∧ t < 2 ^ 32 ∧
      (limbValue s.cfg.bits s.lenN a = 0 → t = s.lenN * s.cfg.bits) ∧
      (limbValue s.cfg.bits s.lenN a ≠ 0 → t < s.lenN * s.cfg.bits ∧
        2 ^ (s.lenN * s.cfg.bits - t - 1) ≤ limbValue s.cfg.bits s.lenN a ∧
        limbValue s.cfg.bits s.lenN a < 2 ^ (s.lenN * s.cfg.bits - t))

/-- WSHLC (41_wordarray_bits R308), bit by bit: bit j of the operand becomes bit j + s of the operand with the carry word
above it; RESW holds the B bits that end below bit s of that, zeros coming in below bit 0. -/
def Obligations.WshlcShiftsLowWithCarry : Prop :=
  ∀ (s : State) (a : Nat → Nat), s.posP ≤ s.lenN * s.cfg.bits → Fits s s.baseA s.lenN →
    HoldsLimbs s s.baseA s.lenN a →
    ∃ m a' r, exec .wshlc s = .next { s.completed .ok with opmem := m, resw := r } ∧
      Stores s m s.baseA s.lenN a' ∧
      (∀ j < s.lenN * s.cfg.bits, (limbValue s.cfg.bits s.lenN a').testBit j =
        if j + s.posP < s.lenN * s.cfg.bits then (limbValue s.cfg.bits s.lenN a).testBit (j + s.posP)
        else s.valV.testBit (j + s.posP - s.lenN * s.cfg.bits)) ∧
      ∀ j, r.getLsbD j =
        if s.cfg.bits ≤ j ∨ j + s.posP < s.cfg.bits then false
        else if j + s.posP - s.cfg.bits < s.lenN * s.cfg.bits then
          (limbValue s.cfg.bits s.lenN a).testBit (j + s.posP - s.cfg.bits)
        else s.valV.testBit (j + s.posP - s.cfg.bits - s.lenN * s.cfg.bits)

/-- WSHHC (41_wordarray_bits R309), bit by bit: bit j of the operand becomes bit j - s, of the carry word below bit 0 where
j < s and zero below that; RESW holds the B bits from bit L - s up. -/
def Obligations.WshhcShiftsHighWithCarry : Prop :=
  ∀ (s : State) (a : Nat → Nat), s.posP ≤ s.lenN * s.cfg.bits → Fits s s.baseA s.lenN → RvFits s →
    HoldsLimbs s s.baseA s.lenN a →
    ∃ m a' r, exec .wshhc s = .next { s.completed .ok with opmem := m, resw := r } ∧
      Stores s m s.baseA s.lenN a' ∧
      (∀ j < s.lenN * s.cfg.bits, (limbValue s.cfg.bits s.lenN a').testBit j =
        if s.posP ≤ j then (limbValue s.cfg.bits s.lenN a).testBit (j - s.posP)
        else if s.posP ≤ s.cfg.bits + j then s.valV.testBit (s.cfg.bits + j - s.posP) else false) ∧
      ∀ j, r.getLsbD j =
        (decide (j < s.cfg.bits) &&
          (limbValue s.cfg.bits s.lenN a).testBit (s.lenN * s.cfg.bits - s.posP + j))

/-- WTRL and WTRH (41_wordarray_bits R311, R312): every p is legal. -/
def Obligations.WtrlAndWtrhTrim : Prop :=
  ∀ (s : State) (a : Nat → Nat), Fits s s.baseA s.lenN → HoldsLimbs s s.baseA s.lenN a →
    (∃ m a', exec .wtrl s = .next { s.completed .ok with opmem := m } ∧ Stores s m s.baseA s.lenN a' ∧
      ∀ j, (limbValue s.cfg.bits s.lenN a').testBit j =
        (decide (s.posP ≤ j) && (limbValue s.cfg.bits s.lenN a).testBit j)) ∧
    ∃ m a', exec .wtrh s = .next { s.completed .ok with opmem := m } ∧ Stores s m s.baseA s.lenN a' ∧
      limbValue s.cfg.bits s.lenN a' = limbValue s.cfg.bits s.lenN a % 2 ^ s.posP

/-- The zero-filling shifts and the law of 41_wordarray_bits R310 and R313: with RV = 0, WSHLC by s leaves
`floor(A / 2^s)`, and WSHHC by s on that leaves A with its low s bits cleared. -/
def Obligations.ShiftLowThenHighClearsTheLowBits : Prop :=
  ∀ (s : State) (a : Nat → Nat), s.posP ≤ s.lenN * s.cfg.bits → Fits s s.baseA s.lenN → s.valV = 0 →
    HoldsLimbs s s.baseA s.lenN a →
    ∃ t a1 u a2, exec .wshlc s = .next t ∧ Stores s t.opmem s.baseA s.lenN a1 ∧
      limbValue s.cfg.bits s.lenN a1 = limbValue s.cfg.bits s.lenN a / 2 ^ s.posP ∧
      exec .wshhc { t with latch := s.latch } = .next u ∧ Stores s u.opmem s.baseA s.lenN a2 ∧
      limbValue s.cfg.bits s.lenN a2 =
        limbValue s.cfg.bits s.lenN a - limbValue s.cfg.bits s.lenN a % 2 ^ s.posP

/-! ## Recodings -/

/-- The digits of naf_w(A) (42_wordarray_recoding R401; R404 items 1 to 4): they sum to A; each nonzero one is odd and at
most 2^(w-1) - 1 in size; there are at most bitlen(A) + 1, none exactly for A = 0; two nonzero digits are at least w apart,
but for the top two after the rewrite, which are w - 1 apart. -/
def Obligations.NafDigitsRepresentTheValue : Prop :=
  ∀ w a : Nat, 2 ≤ w →
    digitValue 1 (naf w a) = a ∧
    (∀ d ∈ naf w a, d ≠ 0 → d % 2 = 1 ∧ -(2 ^ (w - 1) - 1) ≤ d ∧ d ≤ 2 ^ (w - 1) - 1) ∧
    (∀ b, a < 2 ^ b → (naf w a).length ≤ b + 1) ∧ (naf w a = [] ↔ a = 0) ∧
    ∀ i j, i < j → (naf w a).getD i 0 ≠ 0 → (naf w a).getD j 0 ≠ 0 →
      w ≤ j - i ∨ (j - i = w - 1 ∧ j = (naf w a).length - 1 ∧ (naf w a).getD j 0 = 1)

/-- WNAF (42_wordarray_recoding R402, R403; R404 items 5 and 6): the code fits the 2n+1 words of the destination, every bit
at or above RES2 is 0, and the decoding procedure gives the digits of naf_w(A) back and ends at RES2. -/
def Obligations.WnafStoresADecodableNaf : Prop :=
  ∀ (w : Nat) (s : State) (a : Nat → Nat), s.cfg.wf → 2 ≤ w → w < s.cfg.bits → Fits s s.baseA s.lenN →
    Fits s s.baseD (2 * s.lenN + 1) → ¬Overlap s.baseA s.lenN s.baseD (2 * s.lenN + 1) →
    HoldsLimbs s s.baseA s.lenN a →
    ∃ m c len, exec (.wnaf w) s = .next { s.completed .ok with
        opmem := m
        res := BitVec.ofNat 32 (naf w (limbValue s.cfg.bits s.lenN a)).length
        res2 := BitVec.ofNat 32 len } ∧
      (naf w (limbValue s.cfg.bits s.lenN a)).length < 2 ^ 32 ∧ len < 2 ^ 32 ∧
      Stores s m s.baseD (2 * s.lenN + 1) c ∧ limbValue s.cfg.bits (2 * s.lenN + 1) c < 2 ^ len ∧
      nafDecode w (limbValue s.cfg.bits (2 * s.lenN + 1) c)
          (naf w (limbValue s.cfg.bits s.lenN a)).length 0 =
        ((naf w (limbValue s.cfg.bits s.lenN a)).reverse, len)

/-- WOREC and WORSZ (42_wordarray_recoding R406, R407, R411): decoding the k = RES digits of the output and summing
`d[i] * 2^(w*i)` gives A; every digit is odd and at most 2^w - 1 in size; the bits above the digits are 0; WORSZ gives the
same k. -/
def Obligations.WorecRoundTrips : Prop :=
  ∀ (w : Nat) (s : State) (a : Nat → Nat), s.cfg.wf → 1 ≤ w → w < s.cfg.bits → 1 ≤ s.lenN →
    Fits s s.baseA s.lenN → Fits s s.baseD (worecLength s w) →
    ¬Overlap s.baseA s.lenN s.baseD (worecLength s w) → HoldsLimbs s s.baseA s.lenN a →
    limbValue s.cfg.bits s.lenN a % 2 = 1 →
    ∃ m c k, exec (.worec w) s =
        .next { s.completed .ok with opmem := m, res := BitVec.ofNat 32 k } ∧
      exec (.worsz w) s = .next { s.completed .ok with res := BitVec.ofNat 32 k } ∧
      k < 2 ^ 32 ∧ k = (s.lenN * s.cfg.bits + w - 1) / w ∧
      Stores s m s.baseD (worecLength s w) c ∧ limbValue s.cfg.bits (worecLength s w) c < 2 ^ (k * w) ∧
      (∀ d ∈ ocodeDecode w (limbValue s.cfg.bits (worecLength s w) c) k, d % 2 = 1 ∧ d.natAbs ≤ 2 ^ w - 1) ∧
      digitValue w (ocodeDecode w (limbValue s.cfg.bits (worecLength s w) c) k) =
        limbValue s.cfg.bits s.lenN a

/-- WOWF and WOWSZ (42_wordarray_recoding R408, R409, R411): the same with k' = floor(L / w) digits, for an odd A below
2^(k'*w). -/
def Obligations.WowfRoundTrips : Prop :=
  ∀ (w : Nat) (s : State) (a : Nat → Nat), s.cfg.wf → 1 ≤ w → w < s.cfg.bits → 1 ≤ s.lenN →
    Fits s s.baseA s.lenN → Fits s s.baseD (wowfLength s w) →
    ¬Overlap s.baseA s.lenN s.baseD (wowfLength s w) → HoldsLimbs s s.baseA s.lenN a →
    limbValue s.cfg.bits s.lenN a % 2 = 1 →
    limbValue s.cfg.bits s.lenN a < 2 ^ (s.lenN * s.cfg.bits / w * w) →
    ∃ m c k, exec (.wowf w) s =
        .next { s.completed .ok with opmem := m, res := BitVec.ofNat 32 k } ∧
      exec (.wowsz w) s = .next { s.completed .ok with res := BitVec.ofNat 32 k } ∧
      k < 2 ^ 32 ∧ k = s.lenN * s.cfg.bits / w ∧
      Stores s m s.baseD (wowfLength s w) c ∧ limbValue s.cfg.bits (wowfLength s w) c < 2 ^ (k * w) ∧
      (∀ d ∈ ocodeDecode w (limbValue s.cfg.bits (wowfLength s w) c) k, d % 2 = 1 ∧ d.natAbs ≤ 2 ^ w - 1) ∧
      digitValue w (ocodeDecode w (limbValue s.cfg.bits (wowfLength s w) c) k) =
        limbValue s.cfg.bits s.lenN a

/-- The size queries without a region (42_wordarray_recoding R407, R409): every n is legal, 0 too, and the result is taken
mod 2^32. -/
def Obligations.SizeQueriesNeedNoRegion : Prop :=
  ∀ (w : Nat) (s : State), 1 ≤ w → w < s.cfg.bits →
    exec (.worsz w) s = .next { s.completed .ok with
      res := BitVec.ofNat 32 ((s.lenN * s.cfg.bits + w - 1) / w) } ∧
    exec (.wowsz w) s = .next { s.completed .ok with res := BitVec.ofNat 32 (s.lenN * s.cfg.bits / w) } ∧
    (s.lenN = 0 → exec (.worsz w) s = .next { s.completed .ok with res := 0 })

/-! ## Block cipher unit -/

/-- 45_block_cipher R465 (and R460): BKEXP with W = 16 repeats the first four words, the same 8 words each time from the same
KEY[0..3]; with W = 24 the last two are the XOR-folds of the first and the last three of the first six; with W = 32 nothing
changes but STATUS. -/
def Obligations.BkexpExpandsTheKey : Prop :=
  (∀ s : State, ∃ k, exec (.bkexp 16) s = .next { s.completed .ok with key := k } ∧
    ∀ j : Fin 4, k[j.val] = s.key[j.val] ∧ k[j.val + 4] = s.key[j.val]) ∧
  (∀ s t : State, (∀ j : Fin 4, s.key[j.val] = t.key[j.val]) →
    ∃ k, exec (.bkexp 16) s = .next { s.completed .ok with key := k } ∧
      exec (.bkexp 16) t = .next { t.completed .ok with key := k }) ∧
  (∀ s : State, ∃ k, exec (.bkexp 24) s = .next { s.completed .ok with key := k } ∧
    (∀ j : Fin 6, k[j.val] = s.key[j.val]) ∧ k[6] = k[0] ^^^ k[1] ^^^ k[2] ∧ k[7] = k[3] ^^^ k[4] ^^^ k[5]) ∧
  ∀ s : State, exec (.bkexp 32) s = .next (s.completed .ok)

/-- BENC and BDEC follow the pseudocode of 45_block_cipher R461 and R462 over the binding tables of R458 and R459, given as
tables of register numbers; nothing but BLK and STATUS changes. -/
def Obligations.BencAndBdecFollowTheBindingTables : Prop :=
  ∀ s : State,
    exec .benc s = .next { s.completed .ok with
      blk :=
        let p := bencLoop s.cfg s.key (quadOfBlk s.blk)
        #v[p.p1, p.p3, p.p0, p.p2] } ∧
    exec .bdec s = .next { s.completed .ok with
      blk :=
        let p := bdecLoop s.cfg s.key (quadOfBlk s.blk)
        #v[p.p2, p.p0, p.p3, p.p1] }

/-- 45_block_cipher R464: for every KEY, every BLK and every S-box, BENC followed by BDEC with KEY unchanged restores BLK,
and so does BDEC followed by BENC. -/
def Obligations.BdecAndBencAreInverse : Prop :=
  ∀ s : State,
    (∃ t, exec .benc s = .next t ∧ exec .bdec t = .next (s.completed .ok)) ∧
    ∃ t, exec .bdec s = .next t ∧ exec .benc t = .next (s.completed .ok)

/-- The law of 45_block_cipher R454: Gr(x) is S(x) rotated left by r, for every S-box. -/
def Obligations.GFunctionsRotateTheSubstitution : Prop :=
  ∀ (cfg : Config) (x : Reg32),
    g5 cfg x = (substituted cfg x).rotateLeft 5 ∧ g13 cfg x = (substituted cfg x).rotateLeft 13 ∧
      g21 cfg x = (substituted cfg x).rotateLeft 21
end

