-- ==== Sys2Proof/Laws/State.lean ====
section
/-! SUPPORT. One lemma per field per update of the state, so that no later proof unfolds a record update. -/

namespace Sys2Proof.Machine

variable (s : State)

/-! `State.finish` -/

@[simp] theorem State.finish_cfg (e : Err) : (s.finish e).cfg = s.cfg := rfl
@[simp] theorem State.finish_args (e : Err) : (s.finish e).args = s.args := rfl
@[simp] theorem State.finish_res (e : Err) : (s.finish e).res = s.res := rfl
@[simp] theorem State.finish_res2 (e : Err) : (s.finish e).res2 = s.res2 := rfl
@[simp] theorem State.finish_resw (e : Err) : (s.finish e).resw = s.resw := rfl
@[simp] theorem State.finish_cmd (e : Err) : (s.finish e).cmd = s.cmd := rfl
@[simp] theorem State.finish_status (e : Err) : (s.finish e).status = { busy := false, done := true, err := e } := rfl
@[simp] theorem State.finish_ie (e : Err) : (s.finish e).ie = s.ie := rfl
@[simp] theorem State.finish_key (e : Err) : (s.finish e).key = s.key := rfl
@[simp] theorem State.finish_blk (e : Err) : (s.finish e).blk = s.blk := rfl
@[simp] theorem State.finish_latch (e : Err) : (s.finish e).latch = Latch.empty := rfl
@[simp] theorem State.finish_opmem (e : Err) : (s.finish e).opmem = s.opmem := rfl
@[simp] theorem State.finish_script (e : Err) : (s.finish e).script = s.script := rfl
@[simp] theorem State.finish_busRead (e : Err) : (s.finish e).busRead = s.busRead := rfl
@[simp] theorem State.finish_freeReads (e : Err) : (s.finish e).freeReads = s.freeReads := rfl
@[simp] theorem State.finish_resetHeld (e : Err) : (s.finish e).resetHeld = s.resetHeld := rfl

/-! `State.completed` -/

@[simp] theorem State.completed_cfg (e : Err) : (s.completed e).cfg = s.cfg := rfl
@[simp] theorem State.completed_args (e : Err) : (s.completed e).args = s.args := rfl
@[simp] theorem State.completed_res (e : Err) : (s.completed e).res = s.res := rfl
@[simp] theorem State.completed_res2 (e : Err) : (s.completed e).res2 = s.res2 := rfl
@[simp] theorem State.completed_resw (e : Err) : (s.completed e).resw = s.resw := rfl
@[simp] theorem State.completed_cmd (e : Err) : (s.completed e).cmd = s.cmd := rfl
@[simp] theorem State.completed_status (e : Err) : (s.completed e).status = { busy := false, done := true, err := e } := rfl
@[simp] theorem State.completed_ie (e : Err) : (s.completed e).ie = s.ie := rfl
@[simp] theorem State.completed_key (e : Err) : (s.completed e).key = s.key := rfl
@[simp] theorem State.completed_blk (e : Err) : (s.completed e).blk = s.blk := rfl
@[simp] theorem State.completed_latch (e : Err) : (s.completed e).latch = Latch.empty := rfl
@[simp] theorem State.completed_opmem (e : Err) : (s.completed e).opmem = s.opmem := rfl
@[simp] theorem State.completed_script (e : Err) : (s.completed e).script = s.script := rfl
@[simp] theorem State.completed_busRead (e : Err) : (s.completed e).busRead = s.busRead := rfl
@[simp] theorem State.completed_freeReads (e : Err) : (s.completed e).freeReads = s.freeReads := rfl
@[simp] theorem State.completed_resetHeld (e : Err) : (s.completed e).resetHeld = s.resetHeld := rfl

/-! `State.writeOperand` -/

@[simp] theorem State.writeOperand_cfg (b n v : Nat) : (s.writeOperand b n v).cfg = s.cfg := rfl
@[simp] theorem State.writeOperand_args (b n v : Nat) : (s.writeOperand b n v).args = s.args := rfl
@[simp] theorem State.writeOperand_res (b n v : Nat) : (s.writeOperand b n v).res = s.res := rfl
@[simp] theorem State.writeOperand_res2 (b n v : Nat) : (s.writeOperand b n v).res2 = s.res2 := rfl
@[simp] theorem State.writeOperand_resw (b n v : Nat) : (s.writeOperand b n v).resw = s.resw := rfl
@[simp] theorem State.writeOperand_cmd (b n v : Nat) : (s.writeOperand b n v).cmd = s.cmd := rfl
@[simp] theorem State.writeOperand_status (b n v : Nat) : (s.writeOperand b n v).status = s.status := rfl
@[simp] theorem State.writeOperand_ie (b n v : Nat) : (s.writeOperand b n v).ie = s.ie := rfl
@[simp] theorem State.writeOperand_key (b n v : Nat) : (s.writeOperand b n v).key = s.key := rfl
@[simp] theorem State.writeOperand_blk (b n v : Nat) : (s.writeOperand b n v).blk = s.blk := rfl
@[simp] theorem State.writeOperand_latch (b n v : Nat) : (s.writeOperand b n v).latch = s.latch := rfl
@[simp] theorem State.writeOperand_opmem (b n v : Nat) : (s.writeOperand b n v).opmem = memWrite s.cfg s.opmem b n v := rfl
@[simp] theorem State.writeOperand_script (b n v : Nat) : (s.writeOperand b n v).script = s.script := rfl
@[simp] theorem State.writeOperand_busRead (b n v : Nat) : (s.writeOperand b n v).busRead = s.busRead := rfl
@[simp] theorem State.writeOperand_freeReads (b n v : Nat) : (s.writeOperand b n v).freeReads = s.freeReads := rfl
@[simp] theorem State.writeOperand_resetHeld (b n v : Nat) : (s.writeOperand b n v).resetHeld = s.resetHeld := rfl

/-! `State.fillOperand` -/

@[simp] theorem State.fillOperand_cfg (b n v : Nat) : (s.fillOperand b n v).cfg = s.cfg := rfl
@[simp] theorem State.fillOperand_args (b n v : Nat) : (s.fillOperand b n v).args = s.args := rfl
@[simp] theorem State.fillOperand_res (b n v : Nat) : (s.fillOperand b n v).res = s.res := rfl
@[simp] theorem State.fillOperand_res2 (b n v : Nat) : (s.fillOperand b n v).res2 = s.res2 := rfl
@[simp] theorem State.fillOperand_resw (b n v : Nat) : (s.fillOperand b n v).resw = s.resw := rfl
@[simp] theorem State.fillOperand_cmd (b n v : Nat) : (s.fillOperand b n v).cmd = s.cmd := rfl
@[simp] theorem State.fillOperand_status (b n v : Nat) : (s.fillOperand b n v).status = s.status := rfl
@[simp] theorem State.fillOperand_ie (b n v : Nat) : (s.fillOperand b n v).ie = s.ie := rfl
@[simp] theorem State.fillOperand_key (b n v : Nat) : (s.fillOperand b n v).key = s.key := rfl
@[simp] theorem State.fillOperand_blk (b n v : Nat) : (s.fillOperand b n v).blk = s.blk := rfl
@[simp] theorem State.fillOperand_latch (b n v : Nat) : (s.fillOperand b n v).latch = s.latch := rfl
@[simp] theorem State.fillOperand_opmem (b n v : Nat) : (s.fillOperand b n v).opmem = memFill s.cfg s.opmem b n v := rfl
@[simp] theorem State.fillOperand_script (b n v : Nat) : (s.fillOperand b n v).script = s.script := rfl
@[simp] theorem State.fillOperand_busRead (b n v : Nat) : (s.fillOperand b n v).busRead = s.busRead := rfl
@[simp] theorem State.fillOperand_freeReads (b n v : Nat) : (s.fillOperand b n v).freeReads = s.freeReads := rfl
@[simp] theorem State.fillOperand_resetHeld (b n v : Nat) : (s.fillOperand b n v).resetHeld = s.resetHeld := rfl

/-! `State.setRes` -/

@[simp] theorem State.setRes_cfg (v : Reg32) : (s.setRes v).cfg = s.cfg := rfl
@[simp] theorem State.setRes_args (v : Reg32) : (s.setRes v).args = s.args := rfl
@[simp] theorem State.setRes_res (v : Reg32) : (s.setRes v).res = v := rfl
@[simp] theorem State.setRes_res2 (v : Reg32) : (s.setRes v).res2 = s.res2 := rfl
@[simp] theorem State.setRes_resw (v : Reg32) : (s.setRes v).resw = s.resw := rfl
@[simp] theorem State.setRes_cmd (v : Reg32) : (s.setRes v).cmd = s.cmd := rfl
@[simp] theorem State.setRes_status (v : Reg32) : (s.setRes v).status = s.status := rfl
@[simp] theorem State.setRes_ie (v : Reg32) : (s.setRes v).ie = s.ie := rfl
@[simp] theorem State.setRes_key (v : Reg32) : (s.setRes v).key = s.key := rfl
@[simp] theorem State.setRes_blk (v : Reg32) : (s.setRes v).blk = s.blk := rfl
@[simp] theorem State.setRes_latch (v : Reg32) : (s.setRes v).latch = s.latch := rfl
@[simp] theorem State.setRes_opmem (v : Reg32) : (s.setRes v).opmem = s.opmem := rfl
@[simp] theorem State.setRes_script (v : Reg32) : (s.setRes v).script = s.script := rfl
@[simp] theorem State.setRes_busRead (v : Reg32) : (s.setRes v).busRead = s.busRead := rfl
@[simp] theorem State.setRes_freeReads (v : Reg32) : (s.setRes v).freeReads = s.freeReads := rfl
@[simp] theorem State.setRes_resetHeld (v : Reg32) : (s.setRes v).resetHeld = s.resetHeld := rfl

/-! `State.setRes2` -/

@[simp] theorem State.setRes2_cfg (v : Reg32) : (s.setRes2 v).cfg = s.cfg := rfl
@[simp] theorem State.setRes2_args (v : Reg32) : (s.setRes2 v).args = s.args := rfl
@[simp] theorem State.setRes2_res (v : Reg32) : (s.setRes2 v).res = s.res := rfl
@[simp] theorem State.setRes2_res2 (v : Reg32) : (s.setRes2 v).res2 = v := rfl
@[simp] theorem State.setRes2_resw (v : Reg32) : (s.setRes2 v).resw = s.resw := rfl
@[simp] theorem State.setRes2_cmd (v : Reg32) : (s.setRes2 v).cmd = s.cmd := rfl
@[simp] theorem State.setRes2_status (v : Reg32) : (s.setRes2 v).status = s.status := rfl
@[simp] theorem State.setRes2_ie (v : Reg32) : (s.setRes2 v).ie = s.ie := rfl
@[simp] theorem State.setRes2_key (v : Reg32) : (s.setRes2 v).key = s.key := rfl
@[simp] theorem State.setRes2_blk (v : Reg32) : (s.setRes2 v).blk = s.blk := rfl
@[simp] theorem State.setRes2_latch (v : Reg32) : (s.setRes2 v).latch = s.latch := rfl
@[simp] theorem State.setRes2_opmem (v : Reg32) : (s.setRes2 v).opmem = s.opmem := rfl
@[simp] theorem State.setRes2_script (v : Reg32) : (s.setRes2 v).script = s.script := rfl
@[simp] theorem State.setRes2_busRead (v : Reg32) : (s.setRes2 v).busRead = s.busRead := rfl
@[simp] theorem State.setRes2_freeReads (v : Reg32) : (s.setRes2 v).freeReads = s.freeReads := rfl
@[simp] theorem State.setRes2_resetHeld (v : Reg32) : (s.setRes2 v).resetHeld = s.resetHeld := rfl

/-! `State.setResw` -/

@[simp] theorem State.setResw_cfg (v : Word) : (s.setResw v).cfg = s.cfg := rfl
@[simp] theorem State.setResw_args (v : Word) : (s.setResw v).args = s.args := rfl
@[simp] theorem State.setResw_res (v : Word) : (s.setResw v).res = s.res := rfl
@[simp] theorem State.setResw_res2 (v : Word) : (s.setResw v).res2 = s.res2 := rfl
@[simp] theorem State.setResw_resw (v : Word) : (s.setResw v).resw = v := rfl
@[simp] theorem State.setResw_cmd (v : Word) : (s.setResw v).cmd = s.cmd := rfl
@[simp] theorem State.setResw_status (v : Word) : (s.setResw v).status = s.status := rfl
@[simp] theorem State.setResw_ie (v : Word) : (s.setResw v).ie = s.ie := rfl
@[simp] theorem State.setResw_key (v : Word) : (s.setResw v).key = s.key := rfl
@[simp] theorem State.setResw_blk (v : Word) : (s.setResw v).blk = s.blk := rfl
@[simp] theorem State.setResw_latch (v : Word) : (s.setResw v).latch = s.latch := rfl
@[simp] theorem State.setResw_opmem (v : Word) : (s.setResw v).opmem = s.opmem := rfl
@[simp] theorem State.setResw_script (v : Word) : (s.setResw v).script = s.script := rfl
@[simp] theorem State.setResw_busRead (v : Word) : (s.setResw v).busRead = s.busRead := rfl
@[simp] theorem State.setResw_freeReads (v : Word) : (s.setResw v).freeReads = s.freeReads := rfl
@[simp] theorem State.setResw_resetHeld (v : Word) : (s.setResw v).resetHeld = s.resetHeld := rfl

/-! `State.setKey` -/

@[simp] theorem State.setKey_cfg (v : Vector Reg32 8) : (s.setKey v).cfg = s.cfg := rfl
@[simp] theorem State.setKey_args (v : Vector Reg32 8) : (s.setKey v).args = s.args := rfl
@[simp] theorem State.setKey_res (v : Vector Reg32 8) : (s.setKey v).res = s.res := rfl
@[simp] theorem State.setKey_res2 (v : Vector Reg32 8) : (s.setKey v).res2 = s.res2 := rfl
@[simp] theorem State.setKey_resw (v : Vector Reg32 8) : (s.setKey v).resw = s.resw := rfl
@[simp] theorem State.setKey_cmd (v : Vector Reg32 8) : (s.setKey v).cmd = s.cmd := rfl
@[simp] theorem State.setKey_status (v : Vector Reg32 8) : (s.setKey v).status = s.status := rfl
@[simp] theorem State.setKey_ie (v : Vector Reg32 8) : (s.setKey v).ie = s.ie := rfl
@[simp] theorem State.setKey_key (v : Vector Reg32 8) : (s.setKey v).key = v := rfl
@[simp] theorem State.setKey_blk (v : Vector Reg32 8) : (s.setKey v).blk = s.blk := rfl
@[simp] theorem State.setKey_latch (v : Vector Reg32 8) : (s.setKey v).latch = s.latch := rfl
@[simp] theorem State.setKey_opmem (v : Vector Reg32 8) : (s.setKey v).opmem = s.opmem := rfl
@[simp] theorem State.setKey_script (v : Vector Reg32 8) : (s.setKey v).script = s.script := rfl
@[simp] theorem State.setKey_busRead (v : Vector Reg32 8) : (s.setKey v).busRead = s.busRead := rfl
@[simp] theorem State.setKey_freeReads (v : Vector Reg32 8) : (s.setKey v).freeReads = s.freeReads := rfl
@[simp] theorem State.setKey_resetHeld (v : Vector Reg32 8) : (s.setKey v).resetHeld = s.resetHeld := rfl

/-! `State.setBlk` -/

@[simp] theorem State.setBlk_cfg (v : Vector Reg32 4) : (s.setBlk v).cfg = s.cfg := rfl
@[simp] theorem State.setBlk_args (v : Vector Reg32 4) : (s.setBlk v).args = s.args := rfl
@[simp] theorem State.setBlk_res (v : Vector Reg32 4) : (s.setBlk v).res = s.res := rfl
@[simp] theorem State.setBlk_res2 (v : Vector Reg32 4) : (s.setBlk v).res2 = s.res2 := rfl
@[simp] theorem State.setBlk_resw (v : Vector Reg32 4) : (s.setBlk v).resw = s.resw := rfl
@[simp] theorem State.setBlk_cmd (v : Vector Reg32 4) : (s.setBlk v).cmd = s.cmd := rfl
@[simp] theorem State.setBlk_status (v : Vector Reg32 4) : (s.setBlk v).status = s.status := rfl
@[simp] theorem State.setBlk_ie (v : Vector Reg32 4) : (s.setBlk v).ie = s.ie := rfl
@[simp] theorem State.setBlk_key (v : Vector Reg32 4) : (s.setBlk v).key = s.key := rfl
@[simp] theorem State.setBlk_blk (v : Vector Reg32 4) : (s.setBlk v).blk = v := rfl
@[simp] theorem State.setBlk_latch (v : Vector Reg32 4) : (s.setBlk v).latch = s.latch := rfl
@[simp] theorem State.setBlk_opmem (v : Vector Reg32 4) : (s.setBlk v).opmem = s.opmem := rfl
@[simp] theorem State.setBlk_script (v : Vector Reg32 4) : (s.setBlk v).script = s.script := rfl
@[simp] theorem State.setBlk_busRead (v : Vector Reg32 4) : (s.setBlk v).busRead = s.busRead := rfl
@[simp] theorem State.setBlk_freeReads (v : Vector Reg32 4) : (s.setBlk v).freeReads = s.freeReads := rfl
@[simp] theorem State.setBlk_resetHeld (v : Vector Reg32 4) : (s.setBlk v).resetHeld = s.resetHeld := rfl

/-! `State.withResults` -/

@[simp] theorem State.withResults_cfg (r r2 : Reg32) (rw : Word) : (s.withResults r r2 rw).cfg = s.cfg := rfl
@[simp] theorem State.withResults_args (r r2 : Reg32) (rw : Word) : (s.withResults r r2 rw).args = s.args := rfl
@[simp] theorem State.withResults_res (r r2 : Reg32) (rw : Word) : (s.withResults r r2 rw).res = r := rfl
@[simp] theorem State.withResults_res2 (r r2 : Reg32) (rw : Word) : (s.withResults r r2 rw).res2 = r2 := rfl
@[simp] theorem State.withResults_resw (r r2 : Reg32) (rw : Word) : (s.withResults r r2 rw).resw = rw := rfl
@[simp] theorem State.withResults_cmd (r r2 : Reg32) (rw : Word) : (s.withResults r r2 rw).cmd = s.cmd := rfl
@[simp] theorem State.withResults_status (r r2 : Reg32) (rw : Word) : (s.withResults r r2 rw).status = s.status := rfl
@[simp] theorem State.withResults_ie (r r2 : Reg32) (rw : Word) : (s.withResults r r2 rw).ie = s.ie := rfl
@[simp] theorem State.withResults_key (r r2 : Reg32) (rw : Word) : (s.withResults r r2 rw).key = s.key := rfl
@[simp] theorem State.withResults_blk (r r2 : Reg32) (rw : Word) : (s.withResults r r2 rw).blk = s.blk := rfl
@[simp] theorem State.withResults_latch (r r2 : Reg32) (rw : Word) : (s.withResults r r2 rw).latch = s.latch := rfl
@[simp] theorem State.withResults_opmem (r r2 : Reg32) (rw : Word) : (s.withResults r r2 rw).opmem = s.opmem := rfl
@[simp] theorem State.withResults_script (r r2 : Reg32) (rw : Word) : (s.withResults r r2 rw).script = s.script := rfl
@[simp] theorem State.withResults_busRead (r r2 : Reg32) (rw : Word) : (s.withResults r r2 rw).busRead = s.busRead := rfl
@[simp] theorem State.withResults_freeReads (r r2 : Reg32) (rw : Word) : (s.withResults r r2 rw).freeReads = s.freeReads := rfl
@[simp] theorem State.withResults_resetHeld (r r2 : Reg32) (rw : Word) : (s.withResults r r2 rw).resetHeld = s.resetHeld := rfl

/-! `State.issue` -/

@[simp] theorem State.issue_cfg (c : Reg32) : (s.issue c).cfg = s.cfg := rfl
@[simp] theorem State.issue_args (c : Reg32) : (s.issue c).args = s.args := rfl
@[simp] theorem State.issue_res (c : Reg32) : (s.issue c).res = s.res := rfl
@[simp] theorem State.issue_res2 (c : Reg32) : (s.issue c).res2 = s.res2 := rfl
@[simp] theorem State.issue_resw (c : Reg32) : (s.issue c).resw = s.resw := rfl
@[simp] theorem State.issue_cmd (c : Reg32) : (s.issue c).cmd = c := rfl
@[simp] theorem State.issue_status (c : Reg32) : (s.issue c).status = { s.status with busy := true, done := false } := rfl
@[simp] theorem State.issue_ie (c : Reg32) : (s.issue c).ie = s.ie := rfl
@[simp] theorem State.issue_key (c : Reg32) : (s.issue c).key = s.key := rfl
@[simp] theorem State.issue_blk (c : Reg32) : (s.issue c).blk = s.blk := rfl
@[simp] theorem State.issue_latch (c : Reg32) : (s.issue c).latch = { cmd := c, args := s.args } := rfl
@[simp] theorem State.issue_opmem (c : Reg32) : (s.issue c).opmem = s.opmem := rfl
@[simp] theorem State.issue_script (c : Reg32) : (s.issue c).script = s.script := rfl
@[simp] theorem State.issue_busRead (c : Reg32) : (s.issue c).busRead = s.busRead := rfl
@[simp] theorem State.issue_freeReads (c : Reg32) : (s.issue c).freeReads = s.freeReads := rfl
@[simp] theorem State.issue_resetHeld (c : Reg32) : (s.issue c).resetHeld = s.resetHeld := rfl

/-- The completion of the machine is the completion of the claims. -/
theorem State.finish_eq_completed (e : Err) : s.finish e = s.completed e := rfl

@[simp] theorem State.reset_cfg : State.reset.cfg = Config.standard := rfl
@[simp] theorem State.reset_status : State.reset.status = { busy := false, done := false, err := .ok } := rfl
@[simp] theorem State.reset_script : State.reset.script = [] := rfl
@[simp] theorem State.reset_opmem : State.reset.opmem = [] := rfl
@[simp] theorem State.reset_latch : State.reset.latch = Latch.empty := rfl

end Sys2Proof.Machine
end

