-- ==== Sys2Proof/Laws/Memory.lean ====
section
/-! SUPPORT. What the memory operations do: bytes, words and word-array operands. -/

namespace Sys2Proof

/-! ## Widths -/

theorem WordWidth.eight_mul_bytes (w : WordWidth) : 8 * w.bytes = w.bits := by cases w <;> rfl

theorem WordWidth.bytes_le (w : WordWidth) : w.bytes ≤ 8 := by cases w <;> decide

theorem WordWidth.bytes_pos (w : WordWidth) : 0 < w.bytes := by cases w <;> decide

theorem Config.eight_mul_bytes (cfg : Config) : 8 * cfg.width.bytes = cfg.bits := cfg.width.eight_mul_bytes

theorem Config.bits_eq (cfg : Config) : cfg.bits = 16 ∨ cfg.bits = 32 ∨ cfg.bits = 64 := by
  simp only [Config.bits]; cases cfg.width <;> decide

theorem Config.sixteen_le_bits (cfg : Config) : 16 ≤ cfg.bits := by have := cfg.bits_eq; omega

theorem Config.bits_pos (cfg : Config) : 0 < cfg.bits := by have := cfg.bits_eq; omega

theorem Config.bits_le (cfg : Config) : cfg.bits ≤ 64 := by have := cfg.bits_eq; omega

end Sys2Proof

namespace Sys2Proof.Machine

/-! ## Bytes -/

theorem Memory.read_write_self (m : Memory) (a : Nat) (v : Byte) : (m.write a v).read a = some v := by
  induction m with
  | nil => simp [Memory.write, Memory.read]
  | cons c rest ih =>
    obtain ⟨b, u⟩ := c
    simp only [Memory.write]
    split_ifs with h1 h2
    · simp [Memory.read]
    · simp [Memory.read]
    · simp [Memory.read, h2, ih]

theorem Memory.read_write_of_ne (m : Memory) {a x : Nat} (v : Byte) (h : x ≠ a) :
    (m.write a v).read x = m.read x := by
  induction m with
  | nil => simp [Memory.write, Memory.read, h.symm]
  | cons c rest ih =>
    obtain ⟨b, u⟩ := c
    simp only [Memory.write]
    split_ifs with h1 h2
    · simp [Memory.read, h.symm]
    · subst h2; simp [Memory.read, h.symm]
    · simp [Memory.read, ih]

theorem Memory.mem_write {m : Memory} {a : Nat} {v : Byte} {c : Host.Cell} (h : c ∈ m.write a v) :
    c = (a, v) ∨ c ∈ m := by
  induction m with
  | nil => simpa [Memory.write] using h
  | cons d rest ih =>
    obtain ⟨b, u⟩ := d
    simp only [Memory.write] at h
    split_ifs at h with h1 h2
    · simpa using h
    · rcases List.mem_cons.mp h with rfl | h
      · exact .inl rfl
      · exact .inr (List.mem_cons_of_mem _ h)
    · rcases List.mem_cons.mp h with rfl | h
      · exact .inr (List.mem_cons_self ..)
      · rcases ih h with rfl | h
        · exact .inl rfl
        · exact .inr (List.mem_cons_of_mem _ h)

theorem Memory.write_wf {m : Memory} (hm : m.wf) (a : Nat) (v : Byte) : (m.write a v).wf := by
  induction m with
  | nil => simp [Memory.write, Memory.wf]
  | cons d rest ih =>
    obtain ⟨b, u⟩ := d
    have hrest : Memory.wf rest := (List.pairwise_cons.mp hm).2
    have hb : ∀ c ∈ rest, b < c.1 := fun c hc => (List.pairwise_cons.mp hm).1 c hc
    simp only [Memory.write]
    split_ifs with h1 h2
    · refine List.pairwise_cons.mpr ⟨?_, hm⟩
      intro c hc
      rcases List.mem_cons.mp hc with rfl | hc
      · exact h1
      · exact h1.trans (hb c hc)
    · subst h2; exact List.pairwise_cons.mpr ⟨hb, hrest⟩
    · refine List.pairwise_cons.mpr ⟨?_, ih hrest⟩
      intro c hc
      rcases Memory.mem_write hc with rfl | hc
      · show b < a
        omega
      · exact hb c hc

theorem Memory.read_eq_some_mem {m : Memory} {x : Nat} {v : Byte} (h : m.read x = some v) : (x, v) ∈ m := by
  induction m with
  | nil => simp [Memory.read] at h
  | cons d rest ih =>
    obtain ⟨b, u⟩ := d
    simp only [Memory.read] at h
    split_ifs at h with hb
    · simp only [Option.some.injEq] at h; subst hb; subst h; exact List.mem_cons_self ..
    · exact List.mem_cons_of_mem _ (ih h)

theorem Memory.read_filter (m : Memory) (p : Nat → Bool) (x : Nat) :
    Memory.read (m.filter fun c => p c.1) x = if p x then m.read x else none := by
  induction m with
  | nil => simp [Memory.read]
  | cons d rest ih =>
    obtain ⟨b, u⟩ := d
    by_cases hp : p b
    · simp only [List.filter_cons, hp, if_true, Memory.read, ih]
      by_cases hb : b = x
      · subst hb; simp [hp]
      · simp [hb]
    · rw [List.filter_cons_of_neg (by simpa using hp), ih]
      by_cases hb : b = x
      · subst hb; simp [hp]
      · simp [Memory.read, hb]

/-! ## Runs of bytes -/

theorem loadBytes_congr {m m' : Memory} {a : Nat} (k : Nat)
    (h : ∀ x, a ≤ x → x < a + k → m.read x = m'.read x) : loadBytes m a k = loadBytes m' a k := by
  induction k generalizing a with
  | zero => rfl
  | succ k ih =>
    simp only [loadBytes]
    rw [h a (le_refl a) (by omega), ih (fun x h1 h2 => h x (by omega) (by omega))]

theorem loadBytes_eq_none_iff (m : Memory) (a k : Nat) :
    loadBytes m a k = none ↔ ∃ j < k, m.read (a + j) = none := by
  induction k generalizing a with
  | zero => simp [loadBytes]
  | succ k ih =>
    simp only [loadBytes]
    constructor
    · intro h
      rcases hr : m.read a with _ | b
      · exact ⟨0, by omega, hr⟩
      · rw [hr] at h
        rcases hl : loadBytes m (a + 1) k with _ | v
        · obtain ⟨j, hj, hn⟩ := (ih (a + 1)).mp hl
          exact ⟨j + 1, by omega, by rw [← hn]; congr 1; omega⟩
        · rw [hl] at h; simp at h
    · rintro ⟨j, hj, hn⟩
      rcases j with _ | j
      · have h0 : m.read a = none := by simpa using hn
        simp [h0]
      · have hl : loadBytes m (a + 1) k = none :=
          (ih (a + 1)).mpr ⟨j, by omega, by rw [← hn]; congr 1; omega⟩
        rw [hl]
        rcases m.read a with _ | b <;> rfl

theorem loadBytes_lt {m : Memory} {a k v : Nat} (h : loadBytes m a k = some v) : v < 2 ^ (8 * k) := by
  induction k generalizing a v with
  | zero => simp [loadBytes] at h; omega
  | succ k ih =>
    simp only [loadBytes] at h
    rcases hr : m.read a with _ | b <;> rw [hr] at h
    · simp at h
    rcases hl : loadBytes m (a + 1) k with _ | u <;> rw [hl] at h
    · simp at h
    simp only [Option.some.injEq] at h
    have hu := ih hl
    have hb := b.isLt
    have e : 2 ^ (8 * (k + 1)) = 2 ^ 8 * 2 ^ (8 * k) := by rw [← pow_add]; congr 1; ring
    rw [e, ← h]
    calc b.toNat + 2 ^ 8 * u < 2 ^ 8 + 2 ^ 8 * u := by omega
      _ = 2 ^ 8 * (u + 1) := by ring
      _ ≤ 2 ^ 8 * 2 ^ (8 * k) := Nat.mul_le_mul_left _ hu

theorem read_storeBytes_outside (m : Memory) {a x : Nat} (k v : Nat) (h : x < a ∨ a + k ≤ x) :
    (storeBytes m a k v).read x = m.read x := by
  induction k generalizing m a v with
  | zero => rfl
  | succ k ih =>
    simp only [storeBytes]
    rw [ih _ _ (by omega), Memory.read_write_of_ne _ _ (by omega)]

theorem loadBytes_storeBytes_self (m : Memory) (a k v : Nat) :
    loadBytes (storeBytes m a k v) a k = some (v % 2 ^ (8 * k)) := by
  induction k generalizing m a v with
  | zero => simp [loadBytes, Nat.mod_one]
  | succ k ih =>
    simp only [loadBytes, storeBytes]
    rw [ih, read_storeBytes_outside _ _ _ (by omega), Memory.read_write_self]
    have e : 2 ^ (8 * (k + 1)) = 2 ^ 8 * 2 ^ (8 * k) := by rw [← pow_add]; congr 1; ring
    simp only [BitVec.toNat_ofNat, Option.some.injEq]
    rw [e, Nat.mod_mul]

theorem storeBytes_wf {m : Memory} (hm : m.wf) (a k v : Nat) : (storeBytes m a k v).wf := by
  induction k generalizing m a v with
  | zero => exact hm
  | succ k ih => exact ih (Memory.write_wf hm _ _) _ _

/-! ## Words -/

theorem loadWord_lt {cfg : Config} {m : Memory} {i v : Nat} (h : loadWord cfg m i = some v) :
    v < 2 ^ cfg.bits := by
  rw [← cfg.eight_mul_bytes]; exact loadBytes_lt h

theorem loadWord_storeWord_self (cfg : Config) (m : Memory) (i v : Nat) :
    loadWord cfg (storeWord cfg m i v) i = some (v % 2 ^ cfg.bits) := by
  rw [← cfg.eight_mul_bytes]; exact loadBytes_storeBytes_self _ _ _ _

theorem loadWord_congr {cfg : Config} {m m' : Memory} {i : Nat}
    (h : ∀ k < cfg.width.bytes, m.read (wordOffset i + k) = m'.read (wordOffset i + k)) :
    loadWord cfg m i = loadWord cfg m' i := by
  refine loadBytes_congr _ fun x h1 h2 => ?_
  have := h (x - wordOffset i) (by omega)
  rwa [Nat.add_sub_cancel' h1] at this

theorem read_storeWord_outside (cfg : Config) (m : Memory) (i v : Nat) {x : Nat}
    (h : ∀ k < cfg.width.bytes, x ≠ wordOffset i + k) : (storeWord cfg m i v).read x = m.read x := by
  refine read_storeBytes_outside _ _ _ ?_
  by_contra hx
  exact h (x - wordOffset i) (by omega) (by omega)

theorem loadWord_storeWord_of_ne (cfg : Config) (m : Memory) {i j : Nat} (v : Nat) (h : j ≠ i) :
    loadWord cfg (storeWord cfg m i v) j = loadWord cfg m j := by
  refine loadWord_congr fun k hk => read_storeWord_outside _ _ _ _ fun k' hk' => ?_
  have := cfg.width.bytes_le
  simp only [wordOffset]
  omega

theorem storeWord_wf {cfg : Config} {m : Memory} (hm : m.wf) (i v : Nat) : (storeWord cfg m i v).wf :=
  storeBytes_wf hm _ _ _

theorem loadWord_eq_none_iff (cfg : Config) (m : Memory) (i : Nat) :
    loadWord cfg m i = none ↔ ∃ k < cfg.width.bytes, m.read (wordOffset i + k) = none :=
  loadBytes_eq_none_iff _ _ _

/-- A byte of the slot of word i is a byte of no other word. -/
theorem wordOffset_ne {cfg : Config} {i j k k' : Nat} (hk : k < cfg.width.bytes) (hk' : k' < cfg.width.bytes)
    (h : i ≠ j) : wordOffset i + k ≠ wordOffset j + k' := by
  have := cfg.width.bytes_le
  simp only [wordOffset]
  omega

/-! ## Limbs of an integer -/

theorem limb_zero_index (bits v : Nat) : limb bits v 0 = v % 2 ^ bits := by simp [limb]

theorem limb_succ (bits v i : Nat) : limb bits v (i + 1) = limb bits (v / 2 ^ bits) i := by
  simp only [limb]
  rw [Nat.div_div_eq_div_mul, ← pow_add]
  congr 3
  ring

theorem limb_lt (bits v i : Nat) : limb bits v i < 2 ^ bits := Nat.mod_lt _ (by positivity)

theorem limbValue_zero (bits : Nat) (a : Nat → Nat) : limbValue bits 0 a = 0 := by simp [limbValue]

theorem limbValue_succ (bits n : Nat) (a : Nat → Nat) :
    limbValue bits (n + 1) a = a 0 + 2 ^ bits * limbValue bits n (fun i => a (i + 1)) := by
  simp only [limbValue]
  rw [Finset.sum_range_succ', Finset.mul_sum]
  simp only [Nat.mul_zero, pow_zero, Nat.mul_one]
  rw [Nat.add_comm]
  congr 1
  refine Finset.sum_congr rfl fun i _ => ?_
  rw [Nat.mul_add, Nat.mul_one, pow_add]
  ring

theorem limbValue_congr {bits n : Nat} {a b : Nat → Nat} (h : ∀ i < n, a i = b i) :
    limbValue bits n a = limbValue bits n b :=
  Finset.sum_congr rfl fun i hi => by rw [h i (Finset.mem_range.mp hi)]

theorem limbValue_lt {bits n : Nat} {a : Nat → Nat} (h : ∀ i < n, a i < 2 ^ bits) :
    limbValue bits n a < 2 ^ (n * bits) := by
  induction n generalizing a with
  | zero => simp [limbValue]
  | succ n ih =>
    rw [limbValue_succ, Nat.succ_mul, Nat.add_comm (n * bits), pow_add]
    have h0 := h 0 (by omega)
    have hr := ih (a := fun i => a (i + 1)) fun i hi => h (i + 1) (by omega)
    calc _ < 2 ^ bits + 2 ^ bits * limbValue bits n (fun i => a (i + 1)) := by omega
      _ = 2 ^ bits * (limbValue bits n (fun i => a (i + 1)) + 1) := by ring
      _ ≤ _ := Nat.mul_le_mul_left _ hr

theorem limb_limbValue {bits n : Nat} {a : Nat → Nat} (h : ∀ i < n, a i < 2 ^ bits) {i : Nat} (hi : i < n) :
    limb bits (limbValue bits n a) i = a i := by
  induction n generalizing a i with
  | zero => omega
  | succ n ih =>
    rw [limbValue_succ]
    have h0 := h 0 (by omega)
    rcases i with _ | i
    · rw [limb_zero_index, Nat.add_mul_mod_self_left, Nat.mod_eq_of_lt h0]
    · rw [limb_succ, Nat.add_mul_div_left _ _ (by positivity), Nat.div_eq_of_lt h0, Nat.zero_add]
      exact ih (fun j hj => h (j + 1) (by omega)) (by omega)

theorem limbValue_limb (bits n v : Nat) : limbValue bits n (limb bits v) = v % 2 ^ (n * bits) := by
  induction n generalizing v with
  | zero => simp [limbValue, Nat.mod_one]
  | succ n ih =>
    rw [limbValue_succ, limb_zero_index]
    simp only [limb_succ]
    rw [ih, Nat.succ_mul, Nat.add_comm (n * bits), pow_add, Nat.mod_mul]

/-- Two operands of one length have equal values exactly when their limbs are equal. -/
theorem limbValue_inj {bits n : Nat} {a b : Nat → Nat} (ha : ∀ i < n, a i < 2 ^ bits)
    (hb : ∀ i < n, b i < 2 ^ bits) : limbValue bits n a = limbValue bits n b ↔ ∀ i < n, a i = b i := by
  constructor
  · intro h i hi
    rw [← limb_limbValue ha hi, h, limb_limbValue hb hi]
  · exact limbValue_congr

theorem limbValue_eq_zero_iff {bits n : Nat} {a : Nat → Nat} :
    limbValue bits n a = 0 ↔ ∀ i < n, a i = 0 := by
  simp [limbValue, Finset.sum_eq_zero_iff]

theorem testBit_limb (bits v i j : Nat) :
    (limb bits v i).testBit j = (decide (j < bits) && v.testBit (bits * i + j)) := by
  simp [limb, Nat.testBit_mod_two_pow, Nat.testBit_div_two_pow, Nat.add_comm]

/-- A bit of an operand's value is a bit of one of its limbs. -/
theorem testBit_limbValue {bits n : Nat} (hbits : 0 < bits) {a : Nat → Nat} (h : ∀ i < n, a i < 2 ^ bits)
    (j : Nat) :
    (limbValue bits n a).testBit j = (decide (j < n * bits) && (a (j / bits)).testBit (j % bits)) := by
  by_cases hj : j < n * bits
  · have hi : j / bits < n := (Nat.div_lt_iff_lt_mul hbits).mpr hj
    have hm := Nat.mod_lt j hbits
    rw [← limb_limbValue h hi, testBit_limb]
    simp [hj, hm, Nat.div_add_mod]
  · simp only [hj, decide_false, Bool.false_and]
    exact Nat.testBit_lt_two_pow ((limbValue_lt h).trans_le (Nat.pow_le_pow_right (by norm_num) (by omega)))

/-! ## Operands -/

theorem memRead_of_limbs {cfg : Config} {m : Memory} {base n : Nat} {a : Nat → Nat}
    (h : ∀ i < n, loadWord cfg m (base + i) = some (a i)) :
    memRead cfg m base n = some (limbValue cfg.bits n a) := by
  induction n generalizing base a with
  | zero => simp [memRead, limbValue]
  | succ n ih =>
    have h0 := h 0 (by omega)
    have hr := ih (base := base + 1) (a := fun i => a (i + 1)) fun i hi => by
      have := h (i + 1) (by omega)
      rwa [show base + (i + 1) = base + 1 + i by omega] at this
    simp only [Nat.add_zero] at h0
    simp [memRead, h0, hr, limbValue_succ]

theorem memRead_eq_none_iff (cfg : Config) (m : Memory) (base n : Nat) :
    memRead cfg m base n = none ↔ ∃ i < n, loadWord cfg m (base + i) = none := by
  induction n generalizing base with
  | zero => simp [memRead]
  | succ n ih =>
    simp only [memRead]
    constructor
    · intro h
      rcases hw : loadWord cfg m base with _ | x
      · exact ⟨0, by omega, hw⟩
      · rw [hw] at h
        rcases hl : memRead cfg m (base + 1) n with _ | v
        · obtain ⟨i, hi, hn⟩ := (ih (base + 1)).mp hl
          exact ⟨i + 1, by omega, by rw [← hn]; congr 1; omega⟩
        · rw [hl] at h; simp at h
    · rintro ⟨i, hi, hn⟩
      rcases i with _ | i
      · have h0 : loadWord cfg m base = none := by simpa using hn
        simp [h0]
      · have hl : memRead cfg m (base + 1) n = none :=
          (ih (base + 1)).mpr ⟨i, by omega, by rw [← hn]; congr 1; omega⟩
        rw [hl]
        rcases loadWord cfg m base with _ | x <;> rfl

theorem limb_of_memRead {cfg : Config} {m : Memory} {base n v : Nat} (h : memRead cfg m base n = some v) :
    ∀ i < n, loadWord cfg m (base + i) = some (limb cfg.bits v i) := by
  have hs : ∀ i < n, ∃ x, loadWord cfg m (base + i) = some x := by
    intro i hi
    rcases hw : loadWord cfg m (base + i) with _ | x
    · rw [(memRead_eq_none_iff cfg m base n).mpr ⟨i, hi, hw⟩] at h; simp at h
    · exact ⟨x, rfl⟩
  have ha : ∀ i < n, loadWord cfg m (base + i) = some ((loadWord cfg m (base + i)).getD 0) := by
    intro i hi
    obtain ⟨x, hx⟩ := hs i hi
    simp [hx]
  have hv := memRead_of_limbs (a := fun i => (loadWord cfg m (base + i)).getD 0) ha
  rw [h, Option.some.injEq] at hv
  intro i hi
  rw [ha i hi, hv, limb_limbValue (fun j hj => loadWord_lt (ha j hj)) hi]

theorem memRead_lt {cfg : Config} {m : Memory} {base n v : Nat} (h : memRead cfg m base n = some v) :
    v < 2 ^ (n * cfg.bits) := by
  have hl := limb_of_memRead h
  have := memRead_of_limbs hl
  rw [h, Option.some.injEq] at this
  rw [this]
  exact limbValue_lt fun i hi => loadWord_lt (hl i hi)

theorem memWrite_wf {cfg : Config} {m : Memory} (hm : m.wf) (base n v : Nat) : (memWrite cfg m base n v).wf := by
  induction n generalizing m base v with
  | zero => exact hm
  | succ n ih => exact ih (storeWord_wf hm _ _) _ _

theorem memFill_wf {cfg : Config} {m : Memory} (hm : m.wf) (base n v : Nat) : (memFill cfg m base n v).wf := by
  induction n generalizing m base with
  | zero => exact hm
  | succ n ih => exact ih (storeWord_wf hm _ _) _

theorem memUnwrite_wf {cfg : Config} {m : Memory} (hm : m.wf) (base len : Nat) : (memUnwrite cfg m base len).wf :=
  List.Pairwise.filter _ hm

theorem read_memWrite_outside {cfg : Config} (m : Memory) {base n x : Nat} (v : Nat)
    (h : ¬RegionByte cfg base n x) : (memWrite cfg m base n v).read x = m.read x := by
  induction n generalizing m base v with
  | zero => rfl
  | succ n ih =>
    simp only [memWrite]
    rw [ih _ _ fun ⟨i, k, hi, hk, e⟩ => h ⟨i + 1, k, by omega, hk, by rw [e]; congr 2; omega⟩]
    exact read_storeWord_outside _ _ _ _ fun k hk e => h ⟨0, k, by omega, hk, e⟩

theorem read_memFill_outside {cfg : Config} (m : Memory) {base n x : Nat} (v : Nat)
    (h : ¬RegionByte cfg base n x) : (memFill cfg m base n v).read x = m.read x := by
  induction n generalizing m base with
  | zero => rfl
  | succ n ih =>
    simp only [memFill]
    rw [ih _ fun ⟨i, k, hi, hk, e⟩ => h ⟨i + 1, k, by omega, hk, by rw [e]; congr 2; omega⟩]
    exact read_storeWord_outside _ _ _ _ fun k hk e => h ⟨0, k, by omega, hk, e⟩

/-- A word outside a region has no byte in it. -/
theorem not_regionByte_of_outside {cfg : Config} {base n j k : Nat} (hk : k < cfg.width.bytes)
    (h : j < base ∨ base + n ≤ j) : ¬RegionByte cfg base n (wordOffset j + k) := by
  rintro ⟨i, k', hi, hk', e⟩
  exact wordOffset_ne hk hk' (by omega) e

theorem loadWord_memWrite_outside {cfg : Config} (m : Memory) {base n j : Nat} (v : Nat)
    (h : j < base ∨ base + n ≤ j) : loadWord cfg (memWrite cfg m base n v) j = loadWord cfg m j :=
  loadWord_congr fun _ hk => read_memWrite_outside _ _ (not_regionByte_of_outside hk h)

theorem loadWord_memFill_outside {cfg : Config} (m : Memory) {base n j : Nat} (v : Nat)
    (h : j < base ∨ base + n ≤ j) : loadWord cfg (memFill cfg m base n v) j = loadWord cfg m j :=
  loadWord_congr fun _ hk => read_memFill_outside _ _ (not_regionByte_of_outside hk h)

theorem loadWord_memWrite_inside {cfg : Config} (m : Memory) (base : Nat) {n i : Nat} (v : Nat) (h : i < n) :
    loadWord cfg (memWrite cfg m base n v) (base + i) = some (limb cfg.bits v i) := by
  induction n generalizing m base v i with
  | zero => omega
  | succ n ih =>
    simp only [memWrite]
    rcases i with _ | i
    · rw [loadWord_memWrite_outside _ _ (by omega), Nat.add_zero, loadWord_storeWord_self, limb_zero_index]
    · rw [show base + (i + 1) = base + 1 + i by omega, ih _ _ _ (by omega), limb_succ]

theorem loadWord_memFill_inside {cfg : Config} (m : Memory) (base : Nat) {n i : Nat} (v : Nat) (h : i < n) :
    loadWord cfg (memFill cfg m base n v) (base + i) = some (v % 2 ^ cfg.bits) := by
  induction n generalizing m base i with
  | zero => omega
  | succ n ih =>
    simp only [memFill]
    rcases i with _ | i
    · rw [loadWord_memFill_outside _ _ (by omega), Nat.add_zero, loadWord_storeWord_self]
    · rw [show base + (i + 1) = base + 1 + i by omega, ih _ _ (by omega)]

/-- MemWrite stores the limbs of its value and leaves every byte outside the region. -/
theorem stores_memWrite (s : State) (base n v : Nat) :
    Stores s (memWrite s.cfg s.opmem base n v) base n (limb s.cfg.bits v) :=
  ⟨fun _ hi => loadWord_memWrite_inside _ _ _ hi, fun _ hx => read_memWrite_outside _ _ hx⟩

/-- A fill stores its word in every limb. -/
theorem stores_memFill (s : State) (base n : Nat) {v : Nat} (hv : v < 2 ^ s.cfg.bits) :
    Stores s (memFill s.cfg s.opmem base n v) base n (fun _ => v) :=
  ⟨fun _ hi => by rw [loadWord_memFill_inside _ _ _ hi, Nat.mod_eq_of_lt hv], fun _ hx => read_memFill_outside _ _ hx⟩

theorem Stores.congr {s : State} {m : Memory} {base n : Nat} {a b : Nat → Nat} (h : Stores s m base n a)
    (e : ∀ i < n, a i = b i) : Stores s m base n b :=
  ⟨fun i hi => by rw [h.1 i hi, e i hi], h.2⟩

theorem loadWord_memUnwrite (cfg : Config) (m : Memory) (base len i : Nat) :
    loadWord cfg (memUnwrite cfg m base len) i =
      if base ≤ i ∧ i < min (base + len) cfg.opmemWords then none else loadWord cfg m i := by
  have hread : ∀ x, (memUnwrite cfg m base len).read x =
      if !(wordOffset base ≤ x && x < wordOffset (min (base + len) cfg.opmemWords)) then m.read x else none :=
    fun x => Memory.read_filter m
      (fun x => !(wordOffset base ≤ x && x < wordOffset (min (base + len) cfg.opmemWords))) x
  have hb := cfg.width.bytes_le
  generalize min (base + len) cfg.opmemWords = e at hread
  split_ifs with h
  · rw [loadWord_eq_none_iff]
    refine ⟨0, cfg.width.bytes_pos, ?_⟩
    rw [hread, if_neg]
    simp only [wordOffset]
    simp
    omega
  · refine loadWord_congr fun k hk => ?_
    rw [hread, if_pos]
    simp only [wordOffset, Bool.not_eq_true', Bool.and_eq_false_iff]
    rcases Nat.lt_or_ge i base with hi | hi
    · exact .inl (decide_eq_false (by omega))
    · exact .inr (decide_eq_false (by omega))

/-! ## The shape of OPMEM

Every memory operation keeps it, its canonical form included. -/

theorem memoryShape_nil (cfg : Config) : MemoryShape cfg [] :=
  ⟨List.Pairwise.nil, fun x hx => by simp [Memory.read] at hx, fun i k _ hx => by simp [Memory.read] at hx⟩

theorem MemoryShape.storeWord {cfg : Config} {m : Memory} {i : Nat} (h : MemoryShape cfg m) (v : Nat)
    (hi : i < cfg.opmemWords) : MemoryShape cfg (storeWord cfg m i v) := by
  obtain ⟨h1, h2, h3⟩ := h
  refine ⟨storeWord_wf h1 _ _, fun x hx => ?_, fun j k hk hx => ?_⟩
  · by_cases hin : ∃ k < cfg.width.bytes, x = wordOffset i + k
    · obtain ⟨k, hk, rfl⟩ := hin
      exact ⟨i, k, hi, hk, by simp⟩
    · rw [read_storeWord_outside _ _ _ _ fun k hk e => hin ⟨k, hk, e⟩] at hx
      exact h2 x hx
  · by_cases hj : j = i
    · subst hj; rw [loadWord_storeWord_self]; rfl
    · rw [loadWord_storeWord_of_ne _ _ _ hj]
      rw [read_storeWord_outside _ _ _ _ fun k' hk' => wordOffset_ne hk hk' hj] at hx
      exact h3 j k hk hx

theorem MemoryShape.memWrite {cfg : Config} {m : Memory} {base n : Nat} (h : MemoryShape cfg m) (v : Nat)
    (hi : base + n ≤ cfg.opmemWords) : MemoryShape cfg (memWrite cfg m base n v) := by
  induction n generalizing m base v with
  | zero => exact h
  | succ n ih => exact ih (h.storeWord v (by omega)) _ (by omega)

theorem MemoryShape.memFill {cfg : Config} {m : Memory} {base n : Nat} (h : MemoryShape cfg m) (v : Nat)
    (hi : base + n ≤ cfg.opmemWords) : MemoryShape cfg (memFill cfg m base n v) := by
  induction n generalizing m base with
  | zero => exact h
  | succ n ih => exact ih (h.storeWord v (by omega)) (by omega)

theorem MemoryShape.memUnwrite {cfg : Config} {m : Memory} (h : MemoryShape cfg m) (base len : Nat) :
    MemoryShape cfg (memUnwrite cfg m base len) := by
  obtain ⟨h1, h2, h3⟩ := h
  have hread : ∀ x, ((Machine.memUnwrite cfg m base len).read x).isSome → (m.read x).isSome ∧
      ¬(wordOffset base ≤ x ∧ x < wordOffset (min (base + len) cfg.opmemWords)) := by
    intro x hx
    rw [show (Machine.memUnwrite cfg m base len).read x = _ from Memory.read_filter m
      (fun x => !(wordOffset base ≤ x && x < wordOffset (min (base + len) cfg.opmemWords))) x] at hx
    split_ifs at hx with hc
    · exact ⟨hx, by simp at hc; omega⟩
    · simp at hx
  refine ⟨memUnwrite_wf h1 _ _, fun x hx => h2 x (hread x hx).1, fun i k hk hx => ?_⟩
  obtain ⟨hs, ho⟩ := hread _ hx
  rw [loadWord_memUnwrite, if_neg]
  · exact h3 i k hk hs
  · rintro ⟨h4, h5⟩
    have := cfg.width.bytes_le
    generalize min (base + len) cfg.opmemWords = e at ho h5
    simp only [wordOffset] at ho
    omega

/-! ## Regions -/

/-- The overlap test of the machine is R17's: two regions share a word address. -/
theorem regionsOverlap_iff (b1 l1 b2 l2 : Nat) : regionsOverlap b1 l1 b2 l2 = true ↔ Overlap b1 l1 b2 l2 := by
  simp only [regionsOverlap, Overlap, Bool.and_eq_true, decide_eq_true_eq]
  constructor
  · rintro ⟨⟨⟨h1, h2⟩, h3⟩, h4⟩
    exact ⟨max b1 b2 - b1, max b1 b2 - b2, by omega, by omega, by omega⟩
  · rintro ⟨i, j, hi, hj, e⟩
    omega

end Sys2Proof.Machine
end

