-- ==== Sys2Proof/Laws/Ops.lean ====
section
/-! SUPPORT. What the shared operations of the commands can do, each said once: the checks, their order, and the read of
an operand. A proof about a command cites these and never unfolds `checked` or `withOperand`. -/

namespace Sys2Proof.Machine

/-! ## The checks -/

theorem checkParam_eq_none_iff (c : Prop) [Decidable c] : checkParam c = none ↔ c := by
  simp only [checkParam]; split_ifs with h <;> simp [h]

theorem checkParam_of_not {c : Prop} [Decidable c] (h : ¬c) : checkParam c = some .param := if_neg h

theorem checkRange_eq_none_iff (cfg : Config) (base len : Nat) :
    checkRange cfg base len = none ↔ base + len ≤ cfg.opmemWords := by
  simp only [checkRange]; split_ifs with h <;> simp [h]

theorem checkRange_of_not {cfg : Config} {base len : Nat} (h : ¬base + len ≤ cfg.opmemWords) :
    checkRange cfg base len = some .range := if_neg h

theorem checkDisjoint_eq_none_iff (b1 l1 b2 l2 : Nat) :
    checkDisjoint b1 l1 b2 l2 = none ↔ ¬Overlap b1 l1 b2 l2 := by
  rw [← regionsOverlap_iff]; simp only [checkDisjoint]; split_ifs with h <;> simp [h]

theorem checkDisjoint_of_overlap {b1 l1 b2 l2 : Nat} (h : Overlap b1 l1 b2 l2) :
    checkDisjoint b1 l1 b2 l2 = some .overlap := if_pos ((regionsOverlap_iff ..).mpr h)

theorem checkSameOrDisjoint_eq_none_iff (b1 b2 l : Nat) :
    checkSameOrDisjoint b1 b2 l = none ↔ b1 = b2 ∨ ¬Overlap b1 l b2 l := by
  rw [← regionsOverlap_iff]; simp only [checkSameOrDisjoint]
  by_cases h : b1 = b2 <;> simp [h]

theorem checkSameOrDisjoint_of_not {b1 b2 l : Nat} (h : ¬(b1 = b2 ∨ ¬Overlap b1 l b2 l)) :
    checkSameOrDisjoint b1 b2 l = some .overlap := by
  rw [not_or, not_not] at h
  exact if_pos ⟨h.1, (regionsOverlap_iff ..).mpr h.2⟩

/-! ## Their order -/

/-- All checks pass: the command runs its body. -/
theorem checked_of_pass {s : State} {checks : List (Option Err)} {body : StepResult}
    (h : ∀ c ∈ checks, c = none) : checked s checks body = body := by
  have hf : firstFailure checks = none := by
    induction checks with
    | nil => rfl
    | cons c rest ih =>
      obtain rfl := h c (List.mem_cons_self ..)
      exact ih fun d hd => h d (List.mem_cons_of_mem _ hd)
  simp [checked, hf]

/-- The checks before the failing one pass: the command completes with its code. -/
theorem checked_of_fail {s : State} {before after : List (Option Err)} {e : Err} {body : StepResult}
    (h : ∀ c ∈ before, c = none) : checked s (before ++ some e :: after) body = .next (s.finish e) := by
  have hf : firstFailure (before ++ some e :: after) = some e := by
    induction before with
    | nil => rfl
    | cons c rest ih =>
      obtain rfl := h c (List.mem_cons_self ..)
      exact ih fun d hd => h d (List.mem_cons_of_mem _ hd)
  simp [checked, hf]

/-- All that `checked` can do. -/
theorem checked_cases (s : State) (checks : List (Option Err)) (body : StepResult) :
    ((∀ c ∈ checks, c = none) ∧ checked s checks body = body) ∨
      ∃ before e after, checks = before ++ some e :: after ∧ (∀ c ∈ before, c = none) ∧
        checked s checks body = .next (s.finish e) := by
  by_cases h : ∀ c ∈ checks, c = none
  · exact .inl ⟨h, checked_of_pass h⟩
  · refine .inr ?_
    have key : ∃ before e after, checks = before ++ some e :: after ∧ ∀ c ∈ before, c = none := by
      clear s body
      induction checks with
      | nil => simp at h
      | cons c rest ih =>
        rcases c with _ | e
        · obtain ⟨b, e, a, he, hb⟩ := ih (by simpa using h)
          exact ⟨none :: b, e, a, by simp [he], by simpa using hb⟩
        · exact ⟨[], e, rest, rfl, by simp⟩
    obtain ⟨b, e, a, he, hb⟩ := key
    exact ⟨b, e, a, he, hb, by rw [he]; exact checked_of_fail hb⟩

/-! ## Reading an operand -/

/-- A written operand: its command goes on with its value. -/
theorem withOperand_of_limbs {s : State} {base n : Nat} {a : Nat → Nat} {k : Nat → StepResult}
    (h : HoldsLimbs s base n a) : withOperand s base n k = k (limbValue s.cfg.bits n a) := by
  have : s.operand base n = some (limbValue s.cfg.bits n a) := memRead_of_limbs h
  simp [withOperand, this]

/-- An operand with an unwritten word: FAULT. -/
theorem withOperand_of_unwritten {s : State} {base n : Nat} {k : Nat → StepResult}
    (h : HasUnwritten s base n) : withOperand s base n k = .fault .unwrittenWord := by
  have : s.operand base n = none := (memRead_eq_none_iff ..).mpr h
  simp [withOperand, this]

/-- A region is written, with some limbs below 2^B, or has an unwritten word. -/
theorem holdsLimbs_or_hasUnwritten (s : State) (base n : Nat) :
    (∃ a, HoldsLimbs s base n a ∧ ∀ i < n, a i < 2 ^ s.cfg.bits) ∨ HasUnwritten s base n := by
  by_cases h : HasUnwritten s base n
  · exact .inr h
  · have hw : ∀ i < n, s.word (base + i) = some ((s.word (base + i)).getD 0) := by
      intro i hi
      rcases hx : s.word (base + i) with _ | x
      · exact absurd ⟨i, hi, hx⟩ h
      · rfl
    exact .inl ⟨_, hw, fun i hi => loadWord_lt (hw i hi)⟩

/-- All that `withOperand` can do. -/
theorem withOperand_cases (s : State) (base n : Nat) (k : Nat → StepResult) :
    (∃ a, HoldsLimbs s base n a ∧ withOperand s base n k = k (limbValue s.cfg.bits n a)) ∨
      (HasUnwritten s base n ∧ withOperand s base n k = .fault .unwrittenWord) := by
  rcases holdsLimbs_or_hasUnwritten s base n with ⟨a, ha, _⟩ | h
  · exact .inl ⟨a, ha, withOperand_of_limbs ha⟩
  · exact .inr ⟨h, withOperand_of_unwritten h⟩

/-- The limbs of a written operand are below 2^B. -/
theorem HoldsLimbs.lt {s : State} {base n : Nat} {a : Nat → Nat} (h : HoldsLimbs s base n a) :
    ∀ i < n, a i < 2 ^ s.cfg.bits := fun i hi => loadWord_lt (h i hi)

/-- The value of a written operand is below 2^(n*B). -/
theorem HoldsLimbs.value_lt {s : State} {base n : Nat} {a : Nat → Nat} (h : HoldsLimbs s base n a) :
    limbValue s.cfg.bits n a < 2 ^ (n * s.cfg.bits) := limbValue_lt h.lt

/-! ## Writing a result -/

/-- `complete` of an operand write: the next state in full, and what its memory holds. -/
theorem complete_writeOperand (s : State) (base n v : Nat) :
    ∃ m, complete (s.writeOperand base n v) = .next { s.completed .ok with opmem := m } ∧
      Stores s m base n (limb s.cfg.bits v) :=
  ⟨_, rfl, stores_memWrite s base n v⟩

/-- `complete` of a fill. -/
theorem complete_fillOperand (s : State) (base n : Nat) {v : Nat} (hv : v < 2 ^ s.cfg.bits) :
    ∃ m, complete (s.fillOperand base n v) = .next { s.completed .ok with opmem := m } ∧
      Stores s m base n (fun _ => v) :=
  ⟨_, rfl, stores_memFill s base n hv⟩

/-- The value of the stored limbs is the value written, mod 2^(n*B). -/
theorem limbValue_of_limb (cfg : Config) (n v : Nat) :
    limbValue cfg.bits n (limb cfg.bits v) = v % 2 ^ (n * cfg.bits) := limbValue_limb _ _ _

end Sys2Proof.Machine
end

