-- ==== Sys2Proof/Laws/Checks.lean ====
section
/-! SUPPORT. Every command is a list of checks and a body: what the checks are, when they pass, and what completes when
one fails. -/

namespace Sys2Proof.Machine

/-- The check_param lines of each rule. -/
def paramChecks (i : Instr) (s : State) : List (Option Err) :=
  match i with
  | .wsetw => [checkParam (¬(s.lenN = 0 ∧ s.valV ≠ 0))]
  | .wtbit | .wsbit | .wfbit => [checkParam (s.posP < s.bitsL)]
  | .wgbits wd | .wsbits wd => [checkParam (wd ≤ s.cfg.bits), checkParam (s.posP + wd ≤ s.bitsL)]
  | .wshlc | .wshhc => [checkParam (s.posP ≤ s.bitsL)]
  | .wnaf w => [checkParam (2 ≤ w ∧ w < s.cfg.bits)]
  | .worec w | .wowf w => [checkParam (1 ≤ w ∧ w < s.cfg.bits), checkParam (1 ≤ s.lenN)]
  | .worsz w | .wowsz w => [checkParam (1 ≤ w ∧ w < s.cfg.bits)]
  | .bkexp octets => [checkParam (octets = 16 ∨ octets = 24 ∨ octets = 32)]
  | .wcopy | .wswap | .weq | .weqf | .wcmp | .wcmpf | .wcmpl | .wcmpw | .wisz | .wiszf | .wisw | .wisrep
  | .wxor | .wxora | .wzero | .wfill | .wswl | .wsbyl | .wsbl | .wlzc | .whzc | .wtrl | .wtrh | .benc
  | .bdec => []

/-- The regions of the check_range lines of each rule, in order. -/
def rangeRegions (i : Instr) (s : State) : List (Nat × Nat) :=
  match i with
  | .wcopy | .wxora => [(s.baseA, s.lenN), (s.baseD, s.lenN)]
  | .wswap | .weq | .weqf | .wcmp | .wcmpf => [(s.baseA, s.lenN), (s.baseB, s.lenN)]
  | .wcmpl => [(s.baseA, s.lenN), (s.baseB, s.lenM)]
  | .wxor => [(s.baseA, s.lenN), (s.baseB, s.lenN), (s.baseD, s.lenN)]
  | .wzero | .wsetw | .wfill => [(s.baseD, s.lenN)]
  | .wcmpw | .wisz | .wiszf | .wisw | .wisrep | .wswl | .wsbyl | .wsbl | .wtbit | .wgbits _ | .wsbit | .wsbits _
  | .wfbit | .wlzc | .whzc | .wshlc | .wshhc | .wtrl | .wtrh => [(s.baseA, s.lenN)]
  | .wnaf _ => [(s.baseA, s.lenN), (s.baseD, 2 * s.lenN + 1)]
  | .worec w => [(s.baseA, s.lenN), (s.baseD, orecWords s.cfg.bits s.lenN w)]
  | .wowf w => [(s.baseA, s.lenN), (s.baseD, owfWords s.cfg.bits s.lenN w)]
  | .worsz _ | .wowsz _ | .bkexp _ | .benc | .bdec => []

/-- The overlap checks of each rule. -/
def overlapChecks (i : Instr) (s : State) : List (Option Err) :=
  match i with
  | .wcopy | .wxora => [checkSameOrDisjoint s.baseA s.baseD s.lenN]
  | .wxor => [checkSameOrDisjoint s.baseA s.baseD s.lenN, checkSameOrDisjoint s.baseB s.baseD s.lenN]
  | .wswap => [checkDisjoint s.baseA s.lenN s.baseB s.lenN]
  | .wnaf _ => [checkDisjoint s.baseA s.lenN s.baseD (2 * s.lenN + 1)]
  | .worec w => [checkDisjoint s.baseA s.lenN s.baseD (orecWords s.cfg.bits s.lenN w)]
  | .wowf w => [checkDisjoint s.baseA s.lenN s.baseD (owfWords s.cfg.bits s.lenN w)]
  | .weq | .weqf | .wcmp | .wcmpf | .wcmpl | .wcmpw | .wisz | .wiszf | .wisw | .wisrep | .wzero | .wsetw | .wfill
  | .wswl | .wsbyl | .wsbl | .wtbit | .wgbits _ | .wsbit | .wsbits _ | .wfbit | .wlzc | .whzc | .wshlc | .wshhc
  | .wtrl | .wtrh | .worsz _ | .wowsz _ | .bkexp _ | .benc | .bdec => []

/-- The checks of each command in the order its rule lists them. -/
def checksOf (i : Instr) (s : State) : List (Option Err) :=
  paramChecks i s ++ ((rangeRegions i s).map fun r => checkRange s.cfg r.1 r.2) ++ overlapChecks i s

/-- Every command runs its checks and then a body. -/
theorem exec_eq_checked (i : Instr) (s : State) : ∃ body, exec i s = checked s (checksOf i s) body := by
  cases i <;> exact ⟨_, rfl⟩

theorem orecWords_eq_worecLength (s : State) (w : Nat) : orecWords s.cfg.bits s.lenN w = worecLength s w := rfl

theorem owfWords_eq_wowfLength (s : State) (w : Nat) : owfWords s.cfg.bits s.lenN w = wowfLength s w := rfl

theorem paramChecks_pass_iff (i : Instr) (s : State) : (∀ c ∈ paramChecks i s, c = none) ↔ ParamOk i s := by
  cases i <;> simp [paramChecks, ParamOk, checkParam_eq_none_iff, -Nat.not_le, -Nat.not_lt] <;>
    first | exact Iff.rfl | exact fun _ => Iff.rfl

theorem paramChecks_code (i : Instr) (s : State) : ∀ c ∈ paramChecks i s, c = none ∨ c = some .param := by
  cases i <;> simp [paramChecks, checkParam] <;> grind

theorem rangeChecks_pass_iff (i : Instr) (s : State) :
    (∀ c ∈ (rangeRegions i s).map fun r => checkRange s.cfg r.1 r.2, c = none) ↔ RangesOk i s := by
  cases i <;>
    simp only [rangeRegions, RangesOk, readRegions, storeRegions, List.forall_mem_map, checkRange_eq_none_iff,
      List.forall_mem_cons, List.forall_mem_append, List.not_mem_nil, orecWords_eq_worecLength,
      owfWords_eq_wowfLength, Fits] <;> grind

theorem rangeChecks_code (i : Instr) (s : State) :
    ∀ c ∈ (rangeRegions i s).map fun r => checkRange s.cfg r.1 r.2, c = none ∨ c = some .range := by
  simp only [List.forall_mem_map, checkRange]
  intro r _
  split_ifs <;> simp

theorem overlapChecks_pass_iff (i : Instr) (s : State) : (∀ c ∈ overlapChecks i s, c = none) ↔ OverlapsOk i s := by
  cases i <;>
    simp [overlapChecks, OverlapsOk, checkDisjoint_eq_none_iff, checkSameOrDisjoint_eq_none_iff,
      orecWords_eq_worecLength, owfWords_eq_wowfLength]

theorem overlapChecks_code (i : Instr) (s : State) : ∀ c ∈ overlapChecks i s, c = none ∨ c = some .overlap := by
  cases i <;> simp [overlapChecks, checkDisjoint, checkSameOrDisjoint] <;> grind

end Sys2Proof.Machine
end

