-- ==== Sys2Proof/Laws/Cipher.lean ====
section
/-! SUPPORT. The cipher's bindings and its two block commands. -/

namespace Sys2Proof.Machine

/-- Reading the roles of a row and writing them back is the identity. -/
theorem Row.scatter_gather (e : Row) (q : Quad) : e.scatter (e.gather q) = q := by cases e <;> rfl

/-- Writing the roles of a row and reading them back is the identity. -/
theorem Row.gather_scatter (e : Row) (q : Quad) : e.gather (e.scatter q) = q := by cases e <;> rfl

theorem quadOfBlk_blkOfQuad (q : Quad) : quadOfBlk (blkOfQuad q) = q := rfl

theorem blkOfQuad_quadOfBlk (b : Vector Reg32 4) : blkOfQuad (quadOfBlk b) = b := by
  apply Vector.ext
  intro i hi
  interval_cases i <;> rfl

/-- A round binds its roles by the row of the table and leaves the other words to the row's order. -/
theorem encRounds_succ (cfg : Config) (key : Vector Reg32 8) (t : Nat) (p : Quad) :
    encRounds cfg key (t + 1) p =
      (encRow (t + 1)).scatter
        (cipherRound cfg (t + 1) (encSubkey key (t + 1)) ((encRow (t + 1)).gather (encRounds cfg key t p))) := rfl

theorem decRounds_succ (cfg : Config) (key : Vector Reg32 8) (t : Nat) (p : Quad) :
    decRounds cfg key (t + 1) p =
      (decRow (t + 1)).scatter (cipherRound cfg (9 - (t + 1)) (decSubkey key (9 - (t + 1)))
        ((decRow (t + 1)).gather (decRounds cfg key t p))) := rfl

/-- BENC in full: BLK gets the encrypted block. -/
theorem exec_benc (s : State) :
    exec .benc s = .next { s.completed .ok with blk := blkOfQuad (encryptBlock s.cfg s.key (quadOfBlk s.blk)) } := rfl

/-- BDEC in full: BLK gets the decrypted block. -/
theorem exec_bdec (s : State) :
    exec .bdec s = .next { s.completed .ok with blk := blkOfQuad (decryptBlock s.cfg s.key (quadOfBlk s.blk)) } := rfl

end Sys2Proof.Machine
end

