-- ==== Sys2Proof/Laws/HostPort.lean ====
section
/-! SUPPORT. The slots of the register map by their offsets, and the host's turns as equations. -/

namespace Sys2Proof.Machine

/-- An offset reaches the slot of its slot address. -/
theorem slotOf_eq_slotAt {cfg : Config} {o : BitVec 28} {k : Nat} (h : o.toNat / 8 * 8 = 8 * k) :
    slotOf cfg o = slotAt cfg k := by
  have : slotNumber o = k := by simp only [slotNumber]; omega
  simp only [slotOf, this]

theorem slotOf_ctrl {cfg : Config} {o : BitVec 28} (h : o.toNat / 8 * 8 = 0x010) : slotOf cfg o = .ctrl :=
  slotOf_eq_slotAt (k := 2) h

theorem slotOf_status {cfg : Config} {o : BitVec 28} (h : o.toNat / 8 * 8 = 0x018) : slotOf cfg o = .status :=
  slotOf_eq_slotAt (k := 3) h

theorem slotOf_cmd {cfg : Config} {o : BitVec 28} (h : o.toNat / 8 * 8 = 0x020) : slotOf cfg o = .cmd :=
  slotOf_eq_slotAt (k := 4) h

theorem slotAt_key (cfg : Config) (j : Fin 8) : slotAt cfg (16 + j.val) = .key j := by fin_cases j <;> rfl

theorem slotAt_blk (cfg : Config) (j : Fin 4) : slotAt cfg (24 + j.val) = .blk j := by fin_cases j <;> rfl

theorem slotAt_opmem {cfg : Config} {i : Nat} (h : i < cfg.opmemWords) :
    slotAt cfg (0x1000000 + i) = .opmem i := by
  have hb : opmemBase / 8 = 0x1000000 := rfl
  unfold slotAt
  rw [hb]
  iterate 17 rw [if_neg (by omega)]
  rw [if_pos (by omega), Nat.add_sub_cancel_left]

theorem slotAt_reserved {cfg : Config} {k : Nat}
    (h : k = 15 ∨ (28 ≤ k ∧ k < 0x1000000) ∨ 0x1000000 + cfg.opmemWords ≤ k) : slotAt cfg k = .reserved := by
  have hb : opmemBase / 8 = 0x1000000 := rfl
  unfold slotAt
  rw [hb]
  iterate 18 rw [if_neg (by omega)]

/-- Every slot number is one of the register map's, or reserved. -/
theorem slotAt_cases (cfg : Config) (k : Nat) :
    k < 15 ∨ (∃ j : Fin 8, k = 16 + j.val) ∨ (∃ j : Fin 4, k = 24 + j.val) ∨
      (∃ i, i < cfg.opmemWords ∧ k = 0x1000000 + i) ∨
      (k = 15 ∨ (28 ≤ k ∧ k < 0x1000000) ∨ 0x1000000 + cfg.opmemWords ≤ k) := by
  by_cases h1 : k < 15
  · exact .inl h1
  by_cases h2 : 16 ≤ k ∧ k < 24
  · exact .inr (.inl ⟨⟨k - 16, by omega⟩, by simp only; omega⟩)
  by_cases h3 : 24 ≤ k ∧ k < 28
  · exact .inr (.inr (.inl ⟨⟨k - 24, by omega⟩, by simp only; omega⟩))
  by_cases h4 : 0x1000000 ≤ k ∧ k < 0x1000000 + cfg.opmemWords
  · exact .inr (.inr (.inr (.inl ⟨k - 0x1000000, by omega, by omega⟩)))
  · exact .inr (.inr (.inr (.inr (by omega))))

/-- The slot number of a slot in the register map. -/
def Slot.number : Slot → Nat
  | .id => 0
  | .cfg => 1
  | .ctrl => 2
  | .status => 3
  | .cmd => 4
  | .arg .ra => 5
  | .arg .rb => 6
  | .arg .rd => 7
  | .arg .rn => 8
  | .arg .rm => 9
  | .arg .rp => 10
  | .arg .rv => 11
  | .res => 12
  | .res2 => 13
  | .resw => 14
  | .key j => 16 + j.val
  | .blk j => 24 + j.val
  | .opmem i => 0x1000000 + i
  | .reserved => 15

/-- No two slots of the register map share a slot number. -/
theorem number_slotAt {cfg : Config} {k : Nat} (h : slotAt cfg k ≠ .reserved) : (slotAt cfg k).number = k := by
  rcases slotAt_cases cfg k with h1 | ⟨j, rfl⟩ | ⟨j, rfl⟩ | ⟨i, hi, rfl⟩ | h1
  · interval_cases k <;> rfl
  · rw [slotAt_key]; rfl
  · rw [slotAt_blk]; rfl
  · rw [slotAt_opmem hi]; rfl
  · exact absurd (slotAt_reserved h1) h

/-- The machine's slot at the offset of a register reads that register of the register map, and its read is defined while
BUSY = 1 exactly at the offsets up to 0x058. -/
theorem registerReads_slot {s : State} {o : BitVec 28} {r : Nat × Word} (hr : r ∈ registerReads s)
    (ho : o.toNat / 8 * 8 = r.1) :
    s.readSlot (slotOf s.cfg o) = some r.2 ∧
      ((slotOf s.cfg o).unspecifiedWhileBusy = false ↔ r.1 ≤ 0x058) := by
  have id : idWord s.cfg = 0x6265653200000100 + BitVec.ofNat 64 s.cfg.bits := by
    rcases s.cfg.bits_eq with h | h | h <;> simp only [idWord, h] <;> decide
  have ctrl : ctrlWord s.ie = if s.ie then 1 else 0 := by cases s.ie <;> rfl
  have status : statusWord s.status = BitVec.ofNat 64
      ((if s.status.busy then 1 else 0) + (if s.status.done then 2 else 0) +
        0x100 * completionCode s.status.err) := by
    obtain ⟨b, d, e⟩ := s.status
    cases b <;> cases d <;> cases e <;> decide
  have cfg : cfgWord s.cfg = (BitVec.ofNat 32 s.cfg.opmemWords).setWidth 64 := by
    apply BitVec.eq_of_toNat_eq; simp [cfgWord]
  rw [slotOf_eq_slotAt (k := r.1 / 8) (by omega)]
  clear ho
  simp only [registerReads, List.mem_append, List.mem_ofFn] at hr
  rcases hr with (hr | ⟨j, rfl⟩) | ⟨j, rfl⟩
  · simp only [List.mem_cons, List.not_mem_nil, or_false] at hr
    rcases hr with rfl | rfl | rfl | rfl | rfl | rfl | rfl | rfl | rfl | rfl | rfl | rfl | rfl | rfl | rfl <;>
      simp [slotAt, State.readSlot, Slot.unspecifiedWhileBusy, id, cfg, ctrl, status, Args.get]
  · rw [show (0x080 + 8 * j.val) / 8 = 16 + j.val by omega, slotAt_key]
    simp [State.readSlot, Slot.unspecifiedWhileBusy]; omega
  · rw [show (0x0C0 + 8 * j.val) / 8 = 24 + j.val by omega, slotAt_blk]
    simp [State.readSlot, Slot.unspecifiedWhileBusy]; omega

/-- A host write, said once: with the host allowed, the slot's write, unless the write breaks a busy duty. -/
theorem hostAccess_write {s : State} {o : BitVec 28} {v : Word} {sl : Slot} (hr : s.resetHeld = false)
    (hsl : slotOf s.cfg o = sl) (hb : s.status.busy = false ∨ busyDuty sl = none) :
    hostAccess s (.write o v) = .next (s.writeSlot sl v) := by
  subst hsl
  rcases hb with hb | hb <;> simp [hostAccess, hr, hostWrite, hb]

/-- A host write that breaks a busy duty. -/
theorem hostAccess_write_fault {s : State} {o : BitVec 28} {v : Word} {sl : Slot} {f : Fault}
    (hr : s.resetHeld = false) (hsl : slotOf s.cfg o = sl) (hb : s.status.busy = true) (hd : busyDuty sl = some f) :
    hostAccess s (.write o v) = .fault f := by
  subst hsl
  simp [hostAccess, hr, hostWrite, hb, hd]

/-- A host read of a slot whose value is defined. -/
theorem hostAccess_read {s : State} {o : BitVec 28} {sl : Slot} {x : Word} (hr : s.resetHeld = false)
    (hsl : slotOf s.cfg o = sl) (hb : s.status.busy = false ∨ sl.unspecifiedWhileBusy = false)
    (hx : s.readSlot sl = some x) : hostAccess s (.read o) = .next { s with busRead := some x } := by
  subst hsl
  rcases hb with hb | hb <;> simp [hostAccess, hr, hostRead, hb, hx]

/-- A host read of an unwritten OPMEM word with BUSY = 0. -/
theorem hostAccess_read_fault {s : State} {o : BitVec 28} {sl : Slot} (hr : s.resetHeld = false)
    (hsl : slotOf s.cfg o = sl) (hb : s.status.busy = false) (hx : s.readSlot sl = none) :
    hostAccess s (.read o) = .fault .unwrittenWord := by
  subst hsl
  simp [hostAccess, hr, hostRead, hb, hx]

/-- A host read that is unspecified while BUSY = 1. -/
theorem hostAccess_read_busy {s : State} {o : BitVec 28} {sl : Slot} (hr : s.resetHeld = false)
    (hsl : slotOf s.cfg o = sl) (hb : s.status.busy = true) (hu : sl.unspecifiedWhileBusy = true) :
    hostAccess s (.read o) =
      .next { s with busRead := some (busyRead s.cfg sl s.freeReads), freeReads := s.freeReads + 1 } := by
  subst hsl
  simp [hostAccess, hr, hostRead, hb, hu]

theorem busyRead_lt (cfg : Config) (sl : Slot) (n : Nat) : (busyRead cfg sl n).toNat < 2 ^ sl.width cfg := by
  simp only [busyRead, BitVec.toNat_ofNat]
  exact (Nat.mod_le _ _).trans_lt (Nat.mod_lt _ (by positivity))

/-! ## The step -/

theorem step_of_empty {s : State} (h : s.script = []) : step s = coreTurn s := by simp [step, nextTurn, h]

theorem step_of_turn {s : State} {t : Turn} {rest : List Turn} (h : s.script = t :: rest) :
    step s = takeTurn { s with script := rest } t := by simp [step, nextTurn, h]

theorem step_of_access {s : State} {a : HostAccess} {rest : List Turn} (h : s.script = .host a :: rest) :
    step s = hostAccess { s with script := rest } a := step_of_turn h

/-- What a slot reads does not depend on the script, the last read or the free values. -/
theorem readSlot_port (s : State) (script : List Turn) (busRead : Option Word) (freeReads : Nat) (sl : Slot) :
    State.readSlot { s with script := script, busRead := busRead, freeReads := freeReads } sl = s.readSlot sl := by
  cases sl <;> rfl

/-! ## A host access as a step -/

variable {s : State} {rest : List Turn} {o : BitVec 28} {sl : Slot}

theorem step_write {v : Word} (hs : s.script = .host (.write o v) :: rest) (hr : s.resetHeld = false)
    (hsl : slotOf s.cfg o = sl) (hb : s.status.busy = false ∨ busyDuty sl = none) :
    step s = .next (State.writeSlot { s with script := rest } sl v) :=
  (step_of_access hs).trans (hostAccess_write (s := { s with script := rest }) hr hsl hb)

theorem step_write_fault {v : Word} {f : Fault} (hs : s.script = .host (.write o v) :: rest)
    (hr : s.resetHeld = false) (hsl : slotOf s.cfg o = sl) (hb : s.status.busy = true) (hd : busyDuty sl = some f) :
    step s = .fault f :=
  (step_of_access hs).trans (hostAccess_write_fault (s := { s with script := rest }) hr hsl hb hd)

theorem step_read {x : Word} (hs : s.script = .host (.read o) :: rest) (hr : s.resetHeld = false)
    (hsl : slotOf s.cfg o = sl) (hb : s.status.busy = false ∨ sl.unspecifiedWhileBusy = false)
    (hx : s.readSlot sl = some x) : step s = .next { s with script := rest, busRead := some x } := by
  have hx' : State.readSlot { s with script := rest } sl = some x := by rw [← hx]; cases sl <;> rfl
  exact (step_of_access hs).trans (hostAccess_read (s := { s with script := rest }) hr hsl hb hx')

theorem step_read_fault (hs : s.script = .host (.read o) :: rest) (hr : s.resetHeld = false)
    (hsl : slotOf s.cfg o = sl) (hb : s.status.busy = false) (hx : s.readSlot sl = none) :
    step s = .fault .unwrittenWord := by
  have hx' : State.readSlot { s with script := rest } sl = none := by rw [← hx]; cases sl <;> rfl
  exact (step_of_access hs).trans (hostAccess_read_fault (s := { s with script := rest }) hr hsl hb hx')

theorem step_read_busy (hs : s.script = .host (.read o) :: rest) (hr : s.resetHeld = false)
    (hsl : slotOf s.cfg o = sl) (hb : s.status.busy = true) (hu : sl.unspecifiedWhileBusy = true) :
    step s = .next { s with
      script := rest, busRead := some (busyRead s.cfg sl s.freeReads), freeReads := s.freeReads + 1 } :=
  (step_of_access hs).trans (hostAccess_read_busy (s := { s with script := rest }) hr hsl hb hu)

end Sys2Proof.Machine
end

