-- ==== Sys2Proof/Laws/Operands.lean ====
section
/-! SUPPORT. What the arithmetic of the operands and the encodings of the results do: bit length, zero counts,
significant limbs, bit and mask operations, and the values that reach RES and RESW. -/

namespace Sys2Proof.Machine

/-! ## Lengths and counts -/

/-- All that `bitLen` says of a number. -/
theorem bitLen_spec (v : Nat) :
    v < 2 ^ bitLen v ∧ (0 < bitLen v → 2 ^ (bitLen v - 1) ≤ v) ∧ (bitLen v = 0 ↔ v = 0) := by
  simp only [bitLen]
  split_ifs with h
  · subst h; simp
  · exact ⟨Nat.lt_log2_self, fun _ => by simpa using Nat.log2_self_le h, by simp [h]⟩

theorem bitLen_le {v b : Nat} (h : v < 2 ^ b) : bitLen v ≤ b := by
  simp only [bitLen]
  split_ifs with h0
  · omega
  · have := (Nat.log2_lt h0).mpr h; omega

/-- The bit length is the only number with the property of `bitLen_spec`. -/
theorem bitLen_unique {v b : Nat} (h : v < 2 ^ b) (h2 : 0 < b → 2 ^ (b - 1) ≤ v) : bitLen v = b := by
  refine le_antisymm (bitLen_le h) ?_
  by_contra hc
  have h1 := (bitLen_spec v).1
  have h3 := h2 (by omega)
  have h4 : 2 ^ bitLen v ≤ 2 ^ (b - 1) := Nat.pow_le_pow_right (by omega) (by omega)
  omega

/-- All that `significantLimbs` says of the `n` low limbs of a number. -/
theorem significantLimbs_spec (bits v n : Nat) :
    significantLimbs bits v n ≤ n ∧ (∀ j < n, significantLimbs bits v n ≤ j → limb bits v j = 0) ∧
      (0 < significantLimbs bits v n → limb bits v (significantLimbs bits v n - 1) ≠ 0) := by
  induction n with
  | zero => simp [significantLimbs]
  | succ n ih =>
    simp only [significantLimbs]
    split_ifs with h
    · exact ⟨le_refl _, fun j h1 h2 => by omega, fun _ => h⟩
    · rw [not_not] at h
      refine ⟨by omega, fun j h1 h2 => ?_, ih.2.2⟩
      by_cases hj : j = n
      · subst hj; exact h
      · exact ih.2.1 j (by omega) h2

/-- All that `lowZeroBits` says of a number of at most `len` bits. -/
theorem lowZeroBits_spec {v len : Nat} (h : v < 2 ^ len) :
    lowZeroBits v len ≤ len ∧ (v = 0 → lowZeroBits v len = len) ∧
      (v ≠ 0 → 2 ^ lowZeroBits v len ∣ v ∧ ¬2 ^ (lowZeroBits v len + 1) ∣ v) := by
  induction len generalizing v with
  | zero => simp at h; subst h; simp [lowZeroBits]
  | succ n ih =>
    simp only [lowZeroBits]
    split_ifs with h1
    · exact ⟨by omega, by omega, fun _ => ⟨by simp, by simp; omega⟩⟩
    · obtain ⟨i1, i2, i3⟩ := ih (v := v / 2) (by rw [pow_succ] at h; omega)
      have e : v = 2 * (v / 2) := by omega
      refine ⟨by omega, fun h0 => by rw [i2 (by omega)]; omega, fun h0 => ?_⟩
      obtain ⟨j1, j2⟩ := i3 (by omega)
      generalize lowZeroBits (v / 2) n = t at j1 j2
      generalize v / 2 = u at e j1 j2
      subst e
      constructor
      · rw [Nat.add_comm, pow_succ, Nat.mul_comm]; exact Nat.mul_dvd_mul_left 2 j1
      · intro hd
        rw [Nat.add_comm 1, pow_succ, Nat.mul_comm] at hd
        exact j2 (Nat.dvd_of_mul_dvd_mul_left (by omega) hd)

/-- L = n * B is far below 2^32 for an operand inside OPMEM. -/
theorem lenBits_lt {s : State} {base n : Nat} (hw : s.cfg.wf) (h : Fits s base n) : n * s.cfg.bits < 2 ^ 31 := by
  have hb := s.cfg.bits_le
  obtain ⟨_, h2⟩ := hw
  simp only [Fits] at h
  calc n * s.cfg.bits ≤ 2 ^ 24 * 64 := Nat.mul_le_mul (by omega) hb
    _ < _ := by norm_num

/-! ## Bits and masks -/

theorem bitAt_eq (v i : Nat) : bitAt v i = if v.testBit i then 1 else 0 := by
  simp only [bitAt, Nat.testBit_eq_decide_div_mod_eq]
  rcases Nat.mod_two_eq_zero_or_one (v / 2 ^ i) with h | h <;> simp [h]

theorem testBit_clearMask (v mask j : Nat) : (clearMask v mask).testBit j = (v.testBit j && !mask.testBit j) := by
  simp only [clearMask, Nat.testBit_xor, Nat.testBit_and]
  cases v.testBit j <;> cases mask.testBit j <;> rfl

theorem limb_xor (bits v w i : Nat) : limb bits (v ^^^ w) i = limb bits v i ^^^ limb bits w i := by
  apply Nat.eq_of_testBit_eq
  intro j
  simp only [testBit_limb, Nat.testBit_xor]
  cases decide (j < bits) <;> simp

/-! ## Results -/

theorem compareResult_eq (x y : Nat) :
    compareResult x y = if y < x then 1 else if x < y then 0xFFFFFFFF else 0 := by
  simp only [compareResult, threeWay]; split_ifs <;> rfl

theorem getLsbD_wordResult (cfg : Config) (x j : Nat) :
    (wordResult cfg x).getLsbD j = (decide (j < cfg.bits) && x.testBit j) := by
  have := cfg.bits_le
  simp only [wordResult, BitVec.getLsbD_ofNat, Nat.testBit_mod_two_pow]
  by_cases h : j < cfg.bits
  · simp [h, show j < 64 by omega]
  · simp [h]

theorem wordResult_lt (cfg : Config) (x : Nat) : (wordResult cfg x).toNat < 2 ^ cfg.bits := by
  simp only [wordResult, BitVec.toNat_ofNat]
  exact (Nat.mod_le _ _).trans_lt (Nat.mod_lt _ (by positivity))

end Sys2Proof.Machine
end

