-- ==== Sys2Proof/Laws/PerInstr.lean ====
section
/-! SUPPORT. The family EncodedFields, said of every command: its word holds its opcode in OP, its parameter in W, and 0
in the reserved fields (30_encoding R121, R129). -/

namespace Sys2Proof.Laws

/-- The four fields of the word of a well-formed command (30_encoding R121). -/
def EncodedFields.Statement (i : Instr) : Prop :=
  i.WellFormed → cmdOp (encode i) = i.opcode ∧ cmdR0 (encode i) = 0 ∧ cmdW (encode i) = i.wField ∧
    cmdR1 (encode i) = 0

/-- A word built from an opcode below 64 and a parameter below 256 keeps both. -/
theorem EncodedFields.of_opcode_lt {i : Instr} (h : i.opcode < 64) : EncodedFields.Statement i := by
  intro hw
  simp only [Instr.WellFormed] at hw
  simp only [encode, cmdOp, cmdR0, cmdW, cmdR1, BitVec.toNat_ofNat]
  omega

theorem EncodedFields.wcopy : EncodedFields.Statement .wcopy := EncodedFields.of_opcode_lt (by decide)

theorem EncodedFields.wswap : EncodedFields.Statement .wswap := EncodedFields.of_opcode_lt (by decide)

theorem EncodedFields.weq : EncodedFields.Statement .weq := EncodedFields.of_opcode_lt (by decide)

theorem EncodedFields.weqf : EncodedFields.Statement .weqf := EncodedFields.of_opcode_lt (by decide)

theorem EncodedFields.wcmp : EncodedFields.Statement .wcmp := EncodedFields.of_opcode_lt (by decide)

theorem EncodedFields.wcmpf : EncodedFields.Statement .wcmpf := EncodedFields.of_opcode_lt (by decide)

theorem EncodedFields.wcmpl : EncodedFields.Statement .wcmpl := EncodedFields.of_opcode_lt (by decide)

theorem EncodedFields.wcmpw : EncodedFields.Statement .wcmpw := EncodedFields.of_opcode_lt (by decide)

theorem EncodedFields.wisz : EncodedFields.Statement .wisz := EncodedFields.of_opcode_lt (by decide)

theorem EncodedFields.wiszf : EncodedFields.Statement .wiszf := EncodedFields.of_opcode_lt (by decide)

theorem EncodedFields.wisw : EncodedFields.Statement .wisw := EncodedFields.of_opcode_lt (by decide)

theorem EncodedFields.wisrep : EncodedFields.Statement .wisrep := EncodedFields.of_opcode_lt (by decide)

theorem EncodedFields.wxor : EncodedFields.Statement .wxor := EncodedFields.of_opcode_lt (by decide)

theorem EncodedFields.wxora : EncodedFields.Statement .wxora := EncodedFields.of_opcode_lt (by decide)

theorem EncodedFields.wzero : EncodedFields.Statement .wzero := EncodedFields.of_opcode_lt (by decide)

theorem EncodedFields.wsetw : EncodedFields.Statement .wsetw := EncodedFields.of_opcode_lt (by decide)

theorem EncodedFields.wfill : EncodedFields.Statement .wfill := EncodedFields.of_opcode_lt (by decide)

theorem EncodedFields.wswl : EncodedFields.Statement .wswl := EncodedFields.of_opcode_lt (by decide)

theorem EncodedFields.wsbyl : EncodedFields.Statement .wsbyl := EncodedFields.of_opcode_lt (by decide)

theorem EncodedFields.wsbl : EncodedFields.Statement .wsbl := EncodedFields.of_opcode_lt (by decide)

theorem EncodedFields.wtbit : EncodedFields.Statement .wtbit := EncodedFields.of_opcode_lt (by decide)

theorem EncodedFields.wgbits (w : Nat) : EncodedFields.Statement (.wgbits w) :=
  EncodedFields.of_opcode_lt (by simp only [Instr.opcode]; omega)

theorem EncodedFields.wsbit : EncodedFields.Statement .wsbit := EncodedFields.of_opcode_lt (by decide)

theorem EncodedFields.wsbits (w : Nat) : EncodedFields.Statement (.wsbits w) :=
  EncodedFields.of_opcode_lt (by simp only [Instr.opcode]; omega)

theorem EncodedFields.wfbit : EncodedFields.Statement .wfbit := EncodedFields.of_opcode_lt (by decide)

theorem EncodedFields.wlzc : EncodedFields.Statement .wlzc := EncodedFields.of_opcode_lt (by decide)

theorem EncodedFields.whzc : EncodedFields.Statement .whzc := EncodedFields.of_opcode_lt (by decide)

theorem EncodedFields.wshlc : EncodedFields.Statement .wshlc := EncodedFields.of_opcode_lt (by decide)

theorem EncodedFields.wshhc : EncodedFields.Statement .wshhc := EncodedFields.of_opcode_lt (by decide)

theorem EncodedFields.wtrl : EncodedFields.Statement .wtrl := EncodedFields.of_opcode_lt (by decide)

theorem EncodedFields.wtrh : EncodedFields.Statement .wtrh := EncodedFields.of_opcode_lt (by decide)

theorem EncodedFields.wnaf (w : Nat) : EncodedFields.Statement (.wnaf w) :=
  EncodedFields.of_opcode_lt (by simp only [Instr.opcode]; omega)

theorem EncodedFields.worec (w : Nat) : EncodedFields.Statement (.worec w) :=
  EncodedFields.of_opcode_lt (by simp only [Instr.opcode]; omega)

theorem EncodedFields.worsz (w : Nat) : EncodedFields.Statement (.worsz w) :=
  EncodedFields.of_opcode_lt (by simp only [Instr.opcode]; omega)

theorem EncodedFields.wowf (w : Nat) : EncodedFields.Statement (.wowf w) :=
  EncodedFields.of_opcode_lt (by simp only [Instr.opcode]; omega)

theorem EncodedFields.wowsz (w : Nat) : EncodedFields.Statement (.wowsz w) :=
  EncodedFields.of_opcode_lt (by simp only [Instr.opcode]; omega)

theorem EncodedFields.bkexp (w : Nat) : EncodedFields.Statement (.bkexp w) :=
  EncodedFields.of_opcode_lt (by simp only [Instr.opcode]; omega)

theorem EncodedFields.benc : EncodedFields.Statement .benc := EncodedFields.of_opcode_lt (by decide)

theorem EncodedFields.bdec : EncodedFields.Statement .bdec := EncodedFields.of_opcode_lt (by decide)

end Sys2Proof.Laws
end

