-- ==== Sys2Proof/Laws/Recoding.lean ====
section
/-! SUPPORT. What one step of the recodings does: a NAF digit, an odd digit and its code, and one symbol of the NAF
code. The statements about whole recodings go by induction over these. -/

namespace Sys2Proof.Machine

theorem nafDigit_of_even {w k : Nat} (h : k % 2 = 0) : nafDigit w k = 0 := by simp [nafDigit, h]

/-- A nonzero NAF digit is odd, at most 2^(w-1) - 1 in size, and leaves a multiple of 2^w. -/
theorem nafDigit_of_odd {w k : Nat} (hw : 2 ≤ w) (h : k % 2 = 1) :
    nafDigit w k % 2 = 1 ∧ -(2 ^ (w - 1) - 1) ≤ nafDigit w k ∧ nafDigit w k ≤ 2 ^ (w - 1) - 1 ∧
      (2 : Int) ^ w ∣ (k : Int) - nafDigit w k := by
  obtain ⟨m, rfl⟩ : ∃ m, w = m + 2 := ⟨w - 2, by omega⟩
  have hp : (0 : Int) < 2 ^ m := by positivity
  have e1 : (2 : Int) ^ (m + 2) = 4 * 2 ^ m := by ring
  have e2 : (2 : Int) ^ (m + 2 - 1) = 2 * 2 ^ m := by rw [show m + 2 - 1 = m + 1 by omega]; ring
  have n1 : 2 ^ (m + 2) = 4 * 2 ^ m := by ring
  have n2 : 2 ^ (m + 2 - 1) = 2 * 2 ^ m := by rw [show m + 2 - 1 = m + 1 by omega]; ring
  have hd := Nat.div_add_mod k (2 ^ (m + 2))
  have hr : k % 2 ^ (m + 2) % 2 = 1 := by
    rw [Nat.mod_mod_of_dvd _ (Dvd.intro_left (2 ^ (m + 1)) (by ring))]; exact h
  have hlt : k % 2 ^ (m + 2) < 2 ^ (m + 2) := Nat.mod_lt _ (by positivity)
  have hk : (k : Int) = 2 ^ (m + 2) * ((k / 2 ^ (m + 2) : Nat) : Int) + ((k % 2 ^ (m + 2) : Nat) : Int) := by
    exact_mod_cast hd.symm
  simp only [nafDigit, h, if_true]
  generalize hq : k / 2 ^ (m + 2) = q at *
  generalize hx : k % 2 ^ (m + 2) = r at *
  have hpn : 0 < 2 ^ m := by positivity
  have hc : (((2 ^ m : Nat)) : Int) = 2 ^ m := by push_cast; rfl
  split_ifs with hc2
  · refine ⟨by omega, ?_, ?_, ⟨q, by rw [hk]; ring⟩⟩ <;> rw [e2, ← hc] <;> omega
  · refine ⟨?_, ?_, ?_, ⟨q + 1, by rw [hk]; ring⟩⟩
    · rw [e1, ← hc]; omega
    · rw [e1, e2, ← hc]; omega
    · rw [e1, e2, ← hc]; omega

/-- One symbol of the NAF code: a zero digit takes one bit, a nonzero one w bits at position p. -/
theorem nafEncodeFrom_cons (w : Nat) (d : Int) (rest : List Int) (p : Nat) :
    nafEncodeFrom w (d :: rest) p =
      if d = 0 then nafEncodeFrom w rest (p + 1)
      else (twosOf w d * 2 ^ p ||| (nafEncodeFrom w rest (p + w)).1, (nafEncodeFrom w rest (p + w)).2) := by
  simp only [nafEncodeFrom]

/-- The code of a digit of at most 2^w - 1 in size takes w bits. -/
theorem ocode_lt {w : Nat} {d : Int} (hw : 1 ≤ w) (h : d.natAbs ≤ 2 ^ w - 1) : ocode w d < 2 ^ w := by
  obtain ⟨m, rfl⟩ : ∃ m, w = m + 1 := ⟨w - 1, by omega⟩
  have e : 2 ^ (m + 1) = 2 * 2 ^ m := by ring
  have hp : 0 < 2 ^ m := by positivity
  simp only [ocode, Nat.add_sub_cancel]
  split_ifs <;> omega

/-- Decoding a digit's code gives the digit back (42_wordarray_recoding R410). -/
theorem decode_ocode {w : Nat} {d : Int} (hw : 1 ≤ w) (hd : d % 2 = 1) (h : d.natAbs ≤ 2 ^ w - 1) :
    (if ocode w d / 2 ^ (w - 1) % 2 = 1 then -(2 * ((ocode w d % 2 ^ (w - 1) : Nat) : Int) + 1)
      else 2 * ((ocode w d % 2 ^ (w - 1) : Nat) : Int) + 1) = d := by
  obtain ⟨m, rfl⟩ : ∃ m, w = m + 1 := ⟨w - 1, by omega⟩
  have e : 2 ^ (m + 1) = 2 * 2 ^ m := by ring
  have hp : 0 < 2 ^ m := by positivity
  have hx : (d.natAbs - 1) / 2 < 2 ^ m := by omega
  simp only [ocode, Nat.add_sub_cancel]
  by_cases hn : d < 0
  · rw [if_pos hn, Nat.add_div_left _ hp, Nat.div_eq_of_lt hx, Nat.add_mod_left, Nat.mod_eq_of_lt hx]
    simp; omega
  · rw [if_neg hn, Nat.zero_add, Nat.div_eq_of_lt hx, Nat.mod_eq_of_lt hx]
    simp; omega

/-- One digit of the odd recoding of an odd number: it is odd, below 2^w in size, and what is left after it is odd
again. -/
theorem orec_cons (w k a : Nat) :
    orec w (k + 2) a =
      (((a % 2 ^ (w + 1) : Nat) : Int) - 2 ^ w) ::
        orec w (k + 1) (((a : Int) - (((a % 2 ^ (w + 1) : Nat) : Int) - 2 ^ w)) / 2 ^ w).toNat := by
  simp only [orec]

end Sys2Proof.Machine
end

