-- ==== Sys2Proof/Machine/Assembler.lean ====
section
/-! DEFINITION. The host's command language (30_encoding R129, R130): each line expands to the host accesses it stands
for, and WAIT to polls of STATUS around the core's turn. Nothing of it is the core's; it says what a script written in
the assembly of the spec is. Log 21. -/

namespace Sys2Proof.Machine

/-- The offset of a slot in the register map (10_state R54); reserved stands for its first reserved slot, 0x078. -/
def slotOffset : Slot → BitVec 28
  | .id => 0x000
  | .cfg => 0x008
  | .ctrl => 0x010
  | .status => 0x018
  | .cmd => 0x020
  | .arg .ra => 0x028
  | .arg .rb => 0x030
  | .arg .rd => 0x038
  | .arg .rn => 0x040
  | .arg .rm => 0x048
  | .arg .rp => 0x050
  | .arg .rv => 0x058
  | .res => 0x060
  | .res2 => 0x068
  | .resw => 0x070
  | .key j => BitVec.ofNat 28 (0x080 + 8 * j.val)
  | .blk j => BitVec.ofNat 28 (0x0C0 + 8 * j.val)
  | .opmem i => BitVec.ofNat 28 (wordOffset i)
  | .reserved => 0x078

/-- `SET <reg>, <v>` (30_encoding R130). -/
def asmSet (sl : Slot) (v : Word) : List Turn := [.host (.write (slotOffset sl) v)]

/-- `GET <reg>` (30_encoding R130). -/
def asmGet (sl : Slot) : List Turn := [.host (.read (slotOffset sl))]

/-- `LDW <addr>, <v0>, <v1>, ...` (30_encoding R130). -/
def asmLdw (addr : Nat) : List Word → List Turn
  | [] => []
  | v :: rest => asmSet (.opmem addr) v ++ asmLdw (addr + 1) rest

/-- `STW <addr>, <k>` (30_encoding R130). -/
def asmStw (addr : Nat) : Nat → List Turn
  | 0 => []
  | k + 1 => asmGet (.opmem addr) ++ asmStw (addr + 1) k

/-- `WAIT` (30_encoding R130): `polls` reads of STATUS that find BUSY = 1, the core's transition, and the read that finds
BUSY = 0. -/
def asmWait (polls : Nat) : List Turn :=
  (List.replicate polls (asmGet .status)).flatten ++ [.core] ++ asmGet .status

/-- `MNEMONIC field=value ...` (30_encoding R129): the register writes in the order given, the CMD write, WAIT. -/
def asmCommand (polls : Nat) (i : Instr) (fields : List (ArgReg × Word)) : List Turn :=
  (fields.map fun f => asmSet (.arg f.1) f.2).flatten ++
    asmSet .cmd ((encode i).setWidth 64) ++ asmWait polls

/-- `WSHL` (30_encoding R130): `SET RV, 0`, then WSHLC. -/
def asmWshl (polls : Nat) (fields : List (ArgReg × Word)) : List Turn :=
  asmSet (.arg .rv) 0 ++ asmCommand polls .wshlc fields

/-- `WSHH` (30_encoding R130): `SET RV, 0`, then WSHHC. -/
def asmWshh (polls : Nat) (fields : List (ArgReg × Word)) : List Turn :=
  asmSet (.arg .rv) 0 ++ asmCommand polls .wshhc fields

/-- `pack(o, j)`: octets pack into 32-bit words little-endian (10_state R49, 30_encoding R130). -/
def packWord (o : List Byte) (j : Nat) : Reg32 :=
  BitVec.ofNat 32 ((o.getD (4 * j) 0).toNat + 2 ^ 8 * (o.getD (4 * j + 1) 0).toNat +
    2 ^ 16 * (o.getD (4 * j + 2) 0).toNat + 2 ^ 24 * (o.getD (4 * j + 3) 0).toNat)

/-- The four octets of a word, the reverse of `packWord` (10_state R49). -/
def unpackWord (x : Reg32) : List Byte :=
  [x.setWidth 8, (x >>> 8).setWidth 8, (x >>> 16).setWidth 8, (x >>> 24).setWidth 8]

/-- `LOADKEY <octets>` of 16, 24 or 32 octets (30_encoding R130): the key words, then BKEXP with W the key length. -/
def asmLoadkey (polls : Nat) (o : List Byte) : List Turn :=
  ((List.range (o.length / 4)).map fun j =>
    asmSet (.key (Fin.ofNat 8 j)) ((packWord o j).setWidth 64)).flatten ++
      asmCommand polls (.bkexp o.length) []

/-- The block words written, a cipher command, and the block words read (30_encoding R130). -/
def asmBlock (polls : Nat) (i : Instr) (o : List Byte) : List Turn :=
  ((List.range 4).map fun j => asmSet (.blk (Fin.ofNat 4 j)) ((packWord o j).setWidth 64)).flatten ++
    asmCommand polls i [] ++ ((List.range 4).map fun j => asmGet (.blk (Fin.ofNat 4 j))).flatten

/-- `ENCBLOCK <16 octets>` (30_encoding R130, 45_block_cipher R463). -/
def asmEncblock (polls : Nat) (o : List Byte) : List Turn := asmBlock polls .benc o

/-- `DECBLOCK <16 octets>` (30_encoding R130, 45_block_cipher R463). -/
def asmDecblock (polls : Nat) (o : List Byte) : List Turn := asmBlock polls .bdec o

end Sys2Proof.Machine
end

