-- ==== Sys2Proof/Tests/Slice0.lean ====
section
/-! SUPPORT. Tests on fixed values. Every expected value is one of spec/: the encodings of 30_encoding R126 and R131, the
examples in the rules, and the vectors of 95_test_vectors, whose number each test names. -/

namespace Sys2Proof.Tests

open Sys2Proof.Machine

set_option Elab.async false

/-! ## Well-formedness: W is an 8-bit field (30_encoding R121, R123) -/

theorem test_wgbits_w_256_is_refused : ¬(Instr.wgbits 256).WellFormed := by decide
theorem test_wsbits_w_256_is_refused : ¬(Instr.wsbits 256).WellFormed := by decide
theorem test_wnaf_w_256_is_refused : ¬(Instr.wnaf 256).WellFormed := by decide
theorem test_worec_w_256_is_refused : ¬(Instr.worec 256).WellFormed := by decide
theorem test_worsz_w_256_is_refused : ¬(Instr.worsz 256).WellFormed := by decide
theorem test_wowf_w_256_is_refused : ¬(Instr.wowf 256).WellFormed := by decide
theorem test_wowsz_w_256_is_refused : ¬(Instr.wowsz 256).WellFormed := by decide
theorem test_bkexp_w_256_is_refused : ¬(Instr.bkexp 256).WellFormed := by decide
theorem test_w_255_is_accepted : (Instr.wgbits 255).WellFormed := by decide

/-- OPMEM_WORDS is 1 to 2^24 (00_scope R10). -/
theorem test_config_without_words_is_refused : ¬({ Config.standard with opmemWords := 0 } : Config).wf := by
  simp [Config.wf]

theorem test_config_with_too_many_words_is_refused :
    ¬({ Config.standard with opmemWords := 2 ^ 24 + 1 } : Config).wf := by simp [Config.wf]

/-! ## Decoding: a word of every command, written out from 30_encoding R121 and R126: R1, W, R0, OP -/

theorem test_decode_move_compare :
    decode 0b0000000000000000_00000000_00_000001 = .ok .wcopy ∧
    decode 0b0000000000000000_00000000_00_000010 = .ok .wswap ∧
    decode 0b0000000000000000_00000000_00_000011 = .ok .weq ∧
    decode 0b0000000000000000_00000000_00_000100 = .ok .weqf ∧
    decode 0b0000000000000000_00000000_00_000101 = .ok .wcmp ∧
    decode 0b0000000000000000_00000000_00_000110 = .ok .wcmpf ∧
    decode 0b0000000000000000_00000000_00_000111 = .ok .wcmpl ∧
    decode 0b0000000000000000_00000000_00_001000 = .ok .wcmpw ∧
    decode 0b0000000000000000_00000000_00_001001 = .ok .wisz ∧
    decode 0b0000000000000000_00000000_00_001010 = .ok .wiszf ∧
    decode 0b0000000000000000_00000000_00_001011 = .ok .wisw ∧
    decode 0b0000000000000000_00000000_00_001100 = .ok .wisrep := by decide

theorem test_decode_xor_fill_length :
    decode 0b0000000000000000_00000000_00_001101 = .ok .wxor ∧
    decode 0b0000000000000000_00000000_00_001110 = .ok .wxora ∧
    decode 0b0000000000000000_00000000_00_001111 = .ok .wzero ∧
    decode 0b0000000000000000_00000000_00_010000 = .ok .wsetw ∧
    decode 0b0000000000000000_00000000_00_010001 = .ok .wfill ∧
    decode 0b0000000000000000_00000000_00_010010 = .ok .wswl ∧
    decode 0b0000000000000000_00000000_00_010011 = .ok .wsbyl ∧
    decode 0b0000000000000000_00000000_00_010100 = .ok .wsbl := by decide

theorem test_decode_bits :
    decode 0b0000000000000000_00000000_00_010101 = .ok .wtbit ∧
    decode 0b0000000000000000_00100000_00_010110 = .ok (.wgbits 32) ∧
    decode 0b0000000000000000_00000000_00_010111 = .ok .wsbit ∧
    decode 0b0000000000000000_00000100_00_011000 = .ok (.wsbits 4) ∧
    decode 0b0000000000000000_00000000_00_011001 = .ok .wfbit ∧
    decode 0b0000000000000000_00000000_00_011010 = .ok .wlzc ∧
    decode 0b0000000000000000_00000000_00_011011 = .ok .whzc ∧
    decode 0b0000000000000000_00000000_00_011100 = .ok .wshlc ∧
    decode 0b0000000000000000_00000000_00_011101 = .ok .wshhc ∧
    decode 0b0000000000000000_00000000_00_011110 = .ok .wtrl ∧
    decode 0b0000000000000000_00000000_00_011111 = .ok .wtrh := by decide

theorem test_decode_recoding :
    decode 0b0000000000000000_00000100_00_100000 = .ok (.wnaf 4) ∧
    decode 0b0000000000000000_00000101_00_100001 = .ok (.worec 5) ∧
    decode 0b0000000000000000_10000000_00_100010 = .ok (.worsz 128) ∧
    decode 0b0000000000000000_00000001_00_100011 = .ok (.wowf 1) ∧
    decode 0b0000000000000000_11111111_00_100100 = .ok (.wowsz 255) := by decide

theorem test_decode_cipher :
    decode 0b0000000000000000_00010000_00_110000 = .ok (.bkexp 16) ∧
    decode 0b0000000000000000_00000000_00_110001 = .ok .benc ∧
    decode 0b0000000000000000_00000000_00_110010 = .ok .bdec := by decide

/-- E-6 to E-12. -/
theorem test_decode_illegal :
    decode 0x00000000 = .error .unassignedOpcode ∧ decode 0x00000025 = .error .unassignedOpcode ∧
    decode 0x0000003F = .error .unassignedOpcode ∧ decode 0x0000004D = .error .reservedBits ∧
    decode 0x8000000D = .error .reservedBits ∧ decode 0x00010031 = .error .reservedBits ∧
    decode 0x0000010D = .error .unexpectedW := by decide

/-- The words of 30_encoding R131. -/
theorem test_encode_examples :
    encode .wxor = 0x0000000D ∧ encode (.wnaf 4) = 0x00000420 ∧ encode (.bkexp 16) = 0x00001030 := by decide

theorem test_decodeTableWord :
    decodeTableWord 32 0x0420 = some (.wnaf 4) ∧ decodeTableWord 16 0x0420 = some (.wnaf 4) ∧
    decodeTableWord 32 0x10420 = none := by decide

/-! ## The machine after reset -/

theorem test_reset_is_idle :
    (State.reset.status.busy, State.reset.status.done, State.reset.opmem.length) = (false, false, 0) := by
  decide +kernel

/-- The first command after reset is the one placed (WORSZ with w = 5 and n = 0 gives 0 digits and ERR = OK). -/
theorem test_withFetchWord_runs_the_word :
    (match step (State.reset.withFetchWord 32 0x0522) with
      | .next t => some (t.status, t.res)
      | _ => none) = some ({ busy := false, done := true, err := .ok }, 0) := by decide +kernel

/-! ## The S-box -/

/-- H is a permutation (45_block_cipher R452): 256 entries, none twice. -/
theorem test_sbox_is_a_permutation : beltSbox.toList.Nodup := by decide +kernel

/-- G5(0) and G5(0x01020304) (45_block_cipher R454). -/
theorem test_g5 :
    g5 Config.standard 0 = 0x36363636 ∧ g13 Config.standard 0 = 0x36363636 ∧ g21 Config.standard 0 = 0x36363636 ∧
    g5 Config.standard 0x01020304 = 0x97590152 := by decide +kernel

/-! ## One command on a small state -/

/-- OPMEM with words from address `i` up. -/
def loaded (cfg : Config) (i : Nat) : List Nat → Memory
  | [] => []
  | v :: rest => storeWord cfg (loaded cfg (i + 1) rest) i v

/-- A build with 64 words, a latch with these registers, and OPMEM loaded from address 0. -/
def small (width : WordWidth) (words : List Nat) (ra rb rd rn rp : Reg32) (rv : Word) : State :=
  let cfg := { Config.standard with width := width }
  let args : Args := { ra := ra, rb := rb, rd := rd, rn := rn, rm := 3, rp := rp, rv := rv }
  { State.powerOn cfg with
    args := args
    latch := { cmd := 0, args := args }
    status := { busy := true, done := false, err := .ok }
    opmem := loaded cfg 0 words }

/-- ERR and RES after a command that goes on. -/
def errRes : StepResult → Option (Err × Reg32)
  | .next t => some (t.status.err, t.res)
  | _ => none

/-- ERR, RESW and `n` OPMEM words from `base` up after a command that goes on. -/
def errMem (base n : Nat) : StepResult → Option (Err × Word × List (Option Nat))
  | .next t => some (t.status.err, t.resw, (List.range n).map fun i => t.word (base + i))
  | _ => none

/-- The fault a command ends in. -/
def faultOf : StepResult → Option Fault
  | .fault f => some f
  | _ => none

/-- B-1. -/
theorem test_wcopy : errMem 4 2 (exec .wcopy (small .w32 [0x11111111, 0x22222222] 0 0 4 2 0 0)) =
    some (.ok, 0, [some 0x11111111, some 0x22222222]) := by decide +kernel

/-- B-2. -/
theorem test_wcopy_overlap : errMem 0 3 (exec .wcopy (small .w32 [1, 2, 3] 0 0 1 2 0 0)) =
    some (.overlap, 0, [some 1, some 2, some 3]) := by decide +kernel

/-- B-6. -/
theorem test_wswap : errMem 0 2 (exec .wswap (small .w16 [0x1234, 0xABCD] 0 1 0 1 0 0)) =
    some (.ok, 0, [some 0xABCD, some 0x1234]) := by decide +kernel

/-- B-9. -/
theorem test_weq : errRes (exec .weq (small .w32 [5, 7, 5, 7] 0 2 0 2 0 0)) = some (.ok, 1) := by decide +kernel

/-- B-51. -/
theorem test_weq_unwritten : faultOf (exec .weq (small .w32 [5] 0 1 0 1 0 0)) = some .unwrittenWord := by
  decide +kernel

/-- B-10. -/
theorem test_weqf : errRes (exec .weqf (small .w32 [5, 7, 5, 8] 0 2 0 2 0 0)) = some (.ok, 0) := by decide +kernel

/-- B-12. -/
theorem test_wcmp : errRes (exec .wcmp (small .w32 [0, 2, 0xFFFFFFFF, 1] 0 2 0 2 0 0)) = some (.ok, 1) := by
  decide +kernel

/-- B-13. -/
theorem test_wcmpf : errRes (exec .wcmpf (small .w32 [0xFFFFFFFF, 0, 0, 1] 0 2 0 2 0 0)) =
    some (.ok, 0xFFFFFFFF) := by decide +kernel

/-- B-16: RM is 3. -/
theorem test_wcmpl : errRes (exec .wcmpl (small .w32 [5, 5, 0, 1] 0 1 0 1 0 0)) = some (.ok, 0xFFFFFFFF) := by
  decide +kernel

/-- B-19. -/
theorem test_wcmpw : errRes (exec .wcmpw (small .w16 [0, 1] 0 0 0 2 0 0xFFFF)) = some (.ok, 1) := by decide +kernel

/-- B-23: the empty operand. -/
theorem test_wisz : errRes (exec .wisz (small .w32 [] 0 0 0 0 0 0)) = some (.ok, 1) := by decide +kernel

/-- B-22. -/
theorem test_wiszf : errRes (exec .wiszf (small .w32 [0, 0x80, 0] 0 0 0 3 0 0)) = some (.ok, 0) := by decide +kernel

/-- B-25. -/
theorem test_wisw : errRes (exec .wisw (small .w32 [9, 1] 0 0 0 2 0 9)) = some (.ok, 0) := by decide +kernel

/-- B-27. -/
theorem test_wisrep : errRes (exec .wisrep (small .w16 [0xABAB, 0xABAB, 0xABAB] 0 0 0 3 0 0xABAB)) =
    some (.ok, 1) := by decide +kernel

/-- B-30: the empty operand. -/
theorem test_wisrep_empty : errRes (exec .wisrep (small .w16 [] 0 0 0 0 0 5)) = some (.ok, 0) := by decide +kernel

/-- B-32: in place. -/
theorem test_wxor : errMem 0 2 (exec .wxor (small .w32 [0xF0F0F0F0, 1, 0x0F0F0F0F, 3] 0 2 0 2 0 0)) =
    some (.ok, 0, [some 0xFFFFFFFF, some 2]) := by decide +kernel

/-- B-35. -/
theorem test_wxora : errMem 0 2 (exec .wxora (small .w16 [0x0F0F, 0x00FF] 0 0 1 1 0 0)) =
    some (.ok, 0, [some 0x0F0F, some 0x0FF0]) := by decide +kernel

/-- B-37: the words around stay unwritten. -/
theorem test_wzero : errMem 2 5 (exec .wzero (small .w32 [] 0 0 3 3 0 0)) =
    some (.ok, 0, [none, some 0, some 0, some 0, none]) := by decide +kernel

/-- B-38. -/
theorem test_wsetw : errMem 0 3 (exec .wsetw (small .w32 [] 0 0 0 3 0 0x12345678)) =
    some (.ok, 0, [some 0x12345678, some 0, some 0]) := by decide +kernel

/-- B-40: PARAM comes before RANGE. -/
theorem test_wsetw_param : errRes (exec .wsetw (small .w32 [] 0 0 100 0 0 1)) = some (.param, 0) := by
  decide +kernel

/-- B-42. -/
theorem test_wfill : errMem 0 2 (exec .wfill (small .w16 [] 0 0 0 2 0 0xBEE2)) =
    some (.ok, 0, [some 0xBEE2, some 0xBEE2]) := by decide +kernel

/-- B-43. -/
theorem test_wswl : errRes (exec .wswl (small .w32 [1, 0, 5, 0] 0 0 0 4 0 0)) = some (.ok, 3) := by decide +kernel

/-- B-46. -/
theorem test_wsbyl : errRes (exec .wsbyl (small .w32 [0, 1] 0 0 0 2 0 0)) = some (.ok, 5) := by decide +kernel

/-- B-47. -/
theorem test_wsbl : errRes (exec .wsbl (small .w32 [0, 0x80000000] 0 0 0 2 0 0)) = some (.ok, 64) := by
  decide +kernel

/-- T-1. -/
theorem test_wtbit : errRes (exec .wtbit (small .w32 [0, 4] 0 0 0 2 34 0)) = some (.ok, 1) := by decide +kernel

/-- T-3. -/
theorem test_wtbit_param : errRes (exec .wtbit (small .w32 [0, 4] 0 0 0 2 64 0)) = some (.param, 0) := by
  decide +kernel

/-- T-9. -/
theorem test_wgbits : errMem 0 1 (exec (.wgbits 32) (small .w32 [0x12345678, 0x9ABCDEF0] 0 0 0 2 16 0)) =
    some (.ok, 0xDEF01234, [some 0x12345678]) := by decide +kernel

/-- T-12: only bit 0 of RV. -/
theorem test_wsbit : errMem 0 2 (exec .wsbit (small .w16 [0xFFFF, 0xFFFF] 0 0 0 2 0 0xFFFE)) =
    some (.ok, 0, [some 0xFFFE, some 0xFFFF]) := by decide +kernel

/-- T-13. -/
theorem test_wsbits : errMem 0 2 (exec (.wsbits 4) (small .w32 [0xFFFFFFFF, 0xFFFFFFFF] 0 0 0 2 30 5)) =
    some (.ok, 0, [some 0x7FFFFFFF, some 0xFFFFFFFD]) := by decide +kernel

/-- T-16. -/
theorem test_wfbit : errMem 0 1 (exec .wfbit (small .w16 [0x8001] 0 0 0 1 15 0)) =
    some (.ok, 0, [some 0x0001]) := by decide +kernel

/-- T-18. -/
theorem test_wlzc : errRes (exec .wlzc (small .w32 [0, 0x10] 0 0 0 2 0 0)) = some (.ok, 36) := by decide +kernel

/-- T-22. -/
theorem test_whzc : errRes (exec .whzc (small .w32 [1, 0x00010000] 0 0 0 2 0 0)) = some (.ok, 15) := by
  decide +kernel

/-- S-5: a shift past one word. -/
theorem test_wshlc : errMem 0 2 (exec .wshlc (small .w32 [0x89ABCDEF, 0x01234567] 0 0 0 2 40 0x12345678)) =
    some (.ok, 0x6789ABCD, [some 0x78012345, some 0x00123456]) := by decide +kernel

/-- S-12: a shift past one word. -/
theorem test_wshhc : errMem 0 2 (exec .wshhc (small .w32 [0x89ABCDEF, 0x01234567] 0 0 0 2 40 0x12345678)) =
    some (.ok, 0x23456789, [some 0x34567800, some 0xABCDEF12]) := by decide +kernel

/-- R-1. -/
theorem test_wtrl : errMem 0 2 (exec .wtrl (small .w16 [0xFFFF, 0xFFFF] 0 0 0 2 20 0)) =
    some (.ok, 0, [some 0, some 0xFFF0]) := by decide +kernel

/-- R-4. -/
theorem test_wtrh : errMem 0 2 (exec .wtrh (small .w16 [0xFFFF, 0xFFFF] 0 0 0 2 20 0)) =
    some (.ok, 0, [some 0xFFFF, some 0x000F]) := by decide +kernel

/-- N-4: the rewrite at the top. -/
theorem test_naf_digits : naf 3 43 = [3, 0, 0, 1, 0, 1] ∧ naf 3 23 = [-1, 0, 0, 3] := by decide +kernel

/-- N-4. -/
theorem test_wnaf :
    errMem 4 3 (exec (.wnaf 3) (small .w32 [43] 0 0 4 1 0 0)) = some (.ok, 0, [some 0x611, some 0, some 0]) ∧
    errRes (exec (.wnaf 3) (small .w32 [43] 0 0 4 1 0 0)) = some (.ok, 6) := by decide +kernel

/-- O-2. -/
theorem test_worec :
    errMem 4 1 (exec (.worec 4) (small .w16 [0x1235] 0 0 4 1 0 0)) = some (.ok, 0, [some 0x01E2]) ∧
    errRes (exec (.worec 4) (small .w16 [0x1235] 0 0 4 1 0 0)) = some (.ok, 4) := by decide +kernel

/-- O-7. -/
theorem test_worec_even : faultOf (exec (.worec 4) (small .w16 [0x0002] 0 0 4 1 0 0)) = some .evenInput := by
  decide +kernel

/-- The example of 42_wordarray_recoding R407. -/
theorem test_worsz : errRes (exec (.worsz 5) (small .w32 [] 0 0 0 8 0 0)) = some (.ok, 52) := by decide +kernel

/-- The example of 42_wordarray_recoding R408: A = 0x8001 needs more than k' * w = 15 bits. -/
theorem test_wowf_too_big : faultOf (exec (.wowf 5) (small .w16 [0x8001] 0 0 4 1 0 0)) = some .owfPrecondition := by
  decide +kernel

/-- The example of 42_wordarray_recoding R408: A = 0x7FFF has 3 digits. -/
theorem test_wowf : errRes (exec (.wowf 5) (small .w16 [0x7FFF] 0 0 4 1 0 0)) = some (.ok, 3) := by decide +kernel

/-- The example of 42_wordarray_recoding R409. -/
theorem test_wowsz : errRes (exec (.wowsz 5) (small .w32 [] 0 0 0 8 0 0)) = some (.ok, 51) := by decide +kernel

/-- 45_block_cipher R460, for 24 octets. -/
theorem test_bkexp :
    (expandKey 24 #v[1, 2, 4, 8, 16, 32, 77, 88]).toList = [1, 2, 4, 8, 16, 32, 7, 56] := by decide +kernel

/-- V1 (L1.3). -/
theorem test_benc :
    encryptBlock Config.standard
      #v[0x2CE7DEE9, 0xA60F0C8F, 0xF449DB2D, 0x4796736F, 0x16530706, 0x377A24ED, 0x83A3CB39, 0xF68BA903]
      { p0 := 0xC8BA94B1, p1 := 0x3BF5080A, p2 := 0x8E006D36, p3 := 0xE45D4A58 } =
    { p0 := 0xC9A1CC69, p1 := 0xE3C95735, p2 := 0xE0C36BD6, p3 := 0x6EFA88FA } := by decide +kernel

/-- V2 (L1.3). -/
theorem test_bdec :
    decryptBlock Config.standard
      #v[0x1C9BBD92, 0x0141D1E5, 0xC9FB4554, 0xF20E4D5E, 0xAA802068, 0x2F647D22, 0x34F98726, 0x11554090]
      { p0 := 0x1ADC2BE1, p1 := 0xEC5782E2, p2 := 0xF0CC3F70, p3 := 0xF18DEE95 } =
    { p0 := 0x0630C50D, p1 := 0x40B8CA00, p2 := 0xE54884B3, p3 := 0x21F493E9 } := by decide +kernel

/-- The octets of V1's plaintext pack to its words (30_encoding R130, 10_state R49). -/
theorem test_packWord :
    packWord [0xB1, 0x94, 0xBA, 0xC8, 0x0A, 0x08, 0xF5, 0x3B] 0 = 0xC8BA94B1 ∧
    packWord [0xB1, 0x94, 0xBA, 0xC8, 0x0A, 0x08, 0xF5, 0x3B] 1 = 0x3BF5080A ∧
    unpackWord 0xC8BA94B1 = [0xB1, 0x94, 0xBA, 0xC8] := by decide +kernel

/-- The host accesses of 30_encoding R131. -/
theorem test_assembly_of_wxor :
    asmCommand 0 .wxor [(.rd, 0x20), (.ra, 0), (.rb, 0x10), (.rn, 4)] =
      [.host (.write 0x038 0x20), .host (.write 0x028 0), .host (.write 0x030 0x10), .host (.write 0x040 4),
        .host (.write 0x020 0x0D), .core, .host (.read 0x018)] := by decide +kernel

/-! ## Witnesses: for each statement with hypotheses, a state and operands that meet all of them

A clause with a range of its own is met at a boundary of it. -/

/-- A pending command in the 64-word build with B = 32: A = {5, 9} at 0, {5, 7} at 4, {1, 2} at 8, all else to 12 zero;
RA = 0, RB = 4, RN = 2, RM = 1. -/
def pending (c : Reg32) (rd rp : Reg32) (rv : Word) : State :=
  let args : Args := { ra := 0, rb := 4, rd := rd, rn := 2, rm := 1, rp := rp, rv := rv }
  { State.powerOn Config.standard with
    args := args
    cmd := c
    latch := { cmd := c, args := args }
    status := { busy := true, done := false, err := .ok }
    opmem := loaded Config.standard 0 [5, 9, 0, 0, 5, 7, 0, 0, 1, 2, 0, 0, 0] }

/-- The same state with no command pending, and with OPMEM word 63 written. -/
def idle (script : List Turn) : State :=
  { State.powerOn Config.standard with opmem := storeWord Config.standard [] 63 7, script := script }

/-- The limbs {5, 9}. -/
def limbsA (i : Nat) : Nat := if i = 0 then 5 else 9

/-- The limbs {5, 7}. -/
def limbsB (i : Nat) : Nat := if i = 0 then 5 else 7

/-- The limbs {1, 2}. -/
def limbsD (i : Nat) : Nat := if i = 0 then 1 else 2

/-- The answer is a next state. -/
def goesOn : StepResult → Bool
  | .next _ => true
  | _ => false

theorem exists_of_goesOn {r : StepResult} (h : goesOn r = true) : ∃ t, r = .next t := by
  cases r with
  | next t => exact ⟨t, rfl⟩
  | fault f => simp [goesOn] at h
  | refused q => simp [goesOn] at h

theorem eq_of_faultOf {r : StepResult} {f : Fault} (h : faultOf r = some f) : r = .fault f := by
  cases r with
  | next t => simp [faultOf] at h
  | fault g => simp [faultOf] at h; rw [h]
  | refused q => simp [faultOf] at h

theorem exists_of_errRes {r : StepResult} {e : Err} {v : Reg32} (h : errRes r = some (e, v)) :
    ∃ t, r = .next t ∧ t.status.err = e := by
  cases r with
  | next t => simp [errRes] at h; exact ⟨t, rfl, h.1⟩
  | fault g => simp [errRes] at h
  | refused q => simp [errRes] at h

theorem apart {b1 l1 b2 l2 : Nat} (h : regionsOverlap b1 l1 b2 l2 = false) : ¬Overlap b1 l1 b2 l2 := by
  rw [← regionsOverlap_iff, h]; decide

theorem meets {b1 l1 b2 l2 : Nat} (h : regionsOverlap b1 l1 b2 l2 = true) : Overlap b1 l1 b2 l2 :=
  (regionsOverlap_iff ..).mp h

theorem passes {i : Instr} {s : State} (h : ∀ c ∈ checksOf i s, c = none) : ChecksPass i s :=
  ⟨(paramChecks_pass_iff i s).mp fun c hc => h c (by simp only [checksOf, List.mem_append]; tauto),
    (rangeChecks_pass_iff i s).mp fun c hc => h c (by simp only [checksOf, List.mem_append]; tauto),
    (overlapChecks_pass_iff i s).mp fun c hc => h c (by simp only [checksOf, List.mem_append]; tauto)⟩

theorem loaded_shape (cfg : Config) (words : List Nat) (i : Nat) (h : i + words.length ≤ cfg.opmemWords) :
    MemoryShape cfg (loaded cfg i words) := by
  induction words generalizing i with
  | nil => exact memoryShape_nil cfg
  | cons v rest ih =>
    simp only [List.length_cons] at h
    exact MemoryShape.storeWord (ih (i + 1) (by omega)) v (by omega)

/-! ### Encoding and the machine -/

theorem witness_DecodeOfEncodeIsTheCommand : (Instr.wgbits 255).WellFormed ∧ Instr.wcopy.WellFormed := by decide

theorem witness_EncodeOfDecodeIsTheWord : decode 0x0000FF16 = .ok (.wgbits 255) := by decide

theorem witness_LegalWordsAreThoseOfTheOpcodeMap :
    ((pending 0x25 8 0 0).status.busy = true ∧ legal (pending 0x25 8 0 0).latch.cmd = false) ∧
    ((Instr.wnaf 32).WellFormed ∧ ¬ParamOk (.wnaf 32) (pending 0 8 0 0)) ∧
    ((Instr.wsbits 255).WellFormed ∧ ¬ParamOk (.wsbits 255) (pending 0 8 0 0)) := by
  refine ⟨by decide +kernel, ⟨by decide, ?_⟩, ⟨by decide, ?_⟩⟩ <;>
    (rw [← paramChecks_pass_iff]; decide +kernel)

theorem witness_StepRunsTheNextTurn :
    (idle [.host (.read 0), .core]).script = [.host (.read 0), .core] ∧ (idle [.core]).script = [.core] ∧
    (idle []).script = [] ∧
    ((pending 0x05 8 0 0).status.busy = true ∧ decode (pending 0x05 8 0 0).latch.cmd = .ok .wcmp) ∧
    (idle []).status.busy = false := by decide +kernel

theorem witness_FirstFailingCheckSetsErr :
    ((pending 0x25 8 0 0).status.busy = true ∧ legal (pending 0x25 8 0 0).latch.cmd = false) ∧
    ¬ParamOk (.wnaf 1) (pending 0 8 0 0) ∧
    (ParamOk .wcopy (pending 0 63 0 0) ∧ ¬RangesOk .wcopy (pending 0 63 0 0)) ∧
    (ParamOk .wcopy (pending 0 1 0 0) ∧ RangesOk .wcopy (pending 0 1 0 0) ∧
      ¬OverlapsOk .wcopy (pending 0 1 0 0)) := by
  refine ⟨by decide +kernel, ?_, ⟨trivial, ?_⟩, trivial, ?_, ?_⟩
  · rw [← paramChecks_pass_iff]; decide +kernel
  · rw [← rangeChecks_pass_iff]; decide +kernel
  · rw [← rangeChecks_pass_iff]; decide +kernel
  · rw [← overlapChecks_pass_iff]; decide +kernel

theorem witness_UnwrittenReadsFault :
    (ChecksPass .wxora (pending 0 12 0 0) ∧
      ∃ r ∈ readRegions .wxora (pending 0 12 0 0), HasUnwritten (pending 0 12 0 0) r.1 r.2) ∧
    ((idle [.host (.read 0x80001F8)]).resetHeld = false ∧
      (idle [.host (.read 0x80001F8)]).status.busy = false ∧ 63 < Config.standard.opmemWords ∧
      (0x80001F8 : BitVec 28).toNat / 8 * 8 = 0x8000000 + 8 * 63 ∧
      (idle [.host (.read 0x80001F8)]).word 63 = some 7) ∧
    ((0x8000000 : BitVec 28).toNat / 8 * 8 = 0x8000000 + 8 * 0 ∧ (idle [.host (.read 0x8000000)]).word 0 = none) :=
  ⟨⟨passes (by decide +kernel), (12, 2), by decide +kernel, 1, by decide, by decide +kernel⟩, by decide +kernel,
    by decide +kernel⟩

/-- {6, 9} is even, and {5, 9} is not below 2^(2*31). -/
theorem witness_UndefinedRecodingInputsFault :
    (ChecksPass (.worec 5) (small .w32 [6, 9] 0 0 8 2 0 0) ∧
      HoldsLimbs (small .w32 [6, 9] 0 0 8 2 0 0) 0 2 (fun i => if i = 0 then 6 else 9) ∧
      limbValue 32 2 (fun i => if i = 0 then 6 else 9) % 2 = 0) ∧
    (ChecksPass (.wowf 5) (small .w32 [6, 9] 0 0 8 2 0 0) ∧
      HoldsLimbs (small .w32 [6, 9] 0 0 8 2 0 0) 0 2 (fun i => if i = 0 then 6 else 9)) ∧
    (ChecksPass (.wowf 31) (small .w32 [5, 2 ^ 30] 0 0 8 2 0 0) ∧
      HoldsLimbs (small .w32 [5, 2 ^ 30] 0 0 8 2 0 0) 0 2 (fun i => if i = 0 then 5 else 2 ^ 30) ∧
      2 ^ (2 * 32 / 31 * 31) ≤ limbValue 32 2 (fun i => if i = 0 then 5 else 2 ^ 30)) :=
  ⟨⟨passes (by decide +kernel), by decide +kernel, by decide +kernel⟩,
    ⟨passes (by decide +kernel), by decide +kernel⟩,
    ⟨passes (by decide +kernel), by decide +kernel, by decide +kernel⟩⟩

theorem witness_ErrorsArePrecise :
    (pending 0x01 63 0 0).status.busy = true ∧
      ∃ t, coreTurn (pending 0x01 63 0 0) = .next t ∧ t.status.err = .range :=
  ⟨rfl, exists_of_errRes (v := 0) (by decide +kernel)⟩

theorem witness_CommandsChangeOnlyWhatTheirRuleNames : ∃ t, exec .wshlc (pending 0 8 64 0) = .next t :=
  exists_of_goesOn (by decide +kernel)

theorem witness_CommandsWithGoodOperandsComplete :
    (ChecksPass .wcmpl (pending 0 8 0 0) ∧
      ∀ r ∈ readRegions .wcmpl (pending 0 8 0 0), ¬HasUnwritten (pending 0 8 0 0) r.1 r.2) ∧
    (ChecksPass (.wowf 31) (pending 0 8 0 0) ∧
      (∀ r ∈ readRegions (.wowf 31) (pending 0 8 0 0), ¬HasUnwritten (pending 0 8 0 0) r.1 r.2) ∧
      HoldsLimbs (pending 0 8 0 0) 0 2 limbsA ∧ limbValue 32 2 limbsA % 2 = 1 ∧
      limbValue 32 2 limbsA < 2 ^ (2 * 32 / 31 * 31)) :=
  ⟨⟨passes (by decide +kernel), by decide +kernel⟩, passes (by decide +kernel), by decide +kernel,
    by decide +kernel, by decide +kernel, by decide +kernel⟩

theorem witness_FaultsComeOnlyFromTheCasesOfTheSpec :
    step { idle [.host (.read 0)] with resetHeld := true } = .fault .accessInReset ∧
    step { pending 1 8 0 0 with script := [.host (.write 0x027 0)] } = .fault .commandWhileBusy ∧
    step { pending 1 8 0 0 with script := [.host (.write 0x028 0)] } = .fault .writeWhileBusy ∧
    step (idle [.host (.read 0x8000000)]) = .fault .unwrittenWord ∧
    step (pending 0x0E 12 0 0) = .fault .unwrittenWord ∧
    step { pending 0x521 8 0 0 with opmem := loaded Config.standard 0 [6, 9] } = .fault .evenInput ∧
    step { pending 0x523 8 0 0 with opmem := loaded Config.standard 0 [6, 9] } = .fault .owfPrecondition :=
  ⟨eq_of_faultOf (by decide +kernel), eq_of_faultOf (by decide +kernel), eq_of_faultOf (by decide +kernel),
    eq_of_faultOf (by decide +kernel), eq_of_faultOf (by decide +kernel), eq_of_faultOf (by decide +kernel),
    eq_of_faultOf (by decide +kernel)⟩

theorem witness_StepKeepsInvariant :
    Invariant (pending 0x01 8 0 0) ∧ ∃ t, step (pending 0x01 8 0 0) = .next t :=
  ⟨⟨loaded_shape _ _ 0 (by decide), by decide +kernel, by decide +kernel, fun h => by simp [pending] at h,
    fun _ => ⟨rfl, rfl, rfl⟩⟩, exists_of_goesOn (by decide +kernel)⟩

/-! ### The host port -/

theorem witness_CmdWriteIssuesTheCommand :
    (idle []).resetHeld = false ∧ (0x027 : BitVec 28).toNat / 8 * 8 = 0x020 ∧ (idle []).status.busy = false ∧
    (pending 1 8 0 0).resetHeld = false ∧ (pending 1 8 0 0).status.busy = true ∧
    decode ((0xFFFFFFFF00001616 : Word).setWidth 32) = .ok (.wgbits 0x16) ∧
    decode ((0x25 : Word).setWidth 32) = .error .unassignedOpcode := by decide +kernel

theorem witness_StatusWriteOnlyClearsDone :
    (pending 1 8 0 0).resetHeld = false ∧ (0x01F : BitVec 28).toNat / 8 * 8 = 0x018 := by decide +kernel

theorem witness_CtrlAndStatusFields :
    (idle [.host (.write 0x010 1)]).resetHeld = false ∧ (0x010 : BitVec 28).toNat / 8 * 8 = 0x010 ∧
    (1 : Word).getLsbD 1 = false ∧ (3 : Word).getLsbD 1 = true ∧
    (idle [.host (.read 0x017)]).resetHeld = false ∧ (0x017 : BitVec 28).toNat / 8 * 8 = 0x010 ∧
    (0x018 : BitVec 28).toNat / 8 * 8 = 0x018 := by decide +kernel

/-- The regions of a pending WSWAP: words 0, 1, 4 and 5. -/
theorem witness_SoftResetAbandonsThePendingCommand :
    (pending 2 8 0 0).resetHeld = false ∧ (0x010 : BitVec 28).toNat / 8 * 8 = 0x010 ∧ (2 : Word).getLsbD 1 = true ∧
    (pending 2 8 0 0).status.busy = true ∧ (idle []).status.busy = false ∧
    decode (pending 2 8 0 0).latch.cmd = .ok .wswap ∧
    decode (pending 0x25 8 0 0).latch.cmd = .error .unassignedOpcode ∧
    (5 < Config.standard.opmemWords ∧ ∃ r ∈ storeRegions .wswap (pending 2 8 0 0), r.1 ≤ 5 ∧ 5 < r.1 + r.2) ∧
    ∀ r ∈ storeRegions .wswap (pending 2 8 0 0), ¬(r.1 ≤ 6 ∧ 6 < r.1 + r.2) := by decide +kernel

theorem witness_HostWriteReadsBack :
    (idle [.host (.write 0x028 1), .host (.read 0x028)]).resetHeld = false ∧
    (idle [.host (.write 0x028 1), .host (.read 0x028)]).status.busy = false ∧
    (0x028 ≤ (0x028 : BitVec 28).toNat / 8 * 8 ∧ (0x05F : BitVec 28).toNat / 8 * 8 ≤ 0x058) ∧
    (0x080 ≤ (0x080 : BitVec 28).toNat / 8 * 8 ∧ (0x0DF : BitVec 28).toNat / 8 * 8 ≤ 0x0D8) ∧
    (0x8000000 ≤ (0x8000000 : BitVec 28).toNat / 8 * 8 ∧
      (0x80001FF : BitVec 28).toNat / 8 * 8 < 0x8000000 + 8 * Config.standard.opmemWords) := by decide +kernel

theorem witness_ReadOnlyAndReservedSlotsIgnoreWrites :
    (idle [.host (.write 0x078 1)]).resetHeld = false ∧ (idle [.host (.write 0x078 1)]).status.busy = false ∧
    (0x007 : BitVec 28).toNat / 8 * 8 ∈ [0x000, 0x008, 0x060, 0x068, 0x070, 0x078] ∧
    (0x07F : BitVec 28).toNat / 8 * 8 = 0x078 ∧
    (0x0E0 ≤ (0x0E0 : BitVec 28).toNat / 8 * 8 ∧ (0x7FFFFFF : BitVec 28).toNat / 8 * 8 < 0x8000000) ∧
    0x8000000 + 8 * Config.standard.opmemWords ≤ (0x8000200 : BitVec 28).toNat / 8 * 8 := by decide +kernel

theorem witness_BusyWindowDuties :
    (pending 1 8 0 0).resetHeld = false ∧ (pending 1 8 0 0).status.busy = true ∧
    (0x020 : BitVec 28).toNat / 8 * 8 = 0x020 ∧ (0x028 : BitVec 28).toNat / 8 * 8 ∉ [0x010, 0x018, 0x020] ∧
    (0x060 ≤ (0x060 : BitVec 28).toNat / 8 * 8 ∧ (0x077 : BitVec 28).toNat / 8 * 8 ≤ 0x070) ∧
    (0x080 ≤ (0x080 : BitVec 28).toNat / 8 * 8 ∧ (0x0DF : BitVec 28).toNat / 8 * 8 ≤ 0x0D8) ∧
    (0x8000000 ≤ (0x8000000 : BitVec 28).toNat / 8 * 8 ∧
      (0x80001FF : BitVec 28).toNat / 8 * 8 < 0x8000000 + 8 * (pending 1 8 0 0).cfg.opmemWords) ∧
    (∃ r ∈ registerReads (pending 1 8 0 0), r.1 ≤ 0x058 ∧ (0x007 : BitVec 28).toNat / 8 * 8 = r.1) ∧
    ∃ r ∈ registerReads (pending 1 8 0 0), r.1 ≤ 0x058 ∧ (0x05F : BitVec 28).toNat / 8 * 8 = r.1 := by decide +kernel

/-- The first and the last register readable while BUSY = 1, the first and the last that is not, and an OPMEM word. -/
theorem witness_HostReadsHaveNoSideEffect :
    (pending 1 8 0 0).resetHeld = false ∧ (idle []).resetHeld = false ∧ (idle []).status.busy = false ∧
    (∃ r ∈ registerReads (pending 1 8 0 0), r.1 ≤ 0x058 ∧ (0x000 : BitVec 28).toNat / 8 * 8 = r.1) ∧
    (∃ r ∈ registerReads (pending 1 8 0 0), r.1 ≤ 0x058 ∧ (0x05F : BitVec 28).toNat / 8 * 8 = r.1) ∧
    (∃ r ∈ registerReads (idle []), ¬r.1 ≤ 0x058 ∧ (0x060 : BitVec 28).toNat / 8 * 8 = r.1) ∧
    (∃ r ∈ registerReads (idle []), ¬r.1 ≤ 0x058 ∧ (0x0DF : BitVec 28).toNat / 8 * 8 = r.1) ∧
    ∃ t, step (idle [.host (.read 0x80001F8)]) = .next t :=
  ⟨by decide +kernel, by decide +kernel, by decide +kernel, by decide +kernel, by decide +kernel, by decide +kernel,
    by decide +kernel, exists_of_goesOn (by decide +kernel)⟩

theorem witness_OffsetLowBitsAreIgnored :
    (0x020 : BitVec 28).extractLsb' 3 25 = (0x027 : BitVec 28).extractLsb' 3 25 := by decide +kernel

theorem witness_PowerOnReads :
    ({ Config.standard with opmemWords := 1 } : Config).wf ∧
    ({ Config.standard with opmemWords := 2 ^ 24 } : Config).wf ∧
    (0x8000000 ≤ (0x8000007 : BitVec 28).toNat / 8 * 8 ∧ (0x8000007 : BitVec 28).toNat / 8 * 8 < 0x8000000 + 8 * 1) ∧
    ¬(0x8000000 ≤ (0x8000008 : BitVec 28).toNat / 8 * 8 ∧ (0x8000008 : BitVec 28).toNat / 8 * 8 < 0x8000000 + 8 * 1) := by
  simp [Config.wf]

theorem witness_PlatformResetHoldsTheHostOff :
    (idle [.powerOn]).script = [.powerOn] ∧ (idle [.release]).script = [.release] ∧
    ({ idle [.host (.read 0)] with resetHeld := true } : State).script = [.host (.read 0)] ∧
    ({ idle [.host (.read 0)] with resetHeld := true } : State).resetHeld = true := by decide +kernel

theorem witness_IrqFollowsDoneAndEnable :
    (CoreMoves (pending 0x01 8 0 0) ∧ ∃ t, step (pending 0x01 8 0 0) = .next t) ∧
    (CoreMoves { pending 0x01 8 0 0 with script := [.core] } ∧
      ∃ t, step { pending 0x01 8 0 0 with script := [.core] } = .next t) ∧
    (∃ t, step (idle [.powerOn]) = .next t) ∧
    (∃ t, step (idle [.host (.write 0x010 1)]) = .next t) ∧
    ((∃ t, step (idle [.host (.write 0x018 2)]) = .next t) ∧ (2 : Word).getLsbD 1 = true) ∧
    ∃ t, step (idle [.host (.write 0x020 1)]) = .next t :=
  ⟨⟨⟨rfl, .inl rfl⟩, exists_of_goesOn (by decide +kernel)⟩,
    ⟨⟨rfl, .inr ⟨[], rfl⟩⟩, exists_of_goesOn (by decide +kernel)⟩, exists_of_goesOn (by decide +kernel),
    exists_of_goesOn (by decide +kernel), ⟨exists_of_goesOn (by decide +kernel), by decide⟩, exists_of_goesOn (by decide +kernel)⟩

/-! ### The commands -/

theorem witness_WcopyCopiesTheRegion :
    Fits (pending 0 62 0 0) 0 2 ∧ Fits (pending 0 62 0 0) 62 2 ∧ ¬Overlap 0 2 62 2 ∧
      HoldsLimbs (pending 0 62 0 0) 0 2 limbsA :=
  ⟨by decide +kernel, by decide +kernel, apart (by decide), by decide +kernel⟩

theorem witness_WswapExchangesTheRegions :
    Fits (pending 0 8 0 0) 0 2 ∧ Fits (pending 0 8 0 0) 4 2 ∧ ¬Overlap 0 2 4 2 ∧
      HoldsLimbs (pending 0 8 0 0) 0 2 limbsA ∧ HoldsLimbs (pending 0 8 0 0) 4 2 limbsB :=
  ⟨by decide +kernel, by decide +kernel, apart (by decide), by decide +kernel, by decide +kernel⟩

theorem witness_WeqTestsEveryLimb :
    Fits (pending 0 8 0 0) 0 2 ∧ Fits (pending 0 8 0 0) 4 2 ∧ HoldsLimbs (pending 0 8 0 0) 0 2 limbsA ∧
      HoldsLimbs (pending 0 8 0 0) 4 2 limbsB := by decide +kernel

theorem witness_WcmpComparesFromTheTopLimb :
    Fits (pending 0 8 0 0) 0 2 ∧ Fits (pending 0 8 0 0) 4 2 ∧ HoldsLimbs (pending 0 8 0 0) 0 2 limbsA ∧
      HoldsLimbs (pending 0 8 0 0) 4 2 limbsB := by decide +kernel

theorem witness_WcmplComparesValues :
    Fits (pending 0 8 0 0) 0 2 ∧ Fits (pending 0 8 0 0) 4 1 ∧ HoldsLimbs (pending 0 8 0 0) 0 2 limbsA ∧
      HoldsLimbs (pending 0 8 0 0) 4 1 limbsB := by decide +kernel

theorem witness_WcmpwAndWiswCompareWithTheWord :
    Fits (pending 0 8 0 0xFFFFFFFF) 0 2 ∧ HoldsLimbs (pending 0 8 0 0xFFFFFFFF) 0 2 limbsA ∧
      RvFits (pending 0 8 0 0xFFFFFFFF) := by decide +kernel

theorem witness_WiszTestsEveryLimbForZero :
    Fits (pending 0 8 0 0) 0 2 ∧ HoldsLimbs (pending 0 8 0 0) 0 2 limbsA := by decide +kernel

theorem witness_WisrepTestsEveryLimbForTheWord :
    Fits (pending 0 8 0 5) 0 2 ∧ HoldsLimbs (pending 0 8 0 5) 0 2 limbsA := by decide +kernel

theorem witness_WxorXorsLimbByLimb :
    Fits (pending 0 4 0 0) 0 2 ∧ Fits (pending 0 4 0 0) 4 2 ∧ ¬Overlap 0 2 4 2 ∧
      (pending 0 4 0 0).baseB = (pending 0 4 0 0).baseD ∧ HoldsLimbs (pending 0 4 0 0) 0 2 limbsA ∧
      HoldsLimbs (pending 0 4 0 0) 4 2 limbsB :=
  ⟨by decide +kernel, by decide +kernel, apart (by decide), rfl, by decide +kernel, by decide +kernel⟩

theorem witness_WxoraXorsIntoTheDestination :
    Fits (pending 0 8 0 0) 0 2 ∧ Fits (pending 0 8 0 0) 8 2 ∧ ¬Overlap 0 2 8 2 ∧
      HoldsLimbs (pending 0 8 0 0) 0 2 limbsA ∧ HoldsLimbs (pending 0 8 0 0) 8 2 limbsD :=
  ⟨by decide +kernel, by decide +kernel, apart (by decide), by decide +kernel, by decide +kernel⟩

theorem witness_WzeroWsetwWfillSetEveryLimb :
    (Fits (pending 0 62 0 0xFFFFFFFF) 62 2 ∧ RvFits (pending 0 62 0 0xFFFFFFFF) ∧
      ¬((pending 0 62 0 0xFFFFFFFF).lenN = 0 ∧ (pending 0 62 0 0xFFFFFFFF).valV ≠ 0)) ∧
    (Fits (small .w32 [] 0 0 64 0 0 1) 64 0 ∧ RvFits (small .w32 [] 0 0 64 0 0 1) ∧
      (small .w32 [] 0 0 64 0 0 1).lenN = 0 ∧ (small .w32 [] 0 0 64 0 0 1).valV ≠ 0) := by decide +kernel

theorem witness_WswlIsTheSignificantWordLength :
    Fits (pending 0 8 0 0) 0 2 ∧ HoldsLimbs (pending 0 8 0 0) 0 2 limbsA ∧
      limbValue 32 2 limbsA < 2 ^ 36 ∧ 2 ^ (36 - 1) ≤ limbValue 32 2 limbsA := by decide +kernel

theorem witness_WsbylIsTheSignificantByteLength :
    (pending 0 8 0 0).cfg.wf ∧ Fits (pending 0 8 0 0) 0 2 ∧ HoldsLimbs (pending 0 8 0 0) 0 2 limbsA := by
  decide +kernel

theorem witness_WsblIsTheSignificantBitLength :
    (pending 0 8 0 0).cfg.wf ∧ Fits (pending 0 8 0 0) 0 2 ∧ HoldsLimbs (pending 0 8 0 0) 0 2 limbsA := by
  decide +kernel

theorem witness_WtbitReadsTheBit :
    (pending 0 8 63 0).posP < (pending 0 8 63 0).lenN * (pending 0 8 63 0).cfg.bits ∧ Fits (pending 0 8 63 0) 0 2 ∧
      HoldsLimbs (pending 0 8 63 0) 0 2 limbsA := by decide +kernel

theorem witness_WgbitsReadsTheField :
    32 ≤ (pending 0 8 32 0).cfg.bits ∧
      (pending 0 8 32 0).posP + 32 ≤ (pending 0 8 32 0).lenN * (pending 0 8 32 0).cfg.bits ∧
      Fits (pending 0 8 32 0) 0 2 ∧ HoldsLimbs (pending 0 8 32 0) 0 2 limbsA := by decide +kernel

theorem witness_WsbitAndWfbitChangeOneBit :
    (pending 0 8 63 1).posP < (pending 0 8 63 1).lenN * (pending 0 8 63 1).cfg.bits ∧ Fits (pending 0 8 63 1) 0 2 ∧
      HoldsLimbs (pending 0 8 63 1) 0 2 limbsA := by decide +kernel

theorem witness_WsbitsWritesTheField :
    0 ≤ (pending 0 8 64 1).cfg.bits ∧
      (pending 0 8 64 1).posP + 0 ≤ (pending 0 8 64 1).lenN * (pending 0 8 64 1).cfg.bits ∧
      Fits (pending 0 8 64 1) 0 2 ∧ HoldsLimbs (pending 0 8 64 1) 0 2 limbsA := by decide +kernel

theorem witness_WlzcAndWhzcCountTheZeroRuns :
    (pending 0 8 0 0).cfg.wf ∧ Fits (pending 0 8 0 0) 0 2 ∧ HoldsLimbs (pending 0 8 0 0) 0 2 limbsA := by
  decide +kernel

theorem witness_WshlcShiftsLowWithCarry :
    (pending 0 8 64 1).posP ≤ (pending 0 8 64 1).lenN * (pending 0 8 64 1).cfg.bits ∧ Fits (pending 0 8 64 1) 0 2 ∧
      HoldsLimbs (pending 0 8 64 1) 0 2 limbsA := by decide +kernel

theorem witness_WshhcShiftsHighWithCarry :
    (pending 0 8 64 1).posP ≤ (pending 0 8 64 1).lenN * (pending 0 8 64 1).cfg.bits ∧ Fits (pending 0 8 64 1) 0 2 ∧
      RvFits (pending 0 8 64 1) ∧ HoldsLimbs (pending 0 8 64 1) 0 2 limbsA := by decide +kernel

theorem witness_WtrlAndWtrhTrim :
    Fits (pending 0 8 0xFFFFFFFF 0) 0 2 ∧ HoldsLimbs (pending 0 8 0xFFFFFFFF 0) 0 2 limbsA := by decide +kernel

theorem witness_ShiftLowThenHighClearsTheLowBits :
    (pending 0 8 64 0).posP ≤ (pending 0 8 64 0).lenN * (pending 0 8 64 0).cfg.bits ∧ Fits (pending 0 8 64 0) 0 2 ∧
      (pending 0 8 64 0).valV = 0 ∧ HoldsLimbs (pending 0 8 64 0) 0 2 limbsA := by decide +kernel

/-- The digits of 3 for w = 2 are [1, 1]: both nonzero, at the boundary distance of the exception. -/
theorem witness_NafDigitsRepresentTheValue :
    2 ≤ 2 ∧ 3 < 2 ^ 2 ∧ 0 < 1 ∧ (naf 2 3).getD 0 0 ≠ 0 ∧ (naf 2 3).getD 1 0 ≠ 0 := by decide +kernel

theorem witness_WnafStoresADecodableNaf :
    (pending 0 59 0 0).cfg.wf ∧ 2 ≤ 31 ∧ 31 < (pending 0 59 0 0).cfg.bits ∧ Fits (pending 0 59 0 0) 0 2 ∧
      Fits (pending 0 59 0 0) 59 (2 * 2 + 1) ∧ ¬Overlap 0 2 59 (2 * 2 + 1) ∧
      HoldsLimbs (pending 0 59 0 0) 0 2 limbsA :=
  ⟨by decide +kernel, by decide, by decide +kernel, by decide +kernel, by decide +kernel, apart (by decide),
    by decide +kernel⟩

theorem witness_WorecRoundTrips :
    (pending 0 2 0 0).cfg.wf ∧ 1 ≤ 31 ∧ 31 < (pending 0 2 0 0).cfg.bits ∧ 1 ≤ (pending 0 2 0 0).lenN ∧
      Fits (pending 0 2 0 0) 0 2 ∧ Fits (pending 0 2 0 0) 2 (worecLength (pending 0 2 0 0) 31) ∧
      ¬Overlap 0 2 2 (worecLength (pending 0 2 0 0) 31) ∧ HoldsLimbs (pending 0 2 0 0) 0 2 limbsA ∧
      limbValue 32 2 limbsA % 2 = 1 :=
  ⟨by decide +kernel, by decide, by decide +kernel, by decide +kernel, by decide +kernel, by decide +kernel,
    apart (by decide +kernel), by decide +kernel, by decide +kernel⟩

theorem witness_WowfRoundTrips :
    (pending 0 2 0 0).cfg.wf ∧ 1 ≤ 31 ∧ 31 < (pending 0 2 0 0).cfg.bits ∧ 1 ≤ (pending 0 2 0 0).lenN ∧
      Fits (pending 0 2 0 0) 0 2 ∧ Fits (pending 0 2 0 0) 2 (wowfLength (pending 0 2 0 0) 31) ∧
      ¬Overlap 0 2 2 (wowfLength (pending 0 2 0 0) 31) ∧ HoldsLimbs (pending 0 2 0 0) 0 2 limbsA ∧
      limbValue 32 2 limbsA % 2 = 1 ∧ limbValue 32 2 limbsA < 2 ^ (2 * 32 / 31 * 31) :=
  ⟨by decide +kernel, by decide, by decide +kernel, by decide +kernel, by decide +kernel, by decide +kernel,
    apart (by decide +kernel), by decide +kernel, by decide +kernel, by decide +kernel⟩

theorem witness_SizeQueriesNeedNoRegion :
    (1 ≤ 1 ∧ 1 < (small .w16 [] 0 0 0 0 0 0).cfg.bits ∧ (small .w16 [] 0 0 0 0 0 0).lenN = 0) ∧
    (1 ≤ 15 ∧ 15 < (small .w16 [] 0 0 0 0xFFFFFFFF 0 0).cfg.bits) := by decide +kernel

theorem witness_BkexpExpandsTheKey :
    ∀ j : Fin 4, ({ idle [] with key := #v[1, 2, 3, 4, 5, 6, 7, 8] } : State).key[j.val] =
      ({ idle [] with key := #v[1, 2, 3, 4, 0, 0, 0, 0] } : State).key[j.val] := by decide +kernel

end Sys2Proof.Tests
end

section
/-! What a command can do, said once for all of them: it fails a check, it stops for a reason of the spec, or it completes
with an effect on the registers and regions its rule names. The values of RES, RES2 and RESW have no part in it. -/

namespace Sys2Proof.Machine

/-! ## Stores into regions -/

/-- The memory `m'` comes from `m` by stores of whole words into the regions. -/
structure StoredWithin (cfg : Config) (regions : List (Nat × Nat)) (m m' : Memory) : Prop where
  outside : ∀ x, (∀ r ∈ regions, ¬RegionByte cfg r.1 r.2 x) → m'.read x = m.read x
  shape : (∀ r ∈ regions, r.1 + r.2 ≤ cfg.opmemWords) → MemoryShape cfg m → MemoryShape cfg m'

section
variable {cfg : Config} {regions : List (Nat × Nat)} {base n : Nat} {m m₁ m₂ : Memory}

theorem StoredWithin.trans (h₁ : StoredWithin cfg regions m m₁) (h₂ : StoredWithin cfg regions m₁ m₂) :
    StoredWithin cfg regions m m₂ :=
  ⟨fun x hx => (h₂.outside x hx).trans (h₁.outside x hx), fun hr hm => h₂.shape hr (h₁.shape hr hm)⟩

theorem storedWithin_memWrite (h : (base, n) ∈ regions) (v : Nat) :
    StoredWithin cfg regions m (memWrite cfg m base n v) :=
  ⟨fun _ hx => read_memWrite_outside _ _ (hx _ h), fun hr hm => hm.memWrite _ (hr _ h)⟩

theorem storedWithin_memFill (h : (base, n) ∈ regions) (v : Nat) :
    StoredWithin cfg regions m (memFill cfg m base n v) :=
  ⟨fun _ hx => read_memFill_outside _ _ (hx _ h), fun hr hm => hm.memFill _ (hr _ h)⟩

end

/-! ## Effects and endings -/

/-- What a command that completes with OK writes; `none` where it writes nothing. -/
structure Effect where
  res : Option Reg32 := none
  res2 : Option Reg32 := none
  resw : Option Word := none
  key : Option (Vector Reg32 8) := none
  blk : Option (Vector Reg32 4) := none
  opmem : Option Memory := none

/-- The state after completion with OK and the effect. -/
def State.after (s : State) (e : Effect) : State :=
  { s.completed .ok with
    res := e.res.getD s.res
    res2 := e.res2.getD s.res2
    resw := e.resw.getD s.resw
    key := e.key.getD s.key
    blk := e.blk.getD s.blk
    opmem := e.opmem.getD s.opmem }

/-- The effect is one that the command's row of the opcode map allows (30_encoding R126). -/
structure Effect.Allowed (i : Instr) (s : State) (e : Effect) : Prop where
  res : e.res.isSome = namesRes i
  res2 : e.res2.isSome = namesRes2 i
  resw : e.resw.isSome = namesResw i
  reswFits : ∀ x ∈ e.resw, x.toNat < 2 ^ s.cfg.bits
  key : e.key.isSome → ∃ w, i = .bkexp w
  blk : e.blk.isSome → i = .benc ∨ i = .bdec
  opmem : ∀ m ∈ e.opmem, StoredWithin s.cfg (storeRegions i s) s.opmem m

/-- The three ways a command ends. -/
inductive Ending where
  | ok (e : Effect)
  | error (e : Err)
  | fault (f : Fault)

/-- What a step that ends so answers. -/
def State.ended (s : State) : Ending → StepResult
  | .ok e => .next (s.after e)
  | .error e => .next (s.completed e)
  | .fault f => .fault f

/-- Why a pending command is FAULT (20_memory R83, R84; 42_wordarray_recoding R406, R408). -/
def CommandFault (i : Instr) (s : State) : Fault → Prop
  | .unwrittenWord => ∃ r ∈ readRegions i s, HasUnwritten s r.1 r.2
  | .evenInput => ∃ w a, i = .worec w ∧ HoldsLimbs s s.baseA s.lenN a ∧ limbValue s.cfg.bits s.lenN a % 2 = 0
  | .owfPrecondition => ∃ w a, i = .wowf w ∧ HoldsLimbs s s.baseA s.lenN a ∧
      (limbValue s.cfg.bits s.lenN a % 2 = 0 ∨
        2 ^ (s.lenN * s.cfg.bits / w * w) ≤ limbValue s.cfg.bits s.lenN a)
  | .commandWhileBusy | .writeWhileBusy | .accessInReset => False

/-- The ending is one that the command's rule allows. -/
def Ending.Allowed (i : Instr) (s : State) : Ending → Prop
  | .ok e => ChecksPass i s ∧ e.Allowed i s
  | .error e => e = .param ∨ e = .range ∨ e = .overlap
  | .fault f => ChecksPass i s ∧ CommandFault i s f

/-- The body ends in one allowed way, and in that same way with any other values in the result registers. -/
def Ends (i : Instr) (s : State) (body : State → StepResult) : Prop :=
  ∃ x : Ending, x.Allowed i s ∧
    ∀ r r2 rw, body (s.withResults r r2 rw) = (s.withResults r r2 rw).ended x

/-! ## The checks and the operands -/

variable {i : Instr} {s : State}

theorem checksOf_pass_iff (i : Instr) (s : State) : (∀ c ∈ checksOf i s, c = none) ↔ ChecksPass i s := by
  rw [ChecksPass, ← paramChecks_pass_iff, ← rangeChecks_pass_iff, ← overlapChecks_pass_iff]
  simp only [checksOf, List.forall_mem_append, and_assoc]

theorem checksOf_code {e : Err} (h : some e ∈ checksOf i s) : e = .param ∨ e = .range ∨ e = .overlap := by
  simp only [checksOf, List.mem_append] at h
  rcases h with (h | h) | h
  · exact .inl (by simpa using paramChecks_code i s _ h)
  · exact .inr (.inl (by simpa using rangeChecks_code i s _ h))
  · exact .inr (.inr (by simpa using overlapChecks_code i s _ h))

theorem checksOf_withResults (i : Instr) (s : State) (r r2 : Reg32) (rw : Word) :
    checksOf i (s.withResults r r2 rw) = checksOf i s := by
  cases i <;> rfl

/-- A command ends as its rule allows if its body does once the checks have passed. -/
theorem ends_of_body {body : State → StepResult} (hx : ∀ u, exec i u = checked u (checksOf i u) (body u))
    (hb : ChecksPass i s → Ends i s body) : Ends i s (exec i) := by
  by_cases hc : ChecksPass i s
  · obtain ⟨x, hx', he⟩ := hb hc
    refine ⟨x, hx', fun r r2 rw => ?_⟩
    rw [hx, checksOf_withResults, checked_of_pass ((checksOf_pass_iff i s).mpr hc), he]
  · rcases checked_cases s (checksOf i s) (body s) with ⟨hp, _⟩ | ⟨before, e, after, hl, hp, _⟩
    · exact absurd ((checksOf_pass_iff i s).mp hp) hc
    · refine ⟨.error e, checksOf_code (i := i) (s := s) (by simp [hl]), fun r r2 rw => ?_⟩
      rw [hx, checksOf_withResults, hl, checked_of_fail hp]
      rfl

/-- A read of one of the rule's regions: its value goes to the rest of the body, or a word of it is unwritten. -/
theorem ends_withOperand {base n : State → Nat} {k : Nat → State → StepResult} (hc : ChecksPass i s)
    (hr : (base s, n s) ∈ readRegions i s)
    (hu : ∀ r r2 rw, (base (s.withResults r r2 rw), n (s.withResults r r2 rw)) = (base s, n s))
    (hk : ∀ a, HoldsLimbs s (base s) (n s) a → Ends i s (k (limbValue s.cfg.bits (n s) a))) :
    Ends i s (fun u => withOperand u (base u) (n u) (fun v => k v u)) := by
  rcases holdsLimbs_or_hasUnwritten s (base s) (n s) with ⟨a, ha, _⟩ | hn
  · obtain ⟨x, hx, he⟩ := hk a ha
    refine ⟨x, hx, fun r r2 rw => ?_⟩
    obtain ⟨hb, hl⟩ := Prod.mk.inj (hu r r2 rw)
    have ha' : HoldsLimbs (s.withResults r r2 rw) (base s) (n s) a := ha
    simp only [hb, hl, withOperand_of_limbs ha']
    exact he r r2 rw
  · refine ⟨.fault .unwrittenWord, ⟨hc, _, hr, hn⟩, fun r r2 rw => ?_⟩
    obtain ⟨hb, hl⟩ := Prod.mk.inj (hu r r2 rw)
    have hn' : HasUnwritten (s.withResults r r2 rw) (base s) (n s) := hn
    simp only [hb, hl, withOperand_of_unwritten hn', State.ended]

/-- A body that completes with OK ends with its effect. -/
theorem ends_complete {write : State → State} (hc : ChecksPass i s) (e : Effect) (he : e.Allowed i s)
    (hw : ∀ r r2 rw, (write (s.withResults r r2 rw)).completed .ok = (s.withResults r r2 rw).after e) :
    Ends i s (fun u => complete (write u)) :=
  ⟨.ok e, ⟨hc, he⟩, fun r r2 rw => congrArg Host.Outcome.next (hw r r2 rw)⟩

/-! ## The shapes of the bodies -/

/-- The command's rule names RES and no other result. -/
abbrev NamesOnlyRes (i : Instr) : Prop := namesRes i = true ∧ namesRes2 i = false ∧ namesResw i = false

/-- The command's rule names no result register. -/
abbrev NamesNoResult (i : Instr) : Prop := namesRes i = false ∧ namesRes2 i = false ∧ namesResw i = false

theorem Effect.allowed_opmem {m : Memory} (hn : NamesNoResult i)
    (hm : StoredWithin s.cfg (storeRegions i s) s.opmem m) : Effect.Allowed i s { opmem := some m } :=
  let ⟨hres, hres2, hresw⟩ := hn
  ⟨hres.symm, hres2.symm, hresw.symm, by simp, by simp, by simp, by simpa using hm⟩

/-- A body that only puts a value in RES. -/
theorem ends_setRes {v : State → Reg32} (hc : ChecksPass i s) (hn : NamesOnlyRes i)
    (hv : ∀ r r2 rw, v (s.withResults r r2 rw) = v s) : Ends i s (fun u => complete (u.setRes (v u))) :=
  let ⟨hres, hres2, hresw⟩ := hn
  ends_complete hc { res := some (v s) }
    ⟨hres.symm, hres2.symm, hresw.symm, by simp, by simp, by simp, by simp⟩
    fun r r2 rw => by rw [hv]; rfl

/-- A body that only writes one of the rule's regions. -/
theorem ends_writeOperand {base n v : State → Nat} (hc : ChecksPass i s) (hn : NamesNoResult i)
    (hm : (base s, n s) ∈ storeRegions i s)
    (hu : ∀ r r2 rw, (base (s.withResults r r2 rw), n (s.withResults r r2 rw), v (s.withResults r r2 rw)) =
      (base s, n s, v s)) :
    Ends i s (fun u => complete (u.writeOperand (base u) (n u) (v u))) := by
  refine ends_complete hc _ (Effect.allowed_opmem hn (storedWithin_memWrite hm (v s))) fun r r2 rw => ?_
  have := hu r r2 rw
  simp only [Prod.mk.injEq] at this
  obtain ⟨hb, hl, hv⟩ := this
  rw [hb, hl, hv]
  rfl

/-- A command that reads (RA, n) and puts a value in RES. -/
theorem ends_examine {v : Nat → State → Reg32}
    (hx : ∀ u, exec i u = checked u (checksOf i u)
      (withOperand u u.baseA u.lenN fun a => complete (u.setRes (v a u))))
    (hr : (s.baseA, s.lenN) ∈ readRegions i s) (hn : NamesOnlyRes i)
    (hv : ∀ a r r2 rw, v a (s.withResults r r2 rw) = v a s) : Ends i s (exec i) :=
  ends_of_body hx fun hc => ends_withOperand hc hr (fun _ _ _ => rfl) fun _ _ => ends_setRes hc hn (hv _)

/-- A command that reads (RA, n) and (RB, n or m) and puts a value in RES. -/
theorem ends_compare {n₂ : State → Nat} {v : Nat → Nat → Reg32}
    (hx : ∀ u, exec i u = checked u (checksOf i u)
      (withOperand u u.baseA u.lenN fun a => withOperand u u.baseB (n₂ u) fun b => complete (u.setRes (v a b))))
    (hr : (s.baseA, s.lenN) ∈ readRegions i s) (hr₂ : (s.baseB, n₂ s) ∈ readRegions i s)
    (hu : ∀ r r2 rw, n₂ (s.withResults r r2 rw) = n₂ s) (hn : NamesOnlyRes i) : Ends i s (exec i) :=
  ends_of_body hx fun hc =>
    ends_withOperand hc hr (fun _ _ _ => rfl) fun _ _ =>
      ends_withOperand hc hr₂ (fun r r2 rw => congrArg (Prod.mk s.baseB) (hu r r2 rw)) fun _ _ =>
        ends_setRes hc hn fun _ _ _ => rfl

/-- A command that modifies (RA, n) in place. -/
theorem ends_modifyInPlace {new : Nat → State → Nat}
    (hx : ∀ u, exec i u = checked u (checksOf i u)
      (withOperand u u.baseA u.lenN fun a => complete (u.writeOperand u.baseA u.lenN (new a u))))
    (hr : (s.baseA, s.lenN) ∈ readRegions i s) (hm : (s.baseA, s.lenN) ∈ storeRegions i s)
    (hn : NamesNoResult i) (hv : ∀ a r r2 rw, new a (s.withResults r r2 rw) = new a s) : Ends i s (exec i) :=
  ends_of_body hx fun hc =>
    ends_withOperand hc hr (fun _ _ _ => rfl) fun a _ =>
      ends_writeOperand hc hn hm fun r r2 rw => by rw [hv]; rfl

/-- A shift: (RA, n) modified in place, and a word in RESW. -/
theorem ends_shift {new : Nat → State → Nat} {out : Nat → State → Nat}
    (hx : ∀ u, exec i u = checked u (checksOf i u) (withOperand u u.baseA u.lenN fun a =>
      complete ((u.writeOperand u.baseA u.lenN (new a u)).setResw (wordResult u.cfg (out a u)))))
    (hr : (s.baseA, s.lenN) ∈ readRegions i s) (hm : (s.baseA, s.lenN) ∈ storeRegions i s)
    (hn : namesRes i = false ∧ namesRes2 i = false ∧ namesResw i = true)
    (hv : ∀ a r r2 rw, (new a (s.withResults r r2 rw), out a (s.withResults r r2 rw)) = (new a s, out a s)) :
    Ends i s (exec i) := by
  refine ends_of_body hx fun hc => ends_withOperand hc hr (fun _ _ _ => rfl) fun a _ => ?_
  generalize limbValue s.cfg.bits s.lenN a = x
  obtain ⟨hres, hres2, hresw⟩ := hn
  refine ends_complete hc
    { resw := some (wordResult s.cfg (out x s)), opmem := some (memWrite s.cfg s.opmem s.baseA s.lenN (new x s)) }
    ⟨hres.symm, hres2.symm, hresw.symm, by simpa using wordResult_lt _ _, by simp, by simp,
      by simpa using storedWithin_memWrite hm _⟩ fun r r2 rw => ?_
  obtain ⟨h₁, h₂⟩ := Prod.mk.inj (hv x r r2 rw)
  rw [h₁, h₂]
  rfl

/-! ## The commands -/

theorem ends_wswap (s : State) : Ends .wswap s (exec .wswap) := by
  refine ends_of_body (fun _ => rfl) fun hc =>
    ends_withOperand hc (by simp [readRegions]) (fun _ _ _ => rfl) fun a _ =>
      ends_withOperand hc (by simp [readRegions]) (fun _ _ _ => rfl) fun b _ => ?_
  have hA : (s.baseA, s.lenN) ∈ storeRegions .wswap s := by simp [storeRegions]
  have hB : (s.baseB, s.lenN) ∈ storeRegions .wswap s := by simp [storeRegions]
  exact ends_complete hc _ (Effect.allowed_opmem ⟨rfl, rfl, rfl⟩
    ((storedWithin_memWrite hA (limbValue s.cfg.bits s.lenN b)).trans
      (storedWithin_memWrite hB (limbValue s.cfg.bits s.lenN a)))) fun _ _ _ => rfl

theorem ends_wfill (s : State) : Ends .wfill s (exec .wfill) :=
  ends_of_body (fun _ => rfl) fun hc =>
    ends_complete hc _
      (Effect.allowed_opmem ⟨rfl, rfl, rfl⟩ (storedWithin_memFill (base := s.baseD) (n := s.lenN)
        (by simp [storeRegions]) s.valV)) fun _ _ _ => rfl

theorem ends_wgbits (wd : Nat) (s : State) : Ends (.wgbits wd) s (exec (.wgbits wd)) :=
  ends_of_body (fun _ => rfl) fun hc =>
    ends_withOperand hc (by simp [readRegions]) (fun _ _ _ => rfl) fun a _ =>
      ends_complete hc
        { resw := some (wordResult s.cfg (limbValue s.cfg.bits s.lenN a / 2 ^ s.posP % 2 ^ wd)) }
        ⟨rfl, rfl, rfl, by simpa using wordResult_lt _ _, by simp, by simp, by simp⟩ fun _ _ _ => rfl

theorem ends_wnaf (w : Nat) (s : State) : Ends (.wnaf w) s (exec (.wnaf w)) := by
  refine ends_of_body (fun _ => rfl) fun hc =>
    ends_withOperand hc (by simp [readRegions]) (fun _ _ _ => rfl) fun a _ => ?_
  generalize naf w (limbValue s.cfg.bits s.lenN a) = d
  exact ends_complete hc
    { res := some (countResult d.length)
      res2 := some (countResult (nafEncode w d).2)
      opmem := some (memWrite s.cfg s.opmem s.baseD (2 * s.lenN + 1) (nafEncode w d).1) }
    ⟨rfl, rfl, rfl, by simp, by simp, by simp,
      by simpa using storedWithin_memWrite (by simp [storeRegions]) _⟩ fun _ _ _ => rfl

/-- A recoding to odd digits, of an operand that its rule allows: the destination and the count in RES. -/
theorem ends_digits {len code : State → Nat} {count : State → Nat} (hc : ChecksPass i s) (hn : NamesOnlyRes i)
    (hm : (s.baseD, len s) ∈ storeRegions i s)
    (hu : ∀ r r2 rw, (len (s.withResults r r2 rw), code (s.withResults r r2 rw), count (s.withResults r r2 rw)) =
      (len s, code s, count s)) :
    Ends i s fun u => complete ((u.writeOperand u.baseD (len u) (code u)).setRes (countResult (count u))) := by
  obtain ⟨hres, hres2, hresw⟩ := hn
  refine ends_complete hc
    { res := some (countResult (count s)), opmem := some (memWrite s.cfg s.opmem s.baseD (len s) (code s)) }
    ⟨hres.symm, hres2.symm, hresw.symm, by simp, by simp, by simp,
      by simpa using storedWithin_memWrite hm _⟩ fun r r2 rw => ?_
  have := hu r r2 rw
  simp only [Prod.mk.injEq] at this
  obtain ⟨h₁, h₂, h₃⟩ := this
  rw [h₁, h₂, h₃]
  rfl

theorem ends_worec (w : Nat) (s : State) : Ends (.worec w) s (exec (.worec w)) := by
  refine ends_of_body (fun _ => rfl) fun hc =>
    ends_withOperand hc (by simp [readRegions]) (fun _ _ _ => rfl) fun a ha => ?_
  by_cases he : limbValue s.cfg.bits s.lenN a % 2 = 0
  · simp only [if_pos he]
    exact ⟨.fault .evenInput, ⟨hc, w, a, rfl, ha, he⟩, fun _ _ _ => rfl⟩
  · simp only [if_neg he]
    exact ends_digits hc ⟨rfl, rfl, rfl⟩ (by simp [storeRegions, orecWords_eq_worecLength]) fun _ _ _ => rfl

theorem ends_wowf (w : Nat) (s : State) : Ends (.wowf w) s (exec (.wowf w)) := by
  refine ends_of_body (fun _ => rfl) fun hc =>
    ends_withOperand hc (by simp [readRegions]) (fun _ _ _ => rfl) fun a ha => ?_
  by_cases he : limbValue s.cfg.bits s.lenN a % 2 = 0 ∨
      2 ^ (owfDigits s.cfg.bits s.lenN w * w) ≤ limbValue s.cfg.bits s.lenN a
  · exact ⟨.fault .owfPrecondition, ⟨hc, w, a, rfl, ha, he⟩, fun _ _ _ => if_pos he⟩
  · obtain ⟨x, hx, hx'⟩ := ends_digits (len := fun u => owfWords u.cfg.bits u.lenN w)
      (code := fun u => ocodeSum w (orec w (owfDigits u.cfg.bits u.lenN w) (limbValue s.cfg.bits s.lenN a)))
      (count := fun u => owfDigits u.cfg.bits u.lenN w) hc ⟨rfl, rfl, rfl⟩
      (by simp [storeRegions, owfWords_eq_wowfLength]) fun _ _ _ => rfl
    exact ⟨x, hx, fun r r2 rw => (if_neg he).trans (hx' r r2 rw)⟩

theorem ends_bkexp (octets : Nat) (s : State) : Ends (.bkexp octets) s (exec (.bkexp octets)) :=
  ends_of_body (fun _ => rfl) fun hc =>
    ends_complete hc { key := some (expandKey octets s.key) }
      ⟨rfl, rfl, rfl, by simp, by simp, by simp, by simp⟩ fun _ _ _ => rfl

theorem ends_benc (s : State) : Ends .benc s (exec .benc) :=
  ends_of_body (fun _ => rfl) fun hc =>
    ends_complete hc { blk := some (blkOfQuad (encryptBlock s.cfg s.key (quadOfBlk s.blk))) }
      ⟨rfl, rfl, rfl, by simp, by simp, by simp, by simp⟩ fun _ _ _ => rfl

theorem ends_bdec (s : State) : Ends .bdec s (exec .bdec) :=
  ends_of_body (fun _ => rfl) fun hc =>
    ends_complete hc { blk := some (blkOfQuad (decryptBlock s.cfg s.key (quadOfBlk s.blk))) }
      ⟨rfl, rfl, rfl, by simp, by simp, by simp, by simp⟩ fun _ _ _ => rfl

/-- Every command ends as its rule allows, whatever the result registers hold. -/
theorem ends_exec (i : Instr) (s : State) : Ends i s (exec i) := by
  cases i with
  | wcmpw | wisz | wiszf | wisw | wisrep | wswl | wsbyl | wsbl | wtbit | wlzc | whzc =>
    exact ends_examine (fun _ => rfl) (by simp [readRegions]) ⟨rfl, rfl, rfl⟩ fun _ _ _ _ => rfl
  | weq | weqf | wcmp | wcmpf | wcmpl =>
    exact ends_compare (fun _ => rfl) (by simp [readRegions]) (by simp [readRegions]) (fun _ _ _ => rfl)
      ⟨rfl, rfl, rfl⟩
  | wsbit | wsbits | wfbit | wtrl | wtrh =>
    exact ends_modifyInPlace (fun _ => rfl) (by simp [readRegions]) (by simp [storeRegions]) ⟨rfl, rfl, rfl⟩
      fun _ _ _ _ => rfl
  | wshlc | wshhc =>
    exact ends_shift (fun _ => rfl) (by simp [readRegions]) (by simp [storeRegions]) ⟨rfl, rfl, rfl⟩
      fun _ _ _ _ => rfl
  | wcopy =>
    exact ends_of_body (fun _ => rfl) fun hc =>
      ends_withOperand hc (by simp [readRegions]) (fun _ _ _ => rfl) fun _ _ =>
        ends_writeOperand hc ⟨rfl, rfl, rfl⟩ (by simp [storeRegions]) fun _ _ _ => rfl
  | wxor | wxora =>
    exact ends_of_body (fun _ => rfl) fun hc =>
      ends_withOperand hc (by simp [readRegions]) (fun _ _ _ => rfl) fun _ _ =>
        ends_withOperand hc (by simp [readRegions]) (fun _ _ _ => rfl) fun _ _ =>
          ends_writeOperand hc ⟨rfl, rfl, rfl⟩ (by simp [storeRegions]) fun _ _ _ => rfl
  | wzero | wsetw =>
    exact ends_of_body (fun _ => rfl) fun hc =>
      ends_writeOperand hc ⟨rfl, rfl, rfl⟩ (by simp [storeRegions]) fun _ _ _ => rfl
  | worsz w | wowsz w =>
    exact ends_of_body (fun _ => rfl) fun hc => ends_setRes hc ⟨rfl, rfl, rfl⟩ fun _ _ _ => rfl
  | wswap => exact ends_wswap s
  | wfill => exact ends_wfill s
  | wgbits wd => exact ends_wgbits wd s
  | wnaf w => exact ends_wnaf w s
  | worec w => exact ends_worec w s
  | wowf w => exact ends_wowf w s
  | bkexp octets => exact ends_bkexp octets s
  | benc => exact ends_benc s
  | bdec => exact ends_bdec s

/-- The command's own run: the ending of `ends_exec` at the result registers as they stand. -/
theorem exec_eq_ended (i : Instr) (s : State) : ∃ x : Ending, x.Allowed i s ∧ exec i s = s.ended x := by
  obtain ⟨x, hx, he⟩ := ends_exec i s
  exact ⟨x, hx, he s.res s.res2 s.resw⟩

end Sys2Proof.Machine
end

section
/-! What every command leaves alone, and that no command reads a result register. -/

namespace Sys2Proof.Machine

variable {i : Instr} {s : State}

/-! ## The result registers -/

/-- After an allowed effect a result register holds the command's result if the rule names it, else its old value. -/
theorem after_withResults {e : Effect} (he : e.Allowed i s) (r r2 : Reg32) (rw : Word) :
    (s.withResults r r2 rw).after e = (s.after e).withResults
      (if namesRes i = true then (s.after e).res else r)
      (if namesRes2 i = true then (s.after e).res2 else r2)
      (if namesResw i = true then (s.after e).resw else rw) := by
  rw [← he.res, ← he.res2, ← he.resw]
  obtain ⟨_ | _, _ | _, _ | _, key, blk, opmem⟩ := e <;> rfl

/-- Settles O11: a command ends in one way whatever the result registers hold, and its effect names its results. -/
theorem noResultRegisterIsAnInput : Obligations.NoResultRegisterIsAnInput := by
  intro i s r r2 rw
  obtain ⟨x, hx, he⟩ := ends_exec i s
  have hs : exec i s = s.ended x := he s.res s.res2 s.resw
  rw [hs, he]
  cases x with
  | ok e =>
    have hok : (s.after e).status.err = .ok := rfl
    simp only [State.ended, hok, and_true, after_withResults hx.2]
  | error e =>
    have hne : e ≠ .ok := by rcases hx with rfl | rfl | rfl <;> decide
    simp only [State.ended, State.completed_status, hne, and_false, if_false]
    rfl
  | fault f => rfl

/-! ## The frame of a completion -/

theorem after_resw_lt {e : Effect} (he : e.Allowed i s) (h : s.resw.toNat < 2 ^ s.cfg.bits) :
    (s.after e).resw.toNat < 2 ^ s.cfg.bits := by
  have hf := he.reswFits
  rcases hw : e.resw with _ | x
  · simpa [State.after, hw] using h
  · simpa [State.after, hw] using hf x hw

theorem after_opmem_storedWithin {e : Effect} (he : e.Allowed i s) :
    StoredWithin s.cfg (storeRegions i s) s.opmem (s.after e).opmem := by
  have hm := he.opmem
  rcases ho : e.opmem with _ | m
  · exact ⟨fun x _ => by simp [State.after, ho], fun _ h => by simpa [State.after, ho] using h⟩
  · simpa [State.after, ho] using hm m ho

/-- A register that the effect does not name keeps its value. -/
theorem getD_of_isSome_eq_false {α : Type} {o : Option α} {a : α} (h : o.isSome = false) : o.getD a = a := by
  rw [Option.isSome_eq_false_iff, Option.isNone_iff_eq_none] at h
  rw [h]; rfl

/-- Settles O10: an error completion writes nothing, and an OK completion writes what its effect is allowed to. -/
theorem commandsChangeOnlyWhatTheirRuleNames : Obligations.CommandsChangeOnlyWhatTheirRuleNames := by
  intro i s t ht
  obtain ⟨x, hx, he⟩ := exec_eq_ended i s
  rw [he] at ht
  cases x with
  | ok e =>
    obtain ⟨_, ha⟩ := hx
    obtain rfl : s.after e = t := by simpa [State.ended] using ht
    refine ⟨⟨rfl, rfl, rfl, rfl, rfl, rfl, rfl, rfl⟩, ⟨rfl, rfl, by simp [State.after], rfl⟩,
      fun h => getD_of_isSome_eq_false (ha.res.trans h), fun h => getD_of_isSome_eq_false (ha.res2.trans h),
      fun h => getD_of_isSome_eq_false (ha.resw.trans h), fun h => getD_of_isSome_eq_false ?_,
      fun h₁ h₂ => getD_of_isSome_eq_false ?_, (after_opmem_storedWithin ha).outside⟩
    · exact Bool.eq_false_iff.mpr fun hk => (ha.key hk).elim h
    · exact Bool.eq_false_iff.mpr fun hb => (ha.blk hb).elim h₁ h₂
  | error e =>
    obtain rfl : s.completed e = t := by simpa [State.ended] using ht
    have hne : e ≠ .illegal := by rcases hx with rfl | rfl | rfl <;> decide
    exact ⟨⟨rfl, rfl, rfl, rfl, rfl, rfl, rfl, rfl⟩, ⟨rfl, rfl, hne, rfl⟩,
      fun _ => rfl, fun _ => rfl, fun _ => rfl, fun _ => rfl, fun _ _ => rfl, fun _ _ => rfl⟩
  | fault f => simp [State.ended] at ht

end Sys2Proof.Machine
end

section
/-! What a turn of the core, a host access and a step can do. -/

namespace Sys2Proof.Machine

variable {s t : State} {i : Instr}

/-! ## The core's turn -/

/-- All that a core turn can do (60_exceptions R500, R524). -/
theorem coreTurn_cases (s : State) :
    (s.status.busy = false ∧ coreTurn s = .next s) ∨
      s.status.busy = true ∧ (coreTurn s = .next (s.completed .illegal) ∨
        ∃ i x, decode s.latch.cmd = .ok i ∧ Ending.Allowed i s x ∧ coreTurn s = s.ended x) := by
  rcases hb : s.status.busy with _ | _
  · exact .inl ⟨rfl, by simp [coreTurn, hb]⟩
  · refine .inr ⟨rfl, ?_⟩
    rcases hd : decode s.latch.cmd with _ | i
    · exact .inl (by simp [coreTurn, hb, executeLatched, hd, State.finish_eq_completed])
    · obtain ⟨x, hx, he⟩ := exec_eq_ended i s
      exact .inr ⟨i, x, rfl, hx, by simp [coreTurn, hb, executeLatched, hd, he]⟩

/-! ## The slots -/

/-- The slot number of an offset is that of the slot it reaches, a reserved slot aside. -/
theorem number_of_slotOf {cfg : Config} {o : BitVec 28} {sl : Slot} (h : slotOf cfg o = sl) (hr : sl ≠ .reserved) :
    o.toNat / 8 = sl.number := by
  subst h
  exact (number_slotAt hr).symm

theorem slotOf_opmem_iff {cfg : Config} {o : BitVec 28} {i : Nat} :
    slotOf cfg o = .opmem i ↔ i < cfg.opmemWords ∧ o.toNat / 8 * 8 = 0x8000000 + 8 * i := by
  constructor
  · intro h
    have hn : o.toNat / 8 = 0x1000000 + i := number_of_slotOf h nofun
    have hi : i < cfg.opmemWords := by
      by_contra hc
      have hres : slotOf cfg o = .reserved := slotAt_reserved (k := o.toNat / 8) (by omega)
      rw [h] at hres
      cases hres
    exact ⟨hi, by omega⟩
  · rintro ⟨hi, ho⟩
    rw [slotOf_eq_slotAt (k := 0x1000000 + i) (by omega), slotAt_opmem hi]

/-- Only an unwritten OPMEM word has no defined value. -/
theorem readSlot_eq_none_iff (s : State) (sl : Slot) :
    s.readSlot sl = none ↔ ∃ i, sl = .opmem i ∧ s.word i = none := by
  cases sl <;> simp [State.readSlot]

/-- The writes that break a duty while BUSY = 1 (60_exceptions R511). -/
theorem busyDuty_cases (sl : Slot) :
    ((sl = .ctrl ∨ sl = .status) ∧ busyDuty sl = none) ∨ (sl = .cmd ∧ busyDuty sl = some .commandWhileBusy) ∨
      (sl ≠ .ctrl ∧ sl ≠ .status ∧ sl ≠ .cmd ∧ busyDuty sl = some .writeWhileBusy) := by
  cases sl <;> simp [busyDuty]

/-! ## A host access -/

/-- All that a host read can do. -/
theorem hostRead_cases (s : State) (o : BitVec 28) :
    (∃ (v : Word) (n : Nat), (s.status.busy = false → n = s.freeReads ∧ s.readSlot (slotOf s.cfg o) = some v) ∧
        hostRead s o = .next { s with busRead := some v, freeReads := n }) ∨
      (s.status.busy = false ∧ hostRead s o = .fault .unwrittenWord ∧
        ∃ i, slotOf s.cfg o = .opmem i ∧ s.word i = none) := by
  by_cases hu : (s.status.busy && (slotOf s.cfg o).unspecifiedWhileBusy) = true
  · refine .inl ⟨busyRead s.cfg (slotOf s.cfg o) s.freeReads, s.freeReads + 1, fun hb => ?_, by simp [hostRead, hu]⟩
    simp [hb] at hu
  · rcases hv : s.readSlot (slotOf s.cfg o) with _ | v
    · obtain ⟨i, hi, hw⟩ := (readSlot_eq_none_iff ..).mp hv
      refine .inr ⟨?_, by simp [hostRead, hu, hv], i, hi, hw⟩
      simpa [hi, Slot.unspecifiedWhileBusy] using hu
    · exact .inl ⟨v, s.freeReads, fun _ => ⟨rfl, rfl⟩, by simp [hostRead, hu, hv]⟩

/-- All that a host write can do. -/
theorem hostWrite_cases (s : State) (o : BitVec 28) (v : Word) :
    ((s.status.busy = false ∨ slotOf s.cfg o = .ctrl ∨ slotOf s.cfg o = .status) ∧
        hostWrite s o v = .next (s.writeSlot (slotOf s.cfg o) v)) ∨
      (s.status.busy = true ∧ slotOf s.cfg o = .cmd ∧ hostWrite s o v = .fault .commandWhileBusy) ∨
      (s.status.busy = true ∧ slotOf s.cfg o ≠ .ctrl ∧ slotOf s.cfg o ≠ .status ∧ slotOf s.cfg o ≠ .cmd ∧
        hostWrite s o v = .fault .writeWhileBusy) := by
  rcases hb : s.status.busy with _ | _
  · exact .inl ⟨.inl rfl, by simp [hostWrite, hb]⟩
  · rcases busyDuty_cases (slotOf s.cfg o) with ⟨hs, hd⟩ | ⟨hs, hd⟩ | ⟨h₁, h₂, h₃, hd⟩
    · exact .inl ⟨.inr hs, by simp [hostWrite, hd]⟩
    · exact .inr (.inl ⟨rfl, hs, by simp [hostWrite, hb, hd]⟩)
    · exact .inr (.inr ⟨rfl, h₁, h₂, h₃, by simp [hostWrite, hb, hd]⟩)

/-- All that a host access can do: it is FAULT while the power-on reset is held, and else the read or write it is. -/
theorem hostAccess_cases (s : State) (a : HostAccess) :
    (s.resetHeld = true ∧ hostAccess s a = .fault .accessInReset) ∨
      s.resetHeld = false ∧ ((∃ o, a = .read o ∧ hostAccess s a = hostRead s o) ∨
        ∃ o v, a = .write o v ∧ hostAccess s a = hostWrite s o v) := by
  rcases hr : s.resetHeld with _ | _
  · refine .inr ⟨rfl, ?_⟩
    cases a with
    | read o => exact .inl ⟨o, rfl, by simp [hostAccess, hr]⟩
    | write o v => exact .inr ⟨o, v, rfl, by simp [hostAccess, hr]⟩
  · exact .inl ⟨rfl, by simp [hostAccess, hr]⟩

/-! ## The step -/

/-- A step is a turn of the core, a host access, or one of the platform's two acts. -/
theorem step_cases (s : State) :
    (∃ rest, (s.script = [] ∨ s.script = .core :: rest) ∧ step s = coreTurn { s with script := rest }) ∨
      (∃ a rest, s.script = .host a :: rest ∧ step s = hostAccess { s with script := rest } a) ∨
      (∃ rest, s.script = .powerOn :: rest ∧ step s = .next (State.applyPowerOn { s with script := rest })) ∨
      ∃ rest, s.script = .release :: rest ∧ step s = .next (State.releaseReset { s with script := rest }) := by
  rcases hs : s.script with _ | ⟨turn, rest⟩
  · exact .inl ⟨[], .inl rfl, by rw [step_of_empty hs, ← hs]⟩
  · cases turn with
    | host a => exact .inr (.inl ⟨a, rest, rfl, step_of_access hs⟩)
    | core => exact .inl ⟨rest, .inr rfl, step_of_turn hs⟩
    | powerOn => exact .inr (.inr (.inl ⟨rest, rfl, step_of_turn hs⟩))
    | release => exact .inr (.inr (.inr ⟨rest, rfl, step_of_turn hs⟩))

end Sys2Proof.Machine
end

section
/-! The invariant: every operation of the state keeps it, and so every step. -/

namespace Sys2Proof.Machine

variable {s t : State} {i : Instr}

theorem invariant_powerOn (cfg : Config) : Invariant (State.powerOn cfg) where
  memory := memoryShape_nil cfg
  rvFits := Nat.two_pow_pos _
  reswFits := Nat.two_pow_pos _
  idle _ := rfl
  pending h := by cases h

/-- Settles O15. -/
theorem powerOnHasInvariant : Obligations.PowerOnHasInvariant :=
  ⟨invariant_powerOn, invariant_powerOn Config.standard⟩

/-- The invariant does not speak of the model's own fields but for the held reset. -/
theorem Invariant.withPort (h : Invariant s) (script : List Turn) (busRead : Option Word) (freeReads : Nat) :
    Invariant { s with script := script, busRead := busRead, freeReads := freeReads } :=
  ⟨h.memory, h.rvFits, h.reswFits, h.idle, h.pending⟩

/-! ## The core -/

theorem Invariant.completed (h : Invariant s) (e : Err) : Invariant (s.completed e) where
  memory := h.memory
  rvFits := h.rvFits
  reswFits := h.reswFits
  idle _ := rfl
  pending hb := by cases hb

theorem Invariant.after {e : Effect} (h : Invariant s) (hr : RangesOk i s) (he : e.Allowed i s) :
    Invariant (s.after e) where
  memory := (after_opmem_storedWithin he).shape (fun r hm => hr r (List.mem_append_right _ hm)) h.memory
  rvFits := h.rvFits
  reswFits := after_resw_lt he h.reswFits
  idle _ := rfl
  pending hb := by cases hb

theorem Invariant.coreTurn (h : Invariant s) (ht : coreTurn s = .next t) : Invariant t := by
  rcases coreTurn_cases s with ⟨_, he⟩ | ⟨_, he | ⟨i, x, _, hx, he⟩⟩ <;> rw [he] at ht
  · cases ht; exact h
  · cases ht; exact h.completed _
  · cases x with
    | ok e =>
      obtain ⟨⟨_, hr, _⟩, ha⟩ := hx
      cases ht; exact h.after hr ha
    | error e => cases ht; exact h.completed _
    | fault f => cases ht

/-! ## The host -/

theorem memoryShape_opmemAfterSoftReset (h : MemoryShape s.cfg s.opmem) :
    MemoryShape s.cfg (opmemAfterSoftReset s) := by
  have hfold : ∀ (regions : List (Nat × Nat)) (m : Memory), MemoryShape s.cfg m →
      MemoryShape s.cfg (regions.foldl (fun m r => memUnwrite s.cfg m r.1 r.2) m) := by
    intro regions
    induction regions with
    | nil => exact fun _ hm => hm
    | cons r rest ih => exact fun m hm => ih _ (hm.memUnwrite r.1 r.2)
  rw [opmemAfterSoftReset]
  split
  · exact hfold _ _ h
  · exact h

theorem Invariant.softReset (h : Invariant s) : Invariant s.softReset where
  memory := memoryShape_opmemAfterSoftReset (s := s) h.memory
  rvFits := Nat.two_pow_pos _
  reswFits := Nat.two_pow_pos _
  idle _ := rfl
  pending hb := by cases hb

theorem Invariant.writeCtrl (h : Invariant s) (v : Word) : Invariant (s.writeCtrl v) := by
  rw [State.writeCtrl]
  split
  · exact h.softReset
  · exact ⟨h.memory, h.rvFits, h.reswFits, h.idle, h.pending⟩

theorem writeStatus_eq (s : State) (v : Word) :
    s.writeStatus v = { s with status := { s.status with done := s.status.done && !v.getLsbD 1 } } := by
  rw [State.writeStatus]
  cases v.getLsbD 1 with
  | false => simp
  | true => simp

theorem Invariant.writeStatus (h : Invariant s) (v : Word) : Invariant (s.writeStatus v) := by
  rw [writeStatus_eq]
  refine ⟨h.memory, h.rvFits, h.reswFits, h.idle, fun hb => ?_⟩
  obtain ⟨hl, hd, hr⟩ := h.pending hb
  exact ⟨hl, by simp [hd], hr⟩

/-- A CMD write fills the latch with CMD and the argument registers. -/
theorem Invariant.issue (h : Invariant s) (hr : s.resetHeld = false) (c : Reg32) : Invariant (s.issue c) where
  memory := h.memory
  rvFits := h.rvFits
  reswFits := h.reswFits
  idle hb := by cases hb
  pending _ := ⟨rfl, rfl, hr⟩

theorem Args.set_rv_lt {cfg : Config} {a : Args} (h : a.rv.toNat < 2 ^ cfg.bits) (r : ArgReg) (v : Word) :
    (a.set cfg r v).rv.toNat < 2 ^ cfg.bits := by
  cases r with
  | rv =>
    simp only [Args.set, BitVec.toNat_ofNat]
    exact (Nat.mod_le _ _).trans_lt (Nat.mod_lt _ (Nat.two_pow_pos _))
  | _ => exact h

/-- With BUSY = 0 the invariant is that of the memory, the B-bit registers and the empty latch. -/
theorem invariant_of_idle (hb : s.status.busy = false) (hm : MemoryShape s.cfg s.opmem)
    (hv : s.args.rv.toNat < 2 ^ s.cfg.bits) (hw : s.resw.toNat < 2 ^ s.cfg.bits) (hl : s.latch = Latch.empty) :
    Invariant s :=
  ⟨hm, hv, hw, fun _ => hl, fun h => by rw [hb] at h; cases h⟩

/-- The write of a slot that the duties of the busy window allow keeps the invariant. -/
theorem Invariant.writeSlot {sl : Slot} (h : Invariant s) (hr : s.resetHeld = false)
    (hb : s.status.busy = false ∨ sl = .ctrl ∨ sl = .status) (hi : ∀ i, sl = .opmem i → i < s.cfg.opmemWords)
    (v : Word) : Invariant (s.writeSlot sl v) := by
  rcases hb with hb | rfl | rfl
  · have hl := h.idle hb
    cases sl with
    | ctrl => exact h.writeCtrl v
    | status => exact h.writeStatus v
    | cmd => exact h.issue hr _
    | arg r => exact invariant_of_idle hb h.memory (Args.set_rv_lt h.rvFits r v) h.reswFits hl
    | key j => exact invariant_of_idle hb h.memory h.rvFits h.reswFits hl
    | blk j => exact invariant_of_idle hb h.memory h.rvFits h.reswFits hl
    | opmem i => exact invariant_of_idle hb (h.memory.storeWord _ (hi i rfl)) h.rvFits h.reswFits hl
    | id | cfg | res | res2 | resw | reserved => exact h
  · exact h.writeCtrl v
  · exact h.writeStatus v

theorem Invariant.hostAccess {a : HostAccess} (h : Invariant s) (ht : hostAccess s a = .next t) : Invariant t := by
  rcases hostAccess_cases s a with ⟨_, he⟩ | ⟨hr, ⟨o, _, he⟩ | ⟨o, v, _, he⟩⟩ <;> rw [he] at ht
  · cases ht
  · rcases hostRead_cases s o with ⟨v, n, _, hn⟩ | ⟨_, hf, _⟩
    · rw [hn] at ht; cases ht; exact h.withPort _ _ _
    · rw [hf] at ht; cases ht
  · rcases hostWrite_cases s o v with ⟨hb, hn⟩ | ⟨_, _, hf⟩ | ⟨_, _, _, _, hf⟩
    · rw [hn] at ht; cases ht
      exact h.writeSlot hr hb (fun i hi => (slotOf_opmem_iff.mp hi).1) v
    · rw [hf] at ht; cases ht
    · rw [hf] at ht; cases ht

/-! ## The step -/

/-- Settles O14, by the kind of the turn that the step takes. -/
theorem stepKeepsInvariant : Obligations.StepKeepsInvariant := by
  intro s t h ht
  rcases step_cases s with ⟨rest, _, he⟩ | ⟨a, rest, _, he⟩ | ⟨rest, _, he⟩ | ⟨rest, _, he⟩ <;> rw [he] at ht
  · exact (h.withPort rest _ _).coreTurn ht
  · exact (h.withPort rest _ _).hostAccess ht
  · cases ht
    have hp := invariant_powerOn s.cfg
    exact ⟨hp.memory, hp.rvFits, hp.reswFits, hp.idle, fun hb => by cases hb⟩
  · cases ht
    refine ⟨h.memory, h.rvFits, h.reswFits, h.idle, fun hb => ?_⟩
    obtain ⟨hl, hd, _⟩ := h.pending hb
    exact ⟨hl, hd, rfl⟩

end Sys2Proof.Machine
end

section
/-! The ways to a FAULT. -/

namespace Sys2Proof.Machine

variable {s : State}

/-! ## The core's faults -/

/-- A core turn is not refused, and its faults are those of the pending command. -/
theorem coreTurn_fault (s : State) :
    (∀ q, coreTurn s ≠ .refused q) ∧ ∀ f, coreTurn s = .fault f →
      s.status.busy = true ∧ ∃ i, decode s.latch.cmd = .ok i ∧ ChecksPass i s ∧ CommandFault i s f := by
  rcases coreTurn_cases s with ⟨_, he⟩ | ⟨hb, he | ⟨i, x, hd, hx, he⟩⟩ <;> rw [he]
  · simp
  · simp
  · cases x with
    | ok e => simp [State.ended]
    | error e => simp [State.ended]
    | fault f => simpa [State.ended, hb, hd, Ending.Allowed] using hx

/-! ## The host's faults -/

/-- Why a host access is FAULT: a duty the host broke, or an unwritten word it read (20_memory R83, 60_exceptions R511,
70_reset R551). -/
def AccessFault (s : State) (a : HostAccess) : Fault → Prop
  | .accessInReset => s.resetHeld = true
  | .unwrittenWord => s.status.busy = false ∧ ∃ o i, a = .read o ∧ slotOf s.cfg o = .opmem i ∧ s.word i = none
  | .commandWhileBusy => s.status.busy = true ∧ ∃ o v, a = .write o v ∧ slotOf s.cfg o = .cmd
  | .writeWhileBusy => s.status.busy = true ∧ ∃ o v, a = .write o v ∧
      slotOf s.cfg o ≠ .ctrl ∧ slotOf s.cfg o ≠ .status ∧ slotOf s.cfg o ≠ .cmd
  | .evenInput | .owfPrecondition => False

/-- A host access is not refused, and its faults are the host's. -/
theorem hostAccess_fault (s : State) (a : HostAccess) :
    (∀ q, hostAccess s a ≠ .refused q) ∧ ∀ f, hostAccess s a = .fault f → AccessFault s a f := by
  rcases hostAccess_cases s a with ⟨hr, he⟩ | ⟨_, ⟨o, ha, he⟩ | ⟨o, v, ha, he⟩⟩ <;> rw [he]
  · exact ⟨nofun, by rintro _ ⟨⟩; exact hr⟩
  · rcases hostRead_cases s o with ⟨v, n, _, hn⟩ | ⟨hb, hf, i, hs, hw⟩
    · simp [hn]
    · rw [hf]
      exact ⟨nofun, by rintro _ ⟨⟩; exact ⟨hb, o, i, ha, hs, hw⟩⟩
  · rcases hostWrite_cases s o v with ⟨_, hn⟩ | ⟨hb, hs, hf⟩ | ⟨hb, h₁, h₂, h₃, hf⟩
    · simp [hn]
    · rw [hf]
      exact ⟨nofun, by rintro _ ⟨⟩; exact ⟨hb, o, v, ha, hs⟩⟩
    · rw [hf]
      exact ⟨nofun, by rintro _ ⟨⟩; exact ⟨hb, o, v, ha, h₁, h₂, h₃⟩⟩

/-- The slot of CMD is at 0x020. -/
theorem slotOf_eq_cmd_iff {cfg : Config} {o : BitVec 28} : slotOf cfg o = .cmd ↔ o.toNat / 8 * 8 = 0x020 := by
  refine ⟨fun h => ?_, slotOf_cmd⟩
  have hn : o.toNat / 8 = 4 := number_of_slotOf h nofun
  omega

/-! ## The step's faults -/

/-- A step is not refused, and its faults are the pending command's or the host's. -/
theorem step_fault (s : State) :
    (∀ q, step s ≠ .refused q) ∧ ∀ f, step s = .fault f →
      (CoreMoves s ∧ ∃ i, decode s.latch.cmd = .ok i ∧ ChecksPass i s ∧ CommandFault i s f) ∨
        ∃ a rest, s.script = .host a :: rest ∧ AccessFault { s with script := rest } a f := by
  rcases step_cases s with ⟨rest, hs, he⟩ | ⟨a, rest, hs, he⟩ | ⟨rest, _, he⟩ | ⟨rest, _, he⟩ <;> rw [he]
  · obtain ⟨hq, hf⟩ := coreTurn_fault { s with script := rest }
    refine ⟨hq, fun f h => .inl ?_⟩
    obtain ⟨hb, i, hd, hc, hi⟩ := hf f h
    exact ⟨⟨hb, hs.imp_right fun h => ⟨rest, h⟩⟩, i, hd, hc, by cases f <;> exact hi⟩
  · obtain ⟨hq, hf⟩ := hostAccess_fault { s with script := rest } a
    exact ⟨hq, fun f h => .inr ⟨a, rest, hs, hf f h⟩⟩
  · simp
  · simp

/-- Settles O13, by where each reason can come from. -/
theorem faultsComeOnlyFromTheCasesOfTheSpec : Obligations.FaultsComeOnlyFromTheCasesOfTheSpec := by
  intro s
  obtain ⟨hq, hf⟩ := step_fault s
  refine ⟨hq, fun h => ?_, fun h => ?_, fun h => ?_, fun h => ?_, fun h => ?_, fun h => ?_⟩
  · obtain ⟨_, _, _, _, hi⟩ | ⟨a, rest, hs, hr⟩ := hf _ h
    · exact hi.elim
    · exact ⟨hr, a, rest, hs⟩
  · obtain ⟨_, _, _, _, hi⟩ | ⟨_, rest, hs, hb, o, v, rfl, hc⟩ := hf _ h
    · exact hi.elim
    · exact ⟨hb, o, v, rest, hs, slotOf_eq_cmd_iff.mp hc⟩
  · obtain ⟨_, _, _, _, hi⟩ | ⟨_, rest, hs, hb, o, v, rfl, hctrl, hstatus, hcmd⟩ := hf _ h
    · exact hi.elim
    · refine ⟨hb, o, v, rest, hs, ?_⟩
      simp only [List.mem_cons, List.not_mem_nil, or_false, not_or]
      exact ⟨fun h => hctrl (slotOf_ctrl h), fun h => hstatus (slotOf_status h), fun h => hcmd (slotOf_cmd h)⟩
  · obtain ⟨hm, i, hd, hc, hi⟩ | ⟨_, rest, hs, hb, o, i, rfl, hsl, hw⟩ := hf _ h
    · exact .inr ⟨hm, i, hd, hc, hi⟩
    · obtain ⟨hi, ho⟩ := slotOf_opmem_iff.mp hsl
      exact .inl ⟨hb, o, i, rest, hs, hi, ho, hw⟩
  · obtain ⟨hm, _, hd, hc, w, a, rfl, ha, he⟩ | ⟨_, _, _, ⟨⟩⟩ := hf _ h
    exact ⟨hm, w, a, hd, hc, ha, he⟩
  · obtain ⟨hm, _, hd, hc, w, a, rfl, ha, he⟩ | ⟨_, _, _, ⟨⟩⟩ := hf _ h
    exact ⟨hm, w, a, hd, hc, ha, he⟩

end Sys2Proof.Machine
end

section
/-! The slots of the host port, and what the host's accesses do to them. -/

namespace Sys2Proof.Machine

variable {s t : State} {rest : List Turn} {o o' : BitVec 28}

/-! ## Offsets -/

/-- Settles O24. -/
theorem offsetLowBitsAreIgnored : Obligations.OffsetLowBitsAreIgnored := by
  intro s o o' v h
  have hn : slotNumber o = slotNumber o' := by
    have h' := congrArg BitVec.toNat h
    simp only [BitVec.extractLsb'_toNat, Nat.shiftRight_eq_div_pow] at h'
    simp only [slotNumber]
    omega
  have hs : slotOf s.cfg o = slotOf s.cfg o' := congrArg (slotAt s.cfg) hn
  simp only [hostAccess, hostRead, hostWrite, hs, and_self]

/-- Two offsets of different slot numbers reach different slots, reserved ones aside. -/
theorem slotOf_ne {cfg : Config} (h : o'.toNat / 8 ≠ o.toNat / 8) (hr : slotOf cfg o ≠ .reserved) :
    slotOf cfg o' ≠ slotOf cfg o := by
  intro he
  exact h ((number_of_slotOf he hr).trans (number_of_slotOf rfl hr).symm)

/-! ## CTRL and STATUS -/

/-- Settles O17. -/
theorem statusWriteOnlyClearsDone : Obligations.StatusWriteOnlyClearsDone := by
  intro s o v hr ho
  rw [hostAccess_write hr (slotOf_status ho) (.inr rfl), ← writeStatus_eq]
  rfl

theorem writeCtrl_of_clear {v : Word} (h : v.getLsbD 1 = false) : s.writeCtrl v = { s with ie := v.getLsbD 0 } := by
  rw [State.writeCtrl, h]; rfl

theorem writeCtrl_of_set {v : Word} (h : v.getLsbD 1 = true) : s.writeCtrl v = s.softReset := by
  rw [State.writeCtrl, h]; rfl

theorem ctrlWord_getLsbD (ie : Bool) (j : Nat) : (ctrlWord ie).getLsbD j = (decide (j = 0) && ie) := by
  cases ie
  · simp [ctrlWord]
  · simp [ctrlWord, BitVec.getLsbD_one]

theorem statusWord_fields (st : Status) :
    (statusWord st).getLsbD 0 = st.busy ∧ (statusWord st).getLsbD 1 = st.done ∧
      (statusWord st).extractLsb' 8 8 = BitVec.ofNat 8 (completionCode st.err) ∧
      (statusWord st).extractLsb' 2 6 = 0 ∧ (statusWord st).extractLsb' 16 48 = 0 := by
  obtain ⟨busy, done, err⟩ := st
  cases busy <;> cases done <;> cases err <;> decide

/-- Settles O18. -/
theorem ctrlAndStatusFields : Obligations.CtrlAndStatusFields := by
  refine ⟨fun s rest o v hs hr ho => ?_, fun s rest o hs hr => ⟨fun ho => ?_, fun ho => ?_⟩⟩
  · rw [step_write hs hr (slotOf_ctrl ho) (.inr rfl)]
    exact ⟨fun h => congrArg Host.Outcome.next (writeCtrl_of_clear h),
      fun h => ⟨_, congrArg Host.Outcome.next (writeCtrl_of_set h), rfl⟩⟩
  · exact ⟨_, step_read hs hr (slotOf_ctrl ho) (.inr rfl) rfl, ctrlWord_getLsbD s.ie⟩
  · exact ⟨_, step_read hs hr (slotOf_status ho) (.inr rfl) rfl, statusWord_fields s.status⟩

/-! ## Writes of the data slots -/

/-- The slots that hold what the host writes to them: the argument registers, KEY, BLK and OPMEM. -/
def Slot.isData : Slot → Bool
  | .arg _ | .key _ | .blk _ | .opmem _ => true
  | .id | .cfg | .ctrl | .status | .cmd | .res | .res2 | .resw | .reserved => false

theorem ne_reserved_of_isData {sl : Slot} (h : sl.isData = true) : sl ≠ .reserved := by
  rintro rfl
  cases h

/-- The offsets of the data slots (10_state R54). -/
theorem slotOf_isData {cfg : Config}
    (h : (0x028 ≤ o.toNat / 8 * 8 ∧ o.toNat / 8 * 8 ≤ 0x058) ∨ (0x080 ≤ o.toNat / 8 * 8 ∧ o.toNat / 8 * 8 ≤ 0x0D8) ∨
      (0x8000000 ≤ o.toNat / 8 * 8 ∧ o.toNat / 8 * 8 < 0x8000000 + 8 * cfg.opmemWords)) :
    (slotOf cfg o).isData = true := by
  have hk : slotOf cfg o = slotAt cfg (o.toNat / 8) := rfl
  rw [hk]
  generalize o.toNat / 8 = k at h
  rcases slotAt_cases cfg k with h₁ | ⟨j, rfl⟩ | ⟨j, rfl⟩ | ⟨i, hi, rfl⟩ | h₁
  · obtain ⟨h₂, h₃⟩ : 5 ≤ k ∧ k ≤ 11 := by omega
    interval_cases k <;> rfl
  · rw [slotAt_key]; rfl
  · rw [slotAt_blk]; rfl
  · rw [slotAt_opmem hi]; rfl
  · omega

/-- A data slot is B bits wide if it is RV or an OPMEM word, and 32 bits if not. -/
theorem width_of_isData {cfg : Config} (h : (slotOf cfg o).isData = true) :
    (slotOf cfg o).width cfg =
      if o.toNat / 8 * 8 = 0x058 ∨ 0x8000000 ≤ o.toNat / 8 * 8 then cfg.bits else 32 := by
  have hn : o.toNat / 8 = (slotOf cfg o).number := number_of_slotOf rfl (ne_reserved_of_isData h)
  generalize slotOf cfg o = sl at h hn
  cases sl with
  | arg r =>
    cases r with
    | rv => rw [if_pos (by simp only [Slot.number] at hn; omega)]; rfl
    | _ => rw [if_neg (by simp only [Slot.number] at hn; omega)]; rfl
  | key j => rw [if_neg (by simp only [Slot.number] at hn; omega)]; rfl
  | blk j => rw [if_neg (by simp only [Slot.number] at hn; omega)]; rfl
  | opmem i => rw [if_pos (by simp only [Slot.number] at hn; omega)]; rfl
  | id | cfg | ctrl | status | cmd | res | res2 | resw | reserved => cases h

theorem setWidth_setWidth_eq (v : Word) : (v.setWidth 32).setWidth 64 = BitVec.ofNat 64 (v.toNat % 2 ^ 32) := by
  apply BitVec.eq_of_toNat_eq
  simp

/-- A data slot reads what was written to it, cut to its width. -/
theorem readSlot_writeSlot_self {sl : Slot} (h : sl.isData = true) (v : Word) :
    (s.writeSlot sl v).readSlot sl = some (BitVec.ofNat 64 (v.toNat % 2 ^ sl.width s.cfg)) := by
  cases sl with
  | arg r =>
    cases r with
    | rv => rfl
    | _ => exact congrArg some (setWidth_setWidth_eq v)
  | key j => simp [State.writeSlot, State.readSlot, setWidth_setWidth_eq, Slot.width]
  | blk j => simp [State.writeSlot, State.readSlot, setWidth_setWidth_eq, Slot.width]
  | opmem i =>
    simp [State.writeSlot, State.readSlot, State.word, loadWord_storeWord_self, Slot.width]
  | id | cfg | ctrl | status | cmd | res | res2 | resw | reserved => cases h

/-- What an argument register reads after a write of one. -/
theorem Args.get_set (cfg : Config) (a : Args) (r r' : ArgReg) (v : Word) :
    (a.set cfg r v).get r' = if r' = r then (a.set cfg r v).get r else a.get r' := by
  cases r <;> cases r' <;> rfl

/-- A write of a data slot leaves what every other slot reads. -/
theorem readSlot_writeSlot_of_ne {sl sl' : Slot} (h : sl.isData = true) (hne : sl' ≠ sl) (v : Word) :
    (s.writeSlot sl v).readSlot sl' = s.readSlot sl' := by
  cases sl with
  | arg r =>
    cases sl' with
    | arg r' =>
      have hr : r' ≠ r := fun e => hne (congrArg Slot.arg e)
      exact congrArg some ((Args.get_set ..).trans (if_neg hr))
    | _ => rfl
  | key j =>
    cases sl' with
    | key j' =>
      have hj : j.val ≠ j'.val := fun e => hne (congrArg _ (Fin.ext e.symm))
      simp [State.writeSlot, State.readSlot, Vector.getElem_set_ne _ _ hj]
    | _ => rfl
  | blk j =>
    cases sl' with
    | blk j' =>
      have hj : j.val ≠ j'.val := fun e => hne (congrArg _ (Fin.ext e.symm))
      simp [State.writeSlot, State.readSlot, Vector.getElem_set_ne _ _ hj]
    | _ => rfl
  | opmem i =>
    cases sl' with
    | opmem i' =>
      have hi : i' ≠ i := fun e => hne (congrArg Slot.opmem e)
      simp [State.writeSlot, State.readSlot, State.word, loadWord_storeWord_of_ne _ _ _ hi]
    | _ => rfl
  | id | cfg | ctrl | status | cmd | res | res2 | resw | reserved => cases h

/-- A write of a data slot changes the argument registers, KEY, BLK or OPMEM only. -/
theorem writeSlot_frame {sl : Slot} (h : sl.isData = true) (v : Word) :
    s.writeSlot sl v = { s with
      args := (s.writeSlot sl v).args, key := (s.writeSlot sl v).key
      blk := (s.writeSlot sl v).blk, opmem := (s.writeSlot sl v).opmem } := by
  cases sl with
  | arg r | key j | blk j | opmem i => rfl
  | id | cfg | ctrl | status | cmd | res | res2 | resw | reserved => cases h

/-- A read of the data slot just written returns what was written, cut to its width. -/
theorem step_read_writeSlot {sl : Slot} (h : sl.isData = true) (hs : s.script = .host (.read o) :: rest)
    (hr : s.resetHeld = false) (hb : s.status.busy = false) (hsl : slotOf s.cfg o = sl) (v : Word) :
    step (s.writeSlot sl v) = .next { s.writeSlot sl v with
      script := rest, busRead := some (BitVec.ofNat 64 (v.toNat % 2 ^ sl.width s.cfg)) } := by
  have hf := writeSlot_frame (s := s) h v
  exact step_read (by rw [hf]; exact hs) (by rw [hf]; exact hr) (by rw [hf]; exact hsl)
    (.inl (by rw [hf]; exact hb)) (readSlot_writeSlot_self h v)

/-- Settles O20: the slot written is a data slot, whose write and read are said above. -/
theorem hostWriteReadsBack : Obligations.HostWriteReadsBack := by
  intro s rest o v hs hr hb ho
  have hd := slotOf_isData ho
  have hv : BitVec.ofNat 64 (v.toNat % 2 ^ (slotOf s.cfg o).width s.cfg) =
      if o.toNat / 8 * 8 = 0x058 ∨ 0x8000000 ≤ o.toNat / 8 * 8 then BitVec.ofNat 64 (v.toNat % 2 ^ s.cfg.bits)
      else BitVec.ofNat 64 (v.toNat % 2 ^ 32) := by
    rw [width_of_isData hd]
    exact apply_ite (fun n => BitVec.ofNat 64 (v.toNat % 2 ^ n)) _ _ _
  refine ⟨_, step_write hs hr rfl (.inl hb), writeSlot_frame hd v, fun o' hne => ?_, ?_⟩
  · rw [readSlot_writeSlot_of_ne hd (slotOf_ne hne (ne_reserved_of_isData hd))]
    exact readSlot_port s _ s.busRead s.freeReads _
  · rw [← hv]
    exact step_read_writeSlot (s := { s with script := .host (.read o) :: rest }) hd rfl hr hb rfl v

end Sys2Proof.Machine
end

section
/-! What the host reads and writes at each offset, and the platform's reset. -/

namespace Sys2Proof.Machine

variable {s t : State} {rest : List Turn} {o : BitVec 28}

/-! ## Read-only and reserved slots -/

/-- The slots that a write with BUSY = 0 does not change. -/
theorem writeSlot_ignored {sl : Slot} (h : sl ∈ [Slot.id, .cfg, .res, .res2, .resw, .reserved]) (v : Word) :
    s.writeSlot sl v = s := by
  simp only [List.mem_cons, List.not_mem_nil, or_false] at h
  rcases h with rfl | rfl | rfl | rfl | rfl | rfl <;> rfl

theorem slotOf_reserved {cfg : Config} (h : o.toNat / 8 * 8 = 0x078 ∨
    (0x0E0 ≤ o.toNat / 8 * 8 ∧ o.toNat / 8 * 8 < 0x8000000) ∨ 0x8000000 + 8 * cfg.opmemWords ≤ o.toNat / 8 * 8) :
    slotOf cfg o = .reserved :=
  slotAt_reserved (k := o.toNat / 8) (by omega)

/-- The offsets of ID, CFG, the result registers and the reserved slots (10_state R54). -/
theorem slotOf_readOnly {cfg : Config} (h : o.toNat / 8 * 8 ∈ [0x000, 0x008, 0x060, 0x068, 0x070, 0x078] ∨
    (0x0E0 ≤ o.toNat / 8 * 8 ∧ o.toNat / 8 * 8 < 0x8000000) ∨ 0x8000000 + 8 * cfg.opmemWords ≤ o.toNat / 8 * 8) :
    slotOf cfg o ∈ [Slot.id, .cfg, .res, .res2, .resw, .reserved] := by
  rcases h with h | h
  · simp only [List.mem_cons, List.not_mem_nil, or_false] at h
    rcases h with h | h | h | h | h | h
    · rw [slotOf_eq_slotAt (k := 0) h]; simp [slotAt]
    · rw [slotOf_eq_slotAt (k := 1) h]; simp [slotAt]
    · rw [slotOf_eq_slotAt (k := 12) h]; simp [slotAt]
    · rw [slotOf_eq_slotAt (k := 13) h]; simp [slotAt]
    · rw [slotOf_eq_slotAt (k := 14) h]; simp [slotAt]
    · rw [slotOf_reserved (.inl h)]; simp
  · rw [slotOf_reserved (.inr h)]; simp

/-- Settles O21. -/
theorem readOnlyAndReservedSlotsIgnoreWrites : Obligations.ReadOnlyAndReservedSlotsIgnoreWrites := by
  refine ⟨fun s rest o v hs hr hb ho => ?_, fun s rest o hs hr ho => ?_⟩
  · rw [step_write hs hr rfl (.inl hb), writeSlot_ignored (slotOf_readOnly ho)]
  · exact step_read hs hr (slotOf_reserved ho) (.inr rfl) rfl

/-! ## Reads -/

/-- A host read that is no FAULT changes what the port returned and the count of free values only. -/
theorem hostAccess_read_next (h : hostAccess s (.read o) = .next t) :
    t = { s with busRead := t.busRead, freeReads := t.freeReads } ∧ s.resetHeld = false ∧
      (s.status.busy = false → t.freeReads = s.freeReads ∧ s.readSlot (slotOf s.cfg o) = t.busRead ∧
        t.busRead.isSome) := by
  rcases hostAccess_cases s (.read o) with ⟨_, he⟩ | ⟨hr, ⟨o', ho, he⟩ | ⟨o', v, ho, _⟩⟩
  · rw [he] at h; cases h
  · cases ho
    rw [he] at h
    rcases hostRead_cases s o with ⟨v, n, hn, hv⟩ | ⟨_, hf, _⟩
    · rw [hv] at h; cases h
      exact ⟨rfl, hr, fun hb => ⟨(hn hb).1, (hn hb).2, rfl⟩⟩
    · rw [hf] at h; cases h
  · cases ho

/-- Settles O23: the registers by their offsets, and what a read keeps. -/
theorem hostReadsHaveNoSideEffect : Obligations.HostReadsHaveNoSideEffect := by
  refine ⟨fun s rest o hs hr r hreg hbusy ho => ?_, fun s t rest o hs ht => ?_⟩
  · obtain ⟨hval, hspec⟩ := registerReads_slot hreg ho
    exact step_read hs hr rfl (hbusy.symm.imp_right hspec.mpr) hval
  · rw [step_of_access hs] at ht
    obtain ⟨hf, hr, hidle⟩ := hostAccess_read_next ht
    refine ⟨hf, fun hb => ?_⟩
    obtain ⟨hn, hv, hsome⟩ := hidle hb
    obtain ⟨x, hx⟩ := Option.isSome_iff_exists.mp hsome
    rw [hx] at hf hv
    refine ⟨hn, ?_⟩
    rw [hf]
    exact step_read rfl hr rfl (.inl hb) (hv ▸ readSlot_port _ _ _ _ _)

/-! ## Power-on -/

/-- CFG of a build reads its OPMEM_WORDS. -/
theorem cfgWord_of_wf {cfg : Config} (h : cfg.wf) : cfgWord cfg = BitVec.ofNat 64 cfg.opmemWords := by
  obtain ⟨_, h2⟩ := h
  rw [cfgWord, Nat.mod_eq_of_lt (by omega)]

/-- What every slot but ID, CFG and OPMEM reads after power-on. -/
theorem readSlot_powerOn (cfg : Config) {sl : Slot} (hid : sl ≠ .id) (hcfg : sl ≠ .cfg) (hmem : ∀ i, sl ≠ .opmem i) :
    (State.powerOn cfg).readSlot sl = some 0 := by
  cases sl with
  | id => exact absurd rfl hid
  | cfg => exact absurd rfl hcfg
  | opmem i => exact absurd rfl (hmem i)
  | arg r => cases r <;> rfl
  | key j => simp [State.readSlot, State.powerOn]
  | blk j => simp [State.readSlot, State.powerOn]
  | ctrl | status | cmd | res | res2 | resw | reserved => rfl

theorem word_powerOn (cfg : Config) (i : Nat) : (State.powerOn cfg).word i = none :=
  (loadWord_eq_none_iff ..).mpr ⟨0, cfg.width.bytes_pos, rfl⟩

/-- Settles O25. -/
theorem powerOnReads : Obligations.PowerOnReads := by
  intro cfg o hw
  refine ⟨rfl, fun ho => ?_, fun ho => ?_⟩
  · have hsl : slotOf cfg o = .opmem (o.toNat / 8 - 0x1000000) := slotOf_opmem_iff.mpr ⟨by omega, by omega⟩
    refine step_read_fault (s := { State.powerOn cfg with script := [.host (.read o)] }) rfl rfl hsl rfl ?_
    exact congrArg (Option.map (BitVec.ofNat 64)) (word_powerOn cfg _)
  · have hread : (State.powerOn cfg).readSlot (slotOf cfg o) = some (
        if o.toNat / 8 * 8 = 0x000 then 0x6265653200000100 + BitVec.ofNat 64 cfg.bits
        else if o.toNat / 8 * 8 = 0x008 then BitVec.ofNat 64 cfg.opmemWords
        else 0) := by
      split_ifs with h₀ h₁
      · exact (registerReads_slot (s := State.powerOn cfg) (r := (0x000, _)) (List.mem_cons_self ..) h₀).1
      · rw [slotOf_eq_slotAt (k := 1) h₁, ← cfgWord_of_wf hw]; rfl
      · refine readSlot_powerOn cfg (fun h => h₀ ?_) (fun h => h₁ ?_) fun i h => ?_
        · rw [number_of_slotOf h nofun]; rfl
        · rw [number_of_slotOf h nofun]; rfl
        · obtain ⟨hi, hoff⟩ := slotOf_opmem_iff.mp h
          omega
    exact step_read (s := { State.powerOn cfg with script := [.host (.read o)] }) rfl rfl rfl (.inl rfl)
      ((readSlot_port _ _ none 0 _).trans hread)

/-! ## The platform's reset -/

/-- Settles O26. -/
theorem platformResetHoldsTheHostOff : Obligations.PlatformResetHoldsTheHostOff := by
  refine ⟨fun s rest hs => step_of_turn hs, fun s a rest hs hr => ?_, fun s rest hs => step_of_turn hs⟩
  rw [step_of_access hs]
  exact if_pos hr

end Sys2Proof.Machine
end

section
/-! The turns of the script, and the reads of words that nothing has written. -/

namespace Sys2Proof.Machine

variable {s : State} {i : Instr}

/-! ## Every command reads its regions first -/

/-- The result comes from reading the regions whole, one after the other, before anything else is done. -/
inductive ReadsFirst (s : State) : List (Nat × Nat) → StepResult → Prop
  | done (body : StepResult) : ReadsFirst s [] body
  | operand {base n : Nat} {regions : List (Nat × Nat)} {k : Nat → StepResult}
      (h : ∀ v, ReadsFirst s regions (k v)) : ReadsFirst s ((base, n) :: regions) (withOperand s base n k)

/-- An unwritten word in any of the regions ends the reads, whatever the regions before it hold. -/
theorem ReadsFirst.fault_of_unwritten {regions : List (Nat × Nat)} {body : StepResult}
    (h : ReadsFirst s regions body) (hu : ∃ r ∈ regions, HasUnwritten s r.1 r.2) : body = .fault .unwrittenWord := by
  induction h with
  | done => simp at hu
  | @operand base n regions k _ ih =>
    rcases withOperand_cases s base n k with ⟨a, ha, hk⟩ | ⟨_, hf⟩
    · obtain ⟨r, hr, j, hj, hw⟩ := hu
      rcases List.mem_cons.mp hr with rfl | hr
      · exact absurd (ha j hj) (by simp [hw])
      · exact hk.trans (ih _ ⟨r, hr, j, hj, hw⟩)
    · exact hf

/-- After its checks every command reads the regions its rule reads, in their order (20_memory R84). -/
theorem exec_readsFirst (i : Instr) (s : State) :
    ∃ body, exec i s = checked s (checksOf i s) body ∧ ReadsFirst s (readRegions i s) body := by
  cases i with
  | wzero | wsetw | wfill | worsz | wowsz | bkexp | benc | bdec => exact ⟨_, rfl, .done _⟩
  | wcopy | wcmpw | wisz | wiszf | wisw | wisrep | wswl | wsbyl | wsbl | wtbit | wgbits | wsbit | wsbits | wfbit
  | wlzc | whzc | wshlc | wshhc | wtrl | wtrh | wnaf | worec | wowf =>
    exact ⟨_, rfl, .operand fun _ => .done _⟩
  | wswap | weq | weqf | wcmp | wcmpf | wcmpl | wxor | wxora =>
    exact ⟨_, rfl, .operand fun _ => .operand fun _ => .done _⟩

/-- A command that reads an unwritten word, its checks passed, is FAULT. -/
theorem exec_fault_of_unwritten (hc : ChecksPass i s) (hu : ∃ r ∈ readRegions i s, HasUnwritten s r.1 r.2) :
    exec i s = .fault .unwrittenWord := by
  obtain ⟨body, he, hb⟩ := exec_readsFirst i s
  rw [he, checked_of_pass ((checksOf_pass_iff i s).mpr hc), hb.fault_of_unwritten hu]

/-- Settles O7: commands by the reads that come before anything else, the host by the slot of an OPMEM word. -/
theorem unwrittenReadsFault : Obligations.UnwrittenReadsFault := by
  refine ⟨fun i s hc hu => exec_fault_of_unwritten hc hu, fun s rest o i hs hr hb hi ho => ?_⟩
  have hsl : slotOf s.cfg o = .opmem i := slotOf_opmem_iff.mpr ⟨hi, ho⟩
  refine ⟨fun hw => step_read_fault hs hr hsl hb ?_, fun v hw => step_read hs hr hsl (.inl hb) ?_⟩
  · simp [State.readSlot, hw]
  · simp [State.readSlot, hw]

/-! ## The core's turn -/

theorem coreTurn_of_idle (hb : s.status.busy = false) : coreTurn s = .next s := by simp [coreTurn, hb]

theorem coreTurn_of_decode (hb : s.status.busy = true) (hd : decode s.latch.cmd = .ok i) : coreTurn s = exec i s := by
  simp [coreTurn, hb, executeLatched, hd]

/-- Settles O5: the turn is the script's next, or the core's when none is left. -/
theorem stepRunsTheNextTurn : Obligations.StepRunsTheNextTurn :=
  ⟨fun _ _ _ => step_of_access, fun _ _ => step_of_turn, fun _ => step_of_empty,
    fun _ _ => coreTurn_of_decode, fun _ => coreTurn_of_idle⟩

end Sys2Proof.Machine
end

section
/-! Command words and commands (30_encoding R121 to R131): a word decodes to a command exactly when its four fields are
those of the command, so the opcode map is one table read in both directions. -/

namespace Sys2Proof

variable {c : Reg32} {i : Instr}

/-! ## The opcode map -/

theorem withoutW_eq_ok_iff {w : Nat} {j : Instr} : withoutW w j = .ok i ↔ j = i ∧ w = 0 := by
  by_cases h : w = 0 <;> simp [withoutW, h]

/-- The opcode map (R126) in both directions: it answers a command exactly for that command's opcode and W field. -/
theorem fromOpcode_eq_ok_iff {op w : Nat} : fromOpcode op w = .ok i ↔ op = i.opcode ∧ w = i.wField := by
  constructor
  · intro h
    unfold fromOpcode at h
    -- A row of the map is a command that needs W = 0, a command that takes W, or no command.
    split at h <;> simp only [withoutW_eq_ok_iff, Except.ok.injEq, reduceCtorEq] at h <;>
      grind [Instr.opcode, Instr.wField]
  · rintro ⟨rfl, rfl⟩
    cases i <;> rfl

/-- The opcodes of the map are 0x01 to 0x24 and 0x30 to 0x32 (R126, R128). -/
theorem opcode_assigned (i : Instr) :
    (1 ≤ i.opcode ∧ i.opcode ≤ 0x24) ∨ (0x30 ≤ i.opcode ∧ i.opcode ≤ 0x32) := by
  cases i <;> simp [Instr.opcode]

theorem opcode_lt (i : Instr) : i.opcode < 64 := by
  have := opcode_assigned i
  omega

/-- Only the eight commands with a W parameter have a W field other than 0 (R123). -/
theorem wField_eq_zero_or_opcode_mem (i : Instr) :
    i.wField = 0 ∨ i.opcode ∈ [0x16, 0x18, 0x20, 0x21, 0x22, 0x23, 0x24, 0x30] := by
  cases i <;> simp [Instr.wField, Instr.opcode]

/-- The opcodes and W fields that commands have, as R127 lists them. -/
theorem exists_opcode_wField_iff {op w : Nat} :
    (∃ i : Instr, op = i.opcode ∧ w = i.wField) ↔
      ((1 ≤ op ∧ op ≤ 0x24) ∨ (0x30 ≤ op ∧ op ≤ 0x32)) ∧
        (w = 0 ∨ op ∈ [0x16, 0x18, 0x20, 0x21, 0x22, 0x23, 0x24, 0x30]) := by
  constructor
  · rintro ⟨i, rfl, rfl⟩
    exact ⟨opcode_assigned i, wField_eq_zero_or_opcode_mem i⟩
  · simp only [← fromOpcode_eq_ok_iff]
    rintro ⟨hop, rfl | hw⟩
    · rcases hop with ⟨hl, hu⟩ | ⟨hl, hu⟩ <;> interval_cases op <;> exact ⟨_, rfl⟩
    · simp only [List.mem_cons, List.not_mem_nil, or_false] at hw
      rcases hw with rfl | rfl | rfl | rfl | rfl | rfl | rfl | rfl <;> exact ⟨_, rfl⟩

/-! ## The fields of a word -/

theorem toNat_eq_fields (c : Reg32) :
    c.toNat = cmdOp c + 2 ^ 6 * cmdR0 c + 2 ^ 8 * cmdW c + 2 ^ 16 * cmdR1 c := by
  simp only [cmdOp, cmdR0, cmdW, cmdR1]
  omega

theorem cmdW_lt (c : Reg32) : cmdW c < 256 := Nat.mod_lt _ (by decide)

theorem cmdOp_eq_extractLsb' (c : Reg32) : cmdOp c = (c.extractLsb' 0 6).toNat := by simp [cmdOp]

theorem cmdR0_eq_zero_iff : cmdR0 c = 0 ↔ c.extractLsb' 6 2 = 0 := by
  simp [← BitVec.toNat_inj, cmdR0, Nat.shiftRight_eq_div_pow]

theorem cmdW_eq_zero_iff : cmdW c = 0 ↔ c.extractLsb' 8 8 = 0 := by
  simp [← BitVec.toNat_inj, cmdW, Nat.shiftRight_eq_div_pow]

theorem cmdR1_eq_zero_iff : cmdR1 c = 0 ↔ c.extractLsb' 16 16 = 0 := by
  simp only [← BitVec.toNat_inj, cmdR1, BitVec.extractLsb'_toNat, Nat.shiftRight_eq_div_pow]
  have := c.isLt
  simp
  omega

/-! ## Decoding -/

/-- A word decodes to a command exactly when OP and W are the command's and the reserved fields are 0 (R121, R127). -/
theorem decode_eq_ok_iff :
    decode c = .ok i ↔ cmdOp c = i.opcode ∧ cmdR0 c = 0 ∧ cmdW c = i.wField ∧ cmdR1 c = 0 := by
  simp only [decode]
  split_ifs with h
  · simp only [fromOpcode_eq_ok_iff, h, true_and, and_true]
  · simp only [false_iff]
    exact fun ⟨_, h0, _, h1⟩ => h ⟨h0, h1⟩

theorem decode_encode (h : i.WellFormed) : decode (encode i) = .ok i :=
  decode_eq_ok_iff.mpr (Laws.EncodedFields.of_opcode_lt (opcode_lt i) h)

theorem encode_of_decode (h : decode c = .ok i) : encode i = c := by
  obtain ⟨hop, h0, hw, h1⟩ := decode_eq_ok_iff.mp h
  apply BitVec.eq_of_toNat_eq
  have hc := toNat_eq_fields c
  have := c.isLt
  simp only [encode, BitVec.toNat_ofNat]
  omega

theorem wellFormed_of_decode (h : decode c = .ok i) : i.WellFormed := by
  obtain ⟨_, _, hw, _⟩ := decode_eq_ok_iff.mp h
  exact hw.symm.trans_lt (cmdW_lt c)

/-- Settles O1: the fields of the word are those of the command. -/
theorem decodeOfEncodeIsTheCommand : Obligations.DecodeOfEncodeIsTheCommand :=
  fun _ => decode_encode

/-- Settles O2: the four fields make up the whole word. -/
theorem encodeOfDecodeIsTheWord : Obligations.EncodeOfDecodeIsTheWord :=
  fun _ _ h => ⟨encode_of_decode h, wellFormed_of_decode h⟩

/-- Settles O4: the legal words are the words of their commands, and each other word breaks one condition of R127. -/
theorem sampleWordsDecode : Obligations.SampleWordsDecode :=
  ⟨decode_encode (i := .wxor) (by decide), decode_encode (i := .wcopy) (by decide),
    decode_encode (i := .wgbits 8) (by decide), decode_encode (i := .wshhc) (by decide),
    decode_encode (i := .wnaf 4) (by decide), decode_encode (i := .wowf 5) (by decide),
    decode_encode (i := .bkexp 16) (by decide), decode_encode (i := .bdec) (by decide),
    by decide, by decide, by decide, by decide⟩

/-! ## Legal words -/

theorem legal_iff : legal c = true ↔ ∃ i, decode c = .ok i := by
  rcases h : decode c <;> simp [legal, h]

theorem legal_eq_false_iff : legal c = false ↔ ∃ e, decode c = .error e := by
  rcases h : decode c <;> simp [legal, h]

/-- The conditions of R127 on the fields of a word. -/
theorem legal_iff_fields : legal c = true ↔
    ((1 ≤ cmdOp c ∧ cmdOp c ≤ 0x24) ∨ (0x30 ≤ cmdOp c ∧ cmdOp c ≤ 0x32)) ∧ (cmdR0 c = 0 ∧ cmdR1 c = 0) ∧
      (cmdW c = 0 ∨ cmdOp c ∈ [0x16, 0x18, 0x20, 0x21, 0x22, 0x23, 0x24, 0x30]) := by
  have hmap := exists_opcode_wField_iff (op := cmdOp c) (w := cmdW c)
  simp only [legal_iff, decode_eq_ok_iff]
  constructor
  · rintro ⟨i, hop, h0, hw, h1⟩
    obtain ⟨hassigned, hW⟩ := hmap.mp ⟨i, hop, hw⟩
    exact ⟨hassigned, ⟨h0, h1⟩, hW⟩
  · rintro ⟨hassigned, ⟨h0, h1⟩, hW⟩
    obtain ⟨i, hop, hw⟩ := hmap.mpr ⟨hassigned, hW⟩
    exact ⟨i, hop, h0, hw, h1⟩

end Sys2Proof
end

section
/-! What becomes of an issued word: its command runs, an illegal word completes with ILLEGAL, and a parameter outside the
command's range completes with PARAM (30_encoding R120, R127). -/

namespace Sys2Proof.Machine

variable {s : State} {i : Instr}

theorem coreTurn_of_illegal {e : Illegal} (hb : s.status.busy = true) (hd : decode s.latch.cmd = .error e) :
    coreTurn s = .next (s.completed .illegal) := by
  simp [coreTurn, hb, executeLatched, hd, State.finish_eq_completed]

/-- Checks in a row: the later ones are looked at when the earlier ones pass. -/
theorem checked_append (s : State) (first later : List (Option Err)) (body : StepResult) :
    checked s (first ++ later) body = checked s first (checked s later body) := by
  induction first with
  | nil => rfl
  | cons c rest ih => cases c with
    | none => exact ih
    | some e => rfl

/-- The check_param lines come first in every rule, so a bad parameter is the command's PARAM error whatever its other
checks say (R127, 60_exceptions R503). -/
theorem exec_of_not_paramOk (h : ¬ParamOk i s) : exec i s = .next (s.completed .param) := by
  obtain ⟨body, hbody⟩ := exec_eq_checked i s
  rw [hbody, checksOf, List.append_assoc, checked_append]
  rcases checked_cases s (paramChecks i s) _ with ⟨hpass, _⟩ | ⟨before, e, after, hsplit, _, hfail⟩
  · exact absurd ((paramChecks_pass_iff i s).mp hpass) h
  · have hcode : e = .param := by simpa using paramChecks_code i s (some e) (by simp [hsplit])
    rw [hfail, hcode, State.finish_eq_completed]

/-- Settles O3. -/
theorem legalWordsAreThoseOfTheOpcodeMap : Obligations.LegalWordsAreThoseOfTheOpcodeMap := by
  refine ⟨fun c => ?_, fun s hb hl => ?_, fun i s hw hp => ⟨?_, exec_of_not_paramOk hp⟩⟩
  · rw [legal_iff_fields, cmdR0_eq_zero_iff, cmdR1_eq_zero_iff, cmdW_eq_zero_iff, cmdOp_eq_extractLsb']
  · obtain ⟨e, hd⟩ := legal_eq_false_iff.mp hl
    exact coreTurn_of_illegal hb hd
  · exact legal_iff.mpr ⟨i, decode_encode hw⟩

/-- Settles O16: the write is the issue of its low 32 bits, after which the latch holds that word and BUSY is 1. -/
theorem cmdWriteIssuesTheCommand : Obligations.CmdWriteIssuesTheCommand := by
  intro s o v hr ho
  refine ⟨fun hb => hostAccess_write_fault hr (slotOf_cmd ho) hb rfl, fun hb => ?_⟩
  refine ⟨s.issue (v.setWidth 32), hostAccess_write hr (slotOf_cmd ho) (.inl hb), rfl, fun i hd => ?_, fun e hd => ?_⟩
  · exact coreTurn_of_decode rfl hd
  · exact coreTurn_of_illegal rfl hd

end Sys2Proof.Machine
end

section
/-! How a command with good operands runs, and what the values of its operands say of their limbs. -/

namespace Sys2Proof.Machine

variable {i : Instr} {s : State} {base base₂ n n₂ : Nat} {a b : Nat → Nat}

/-! ## Running a command whose checks pass -/

theorem exec_of_checksPass {body : StepResult} (hx : exec i s = checked s (checksOf i s) body)
    (hc : ChecksPass i s) : exec i s = body :=
  hx.trans (checked_of_pass ((checksOf_pass_iff i s).mpr hc))

theorem exec_of_operand {k : Nat → StepResult}
    (hx : exec i s = checked s (checksOf i s) (withOperand s base n k)) (hc : ChecksPass i s)
    (ha : HoldsLimbs s base n a) : exec i s = k (limbValue s.cfg.bits n a) :=
  (exec_of_checksPass hx hc).trans (withOperand_of_limbs ha)

theorem exec_of_operands {k : Nat → Nat → StepResult}
    (hx : exec i s = checked s (checksOf i s)
      (withOperand s base n fun x => withOperand s base₂ n₂ fun y => k x y)) (hc : ChecksPass i s)
    (ha : HoldsLimbs s base n a) (hb : HoldsLimbs s base₂ n₂ b) :
    exec i s = k (limbValue s.cfg.bits n a) (limbValue s.cfg.bits n₂ b) :=
  (exec_of_operand hx hc ha).trans (withOperand_of_limbs hb)

/-- A command that reads (RA, n) and puts `result` of its value in RES. -/
theorem exec_examine {result : Nat → Reg32} (hx : exec i s = examine s result)
    (hf : Fits s s.baseA s.lenN) (ha : HoldsLimbs s s.baseA s.lenN a) :
    exec i s = .next { s.completed .ok with res := result (limbValue s.cfg.bits s.lenN a) } := by
  rw [hx, examine, checked_of_pass (by simpa [checkRange_eq_none_iff] using hf), withOperand_of_limbs ha]
  rfl

/-- A command that reads (RA, n) and (RB, n) and puts `result` of their values in RES. -/
theorem exec_compareEqualLengths {result : Nat → Nat → Reg32} (hx : exec i s = compareEqualLengths s result)
    (hfa : Fits s s.baseA s.lenN) (hfb : Fits s s.baseB s.lenN)
    (ha : HoldsLimbs s s.baseA s.lenN a) (hb : HoldsLimbs s s.baseB s.lenN b) :
    exec i s = .next { s.completed .ok with
      res := result (limbValue s.cfg.bits s.lenN a) (limbValue s.cfg.bits s.lenN b) } := by
  rw [hx, compareEqualLengths, checked_of_pass (by simpa [checkRange_eq_none_iff] using ⟨hfa, hfb⟩),
    withOperand_of_limbs ha, withOperand_of_limbs hb]
  rfl

/-! ## Results in RES -/

theorem boolResult_eq_ite {t : Bool} {p : Prop} [Decidable p] (h : t = true ↔ p) :
    boolResult t = if p then 1 else 0 := by
  simp only [boolResult, h]

theorem compareResult_eq_zero_iff (x y : Nat) : compareResult x y = 0 ↔ x = y := by
  rw [compareResult_eq]; split_ifs <;> simp <;> omega

theorem compareResult_eq_one_iff (x y : Nat) : compareResult x y = 1 ↔ y < x := by
  rw [compareResult_eq]; split_ifs <;> simp_all

theorem compareResult_eq_minus_one_iff (x y : Nat) : compareResult x y = 0xFFFFFFFF ↔ x < y := by
  rw [compareResult_eq]; split_ifs <;> simp <;> omega

/-! ## Values and their limbs -/

/-- Two numbers of two digits compare by their high digits first. -/
theorem add_mul_lt_add_mul_iff {x y u v r : Nat} (hx : x < r) (hy : y < r) :
    x + r * u < y + r * v ↔ u < v ∨ u = v ∧ x < y := by
  have high {x y u v : Nat} (hx : x < r) (h : u < v) : x + r * u < y + r * v := by
    have := Nat.mul_le_mul_left r h
    rw [Nat.mul_succ] at this
    omega
  rcases lt_trichotomy u v with h | rfl | h
  · simp [h, high hx h]
  · simp
  · have := high (y := x) hy h
    omega

/-- The most significant differing limb decides the order of two values of one length. -/
theorem limbValue_lt_iff {bits : Nat} (ha : ∀ i < n, a i < 2 ^ bits) (hb : ∀ i < n, b i < 2 ^ bits) :
    limbValue bits n a < limbValue bits n b ↔ ∃ j < n, a j < b j ∧ ∀ k < n, j < k → a k = b k := by
  induction n generalizing a b with
  | zero => simp [limbValue]
  | succ n ih =>
    have ha' : ∀ i < n, a (i + 1) < 2 ^ bits := fun i hi => ha _ (by omega)
    have hb' : ∀ i < n, b (i + 1) < 2 ^ bits := fun i hi => hb _ (by omega)
    rw [limbValue_succ, limbValue_succ, add_mul_lt_add_mul_iff (ha 0 (by omega)) (hb 0 (by omega)), ih ha' hb',
      limbValue_inj ha' hb', Nat.exists_lt_succ_left]
    simp only [Nat.forall_lt_succ_left, Nat.add_lt_add_iff_right, Nat.not_lt_zero, false_imp_iff, true_and,
      Nat.zero_lt_succ, true_imp_iff]
    rw [or_comm, and_comm (a := ∀ i < n, a (i + 1) = b (i + 1))]

/-- A value of n >= 1 limbs is one word exactly when limb 0 is that word and the other limbs are 0. -/
theorem limbValue_eq_word_iff {bits v : Nat} (ha : ∀ i < n, a i < 2 ^ bits) (hv : v < 2 ^ bits) :
    limbValue bits n a = v ↔ if n = 0 then v = 0 else a 0 = v ∧ ∀ j < n, 0 < j → a j = 0 := by
  cases n with
  | zero => simp [limbValue, eq_comm]
  | succ n =>
    have hword : limbValue bits (n + 1) (fun i => if i = 0 then v else 0) = v := by
      rw [limbValue_succ]; simp [limbValue]
    have hlimbs := limbValue_inj ha (b := fun i => if i = 0 then v else 0) fun i _ => by
      split_ifs <;> omega
    rw [hword] at hlimbs
    rw [hlimbs, if_neg n.succ_ne_zero]
    simp only [Nat.forall_lt_succ_left]
    simp

theorem allLimbs_limbValue_iff {bits v : Nat} (ha : ∀ i < n, a i < 2 ^ bits) :
    allLimbs bits (limbValue bits n a) v n = true ↔ ∀ j < n, a j = v := by
  simp only [allLimbs, List.all_eq_true, List.mem_range, beq_iff_eq]
  exact forall₂_congr fun j hj => by rw [limb_limbValue ha hj]

theorem limb_zero (bits j : Nat) : limb bits 0 j = 0 := by simp [limb]

theorem limb_word {bits v : Nat} (hv : v < 2 ^ bits) (j : Nat) : limb bits v j = if j = 0 then v else 0 := by
  cases j with
  | zero => rw [limb_zero_index, Nat.mod_eq_of_lt hv, if_pos rfl]
  | succ j => rw [limb_succ, Nat.div_eq_of_lt hv, limb_zero, if_neg (Nat.succ_ne_zero j)]

/-! ## Lengths of values -/

theorem pow_le_of_limb_ne_zero {bits v j : Nat} (h : limb bits v j ≠ 0) : 2 ^ (bits * j) ≤ v := by
  by_contra hlt
  exact h (by rw [limb, Nat.div_eq_of_lt (not_le.mp hlt), Nat.zero_mod])

theorem lt_pow_of_high_limbs_eq_zero {bits v k : Nat} (hv : v < 2 ^ (n * bits)) (hkn : k ≤ n)
    (hz : ∀ j < n, k ≤ j → limb bits v j = 0) : v < 2 ^ (k * bits) := by
  induction n, hkn using Nat.le_induction with
  | base => exact hv
  | succ n hkn ih =>
    have hlow : v < 2 ^ (n * bits) := by
      have hdiv : v / 2 ^ (n * bits) < 2 ^ bits :=
        Nat.div_lt_of_lt_mul (by rwa [← pow_add, ← Nat.succ_mul])
      have := hz n (by omega) hkn
      rw [limb, Nat.mul_comm, Nat.mod_eq_of_lt hdiv] at this
      exact (Nat.div_eq_zero_iff_lt (by positivity)).mp this
    exact ih hlow fun j hj => hz j (by omega)

theorem ceilDiv_le_iff {x y k : Nat} (hy : 0 < y) : ceilDiv x y ≤ k ↔ x ≤ k * y := by
  rw [ceilDiv, ← Nat.lt_succ_iff, Nat.div_lt_iff_lt_mul hy, Nat.succ_mul]
  omega

/-- R218: the significant limbs of a number of n limbs are `ceil_div` of its bit length. -/
theorem significantLimbs_eq_ceilDiv {bits v : Nat} (hbits : 0 < bits) (hv : v < 2 ^ (n * bits)) :
    significantLimbs bits v n = ceilDiv (bitLen v) bits := by
  obtain ⟨hle, hzero, htop⟩ := significantLimbs_spec bits v n
  generalize significantLimbs bits v n = k at *
  refine le_antisymm ?_ ((ceilDiv_le_iff hbits).mpr (bitLen_le (lt_pow_of_high_limbs_eq_zero hv hle hzero)))
  by_contra hlt
  have hlen : bitLen v ≤ bits * (k - 1) := by
    rw [Nat.mul_comm]; exact (ceilDiv_le_iff hbits).mp (by omega)
  have hge := pow_le_of_limb_ne_zero (htop (by omega))
  have := (bitLen_spec v).1.trans_le (Nat.pow_le_pow_right (by norm_num) hlen)
  omega

/-- R219: `ceil_div(bitlen(v), 8)` bytes hold v, and no fewer do. -/
theorem byteLength_spec (v : Nat) :
    v < 256 ^ ceilDiv (bitLen v) 8 ∧ (0 < ceilDiv (bitLen v) 8 → 256 ^ (ceilDiv (bitLen v) 8 - 1) ≤ v) := by
  obtain ⟨hlt, hge, -⟩ := bitLen_spec v
  have hbytes (k : Nat) : 256 ^ k = 2 ^ (k * 8) := by rw [Nat.mul_comm, pow_mul]; rfl
  simp only [hbytes]
  constructor
  · exact hlt.trans_le (Nat.pow_le_pow_right (by norm_num) ((ceilDiv_le_iff (by norm_num)).mp le_rfl))
  · intro hpos
    have hmore : (ceilDiv (bitLen v) 8 - 1) * 8 < bitLen v := by
      by_contra hc
      have := (ceilDiv_le_iff (by norm_num)).mpr (not_lt.mp hc)
      omega
    exact (Nat.pow_le_pow_right (by norm_num) (by omega)).trans (hge (by omega))

theorem bitLen_limbValue_lt (hw : s.cfg.wf) (hf : Fits s base n)
    (ha : HoldsLimbs s base n a) : bitLen (limbValue s.cfg.bits n a) < 2 ^ 31 :=
  (bitLen_le ha.value_lt).trans_lt (lenBits_lt hw hf)

/-! ## Regions -/

/-- `complete` of an operand write, by the limbs of the value written. -/
theorem complete_writeOperand_limbs {v : Nat} (h : ∀ j < n, limb s.cfg.bits v j = a j) :
    ∃ m, complete (s.writeOperand base n v) = .next { s.completed .ok with opmem := m } ∧ Stores s m base n a := by
  obtain ⟨m, hm, hs⟩ := complete_writeOperand s base n v
  exact ⟨m, hm, hs.congr h⟩

theorem outside_of_not_overlap {l l₂ j : Nat} (h : ¬Overlap base l base₂ l₂) (hj : j < l) :
    base + j < base₂ ∨ base₂ + l₂ ≤ base + j := by
  by_contra hc
  exact h ⟨j, base + j - base₂, hj, by omega, by omega⟩

end Sys2Proof.Machine
end

section
/-! The word-array unit (40_wordarray_basic): every command in terms of the limbs of its operands. -/

namespace Sys2Proof.Machine

variable {s : State}

/-! ## Commands that compare two operands -/

/-- Of a pair of commands with one meaning, it is enough to run the first. -/
theorem exec_eq_of_pair {i j k : Instr} (hi : i = j ∨ i = k) (hkj : exec k s = exec j s) : exec i s = exec j s := by
  rcases hi with rfl | rfl
  · rfl
  · exact hkj

/-- Settles O42: a fast command has the rule of the safe one. -/
theorem fastAndSafeVariantsAgree : Obligations.FastAndSafeVariantsAgree :=
  fun _ => ⟨rfl, rfl, rfl⟩

/-- Settles O30: the values are equal exactly when the limbs are. -/
theorem weqTestsEveryLimb : Obligations.WeqTestsEveryLimb := by
  intro i s a b hi hfa hfb ha hb
  obtain ⟨hweqf, -, -⟩ := fastAndSafeVariantsAgree s
  have hx : exec i s = exec .weq s := exec_eq_of_pair hi hweqf
  rw [exec_compareEqualLengths hx hfa hfb ha hb, boolResult_eq_ite (beq_iff_eq.trans (limbValue_inj ha.lt hb.lt))]

/-- Settles O31: the values are ordered by their most significant differing limb. -/
theorem wcmpComparesFromTheTopLimb : Obligations.WcmpComparesFromTheTopLimb := by
  intro i s a b hi hfa hfb ha hb
  obtain ⟨-, hwcmpf, -⟩ := fastAndSafeVariantsAgree s
  have hx : exec i s = exec .wcmp s := exec_eq_of_pair hi hwcmpf
  refine ⟨_, exec_compareEqualLengths hx hfa hfb ha hb, ?_, ?_, ?_⟩
  · rw [compareResult_eq_zero_iff, limbValue_inj ha.lt hb.lt]
  · rw [compareResult_eq_one_iff, limbValue_lt_iff hb.lt ha.lt]
    simp only [eq_comm]
  · rw [compareResult_eq_minus_one_iff, limbValue_lt_iff ha.lt hb.lt]

/-- Settles O32: each operand is read with its own length, and the values are compared. -/
theorem wcmplComparesValues : Obligations.WcmplComparesValues := by
  intro s a b hfa hfb ha hb
  have hc : ChecksPass .wcmpl s := ⟨trivial, by simp [RangesOk, readRegions, storeRegions, hfa, hfb], trivial⟩
  rw [exec_of_operands rfl hc ha hb, compareResult_eq]
  rfl

/-! ## Commands that examine one operand -/

/-- Settles O33: a value is one word when it is that word in limb 0 and 0 above. -/
theorem wcmpwAndWiswCompareWithTheWord : Obligations.WcmpwAndWiswCompareWithTheWord := by
  intro s a hf ha hv
  constructor
  · rw [exec_examine (i := .wcmpw) rfl hf ha, compareResult_eq]
  · rw [exec_examine (i := .wisw) rfl hf ha, boolResult_eq_ite (beq_iff_eq.trans (limbValue_eq_word_iff ha.lt hv))]

/-- Settles O34: a value is 0 exactly when its limbs are. -/
theorem wiszTestsEveryLimbForZero : Obligations.WiszTestsEveryLimbForZero := by
  intro i s a hi hf ha
  obtain ⟨-, -, hwiszf⟩ := fastAndSafeVariantsAgree s
  have hx : exec i s = exec .wisz s := exec_eq_of_pair hi hwiszf
  rw [exec_examine hx hf ha, boolResult_eq_ite (beq_iff_eq.trans limbValue_eq_zero_iff)]

/-- Settles O35: the limbs of the value are the stored ones. -/
theorem wisrepTestsEveryLimbForTheWord : Obligations.WisrepTestsEveryLimbForTheWord := by
  intro s a hf ha
  rw [exec_examine (i := .wisrep) rfl hf ha,
    boolResult_eq_ite (p := (∀ j < s.lenN, a j = s.valV) ∧ (0 < s.lenN ∨ s.valV = 0))]
  rw [Bool.and_eq_true, allLimbs_limbValue_iff ha.lt, Bool.or_eq_true, decide_eq_true_iff, beq_iff_eq]

/-- Settles O39: the limbs of the value are the stored ones, and their significant count is `ceil_div` of the bit
length. -/
theorem wswlIsTheSignificantWordLength : Obligations.WswlIsTheSignificantWordLength := by
  intro s a hf ha
  have hx := exec_examine (i := .wswl) rfl hf ha
  obtain ⟨hle, hzero, htop⟩ := significantLimbs_spec s.cfg.bits (limbValue s.cfg.bits s.lenN a) s.lenN
  have hn : s.lenN < 2 ^ 32 := s.latch.args.rn.isLt
  refine ⟨_, hx, hle.trans_lt hn, hle, fun j hj hkj => ?_, fun hpos => ?_, fun b hb => ?_⟩
  · rw [← limb_limbValue ha.lt hj, hzero j hj hkj]
  · rw [← limb_limbValue ha.lt (by omega)]
    exact htop hpos
  · rw [significantLimbs_eq_ceilDiv s.cfg.bits_pos ha.value_lt, bitLen_unique hb.1 hb.2, ceilDiv]

/-- Settles O40: the value is below 2^(n*B), so its byte length fits RES. -/
theorem wsbylIsTheSignificantByteLength : Obligations.WsbylIsTheSignificantByteLength := by
  intro s a hw hf ha
  have hlen := bitLen_limbValue_lt hw hf ha
  have hx := exec_examine (i := .wsbyl) rfl hf ha
  refine ⟨_, hx, ?_, byteLength_spec _⟩
  exact lt_of_le_of_lt ((ceilDiv_le_iff (by norm_num)).mpr (by omega)) (hlen.trans (by norm_num))

/-- Settles O41: the value is below 2^(n*B), so its bit length fits RES. -/
theorem wsblIsTheSignificantBitLength : Obligations.WsblIsTheSignificantBitLength := by
  intro s a hw hf ha
  have hlen := bitLen_limbValue_lt hw hf ha
  have hx := exec_examine (i := .wsbl) rfl hf ha
  obtain ⟨hlt, hge, hzero⟩ := bitLen_spec (limbValue s.cfg.bits s.lenN a)
  exact ⟨_, hx, hlen.trans (by norm_num), hzero, fun hpos => ⟨hge hpos, Nat.le_sub_one_of_lt hlt⟩⟩

/-! ## Commands that write a region -/

/-- Settles O28: the value written has the limbs that were read. -/
theorem wcopyCopiesTheRegion : Obligations.WcopyCopiesTheRegion := by
  intro s a hfa hfd ho ha
  have hc : ChecksPass .wcopy s := ⟨trivial, by simp [RangesOk, readRegions, storeRegions, hfa, hfd], ho⟩
  rw [exec_of_operand rfl hc ha]
  exact complete_writeOperand_limbs fun j hj => limb_limbValue ha.lt hj

/-- Settles O29: the second write leaves the first region alone, because the two are disjoint. -/
theorem wswapExchangesTheRegions : Obligations.WswapExchangesTheRegions := by
  intro s a b hfa hfb ho ha hb
  have hc : ChecksPass .wswap s := ⟨trivial, by simp [RangesOk, readRegions, storeRegions, hfa, hfb], ho⟩
  rw [exec_of_operands rfl hc ha hb]
  refine ⟨_, rfl, ?_⟩
  simp only [State.writeOperand_cfg, State.writeOperand_opmem]
  refine ⟨fun j hj => ?_, fun j hj => ?_, fun x hxa hxb => ?_⟩
  · rw [loadWord_memWrite_outside _ _ (outside_of_not_overlap ho hj), loadWord_memWrite_inside _ _ _ hj,
      limb_limbValue hb.lt hj]
  · rw [loadWord_memWrite_inside _ _ _ hj, limb_limbValue ha.lt hj]
  · rw [read_memWrite_outside _ _ hxb, read_memWrite_outside _ _ hxa]

/-- Settles O36: XOR acts on each limb by itself. -/
theorem wxorXorsLimbByLimb : Obligations.WxorXorsLimbByLimb := by
  intro s a b hfa hfb hfd hoa hob ha hb
  have hc : ChecksPass .wxor s :=
    ⟨trivial, by simp [RangesOk, readRegions, storeRegions, hfa, hfb, hfd], hoa, hob⟩
  rw [exec_of_operands rfl hc ha hb]
  exact complete_writeOperand_limbs fun j hj => by rw [limb_xor, limb_limbValue ha.lt hj, limb_limbValue hb.lt hj]

/-- Settles O37: XOR acts on each limb by itself. -/
theorem wxoraXorsIntoTheDestination : Obligations.WxoraXorsIntoTheDestination := by
  intro s a d hfa hfd ho ha hd
  have hc : ChecksPass .wxora s := ⟨trivial, by simp [RangesOk, readRegions, storeRegions, hfa, hfd], ho⟩
  rw [exec_of_operands rfl hc ha hd]
  exact complete_writeOperand_limbs fun j hj => by rw [limb_xor, limb_limbValue hd.lt hj, limb_limbValue ha.lt hj]

/-- Settles O38: none of the three reads a region, and a word is the value with that limb 0 and zeros above. -/
theorem wzeroWsetwWfillSetEveryLimb : Obligations.WzeroWsetwWfillSetEveryLimb := by
  intro s hf hv
  have hr : RangesOk .wzero s := by simp [RangesOk, readRegions, storeRegions, hf]
  refine ⟨?_, ?_, fun hp => ?_, fun hp => exec_of_not_paramOk (not_not.mpr hp)⟩
  · rw [exec_of_checksPass (i := .wzero) rfl ⟨trivial, hr, trivial⟩]
    exact complete_writeOperand_limbs fun j _ => limb_zero _ j
  · rw [exec_of_checksPass (i := .wfill) rfl ⟨trivial, hr, trivial⟩]
    exact complete_fillOperand s s.baseD s.lenN hv
  · rw [exec_of_checksPass (i := .wsetw) rfl ⟨hp, hr, trivial⟩]
    exact complete_writeOperand_limbs fun j _ => limb_word hv j

end Sys2Proof.Machine
end

section
/-! Bits of the numbers that the commands of 41_wordarray_bits compute, and how a command that modifies (RA, n) in place
runs. -/

namespace Sys2Proof.Machine

/-! ## Bits of changed numbers -/

/-- R303: one bit replaced by bit 0 of a word. -/
theorem testBit_setBit (v w p j : Nat) :
    (clearMask v (2 ^ p) ||| bitAt w 0 * 2 ^ p).testBit j = if j = p then w.testBit 0 else v.testBit j := by
  have hbit : bitAt w 0 = (w.testBit 0).toNat := by rw [bitAt_eq]; cases w.testBit 0 <;> rfl
  rw [Nat.testBit_or, testBit_clearMask, Nat.testBit_two_pow, hbit, Nat.testBit_mul_two_pow, Nat.testBit_bool_toNat]
  split_ifs with h
  · simp [h]
  · have hlow : ¬(p ≤ j ∧ j - p = 0) := by omega
    rw [← Bool.and_assoc, ← Bool.decide_and, decide_eq_false hlow]
    simp [Ne.symm h]

/-- R305: one bit flipped. -/
theorem testBit_flipBit (v p j : Nat) : (v ^^^ 2 ^ p).testBit j = if j = p then !v.testBit j else v.testBit j := by
  rw [Nat.testBit_xor, Nat.testBit_two_pow]
  split_ifs with h
  · simp [h]
  · simp [Ne.symm h]

/-- R304: a field of `wd` bits replaced by the low bits of a word. -/
theorem testBit_setField (v w p wd j : Nat) :
    (clearMask v ((2 ^ wd - 1) * 2 ^ p) ||| w % 2 ^ wd * 2 ^ p).testBit j =
      if p ≤ j ∧ j < p + wd then w.testBit (j - p) else v.testBit j := by
  rw [Nat.testBit_or, testBit_clearMask, Nat.testBit_mul_two_pow, Nat.testBit_mul_two_pow, Nat.testBit_two_pow_sub_one,
    Nat.testBit_mod_two_pow]
  by_cases hp : p ≤ j
  · have hwd : j - p < wd ↔ j < p + wd := by omega
    by_cases hj : j < p + wd <;> simp [hp, hwd, hj]
  · simp [hp]

/-- R311: the bits below k cleared. -/
theorem testBit_sub_mod_two_pow (v k j : Nat) : (v - v % 2 ^ k).testBit j = (decide (k ≤ j) && v.testBit j) := by
  rw [← Nat.div_mul_self_eq_mod_sub_self, Nat.testBit_mul_two_pow, Nat.testBit_div_two_pow]
  by_cases h : k ≤ j <;> simp [h]

/-- A position past the top of a number trims it as the top does (R311, R312). -/
theorem mod_two_pow_min {v len : Nat} (h : v < 2 ^ len) (p : Nat) : v % 2 ^ min p len = v % 2 ^ p := by
  rcases le_total p len with hp | hp
  · rw [min_eq_left hp]
  · rw [min_eq_right hp, Nat.mod_eq_of_lt h, Nat.mod_eq_of_lt (h.trans_le (Nat.pow_le_pow_right (by norm_num) hp))]

/-! ## The shifts -/

/-- Y of WSHLC (R308), bit by bit: from the bottom up zeros, the operand, the carry word; `sh` bits fall off below. -/
theorem testBit_shiftedLow {len a : Nat} (ha : a < 2 ^ len) (bits c sh k : Nat) :
    (shiftedLow bits len a c sh).testBit k =
      if k + sh < bits then false
      else if k + sh - bits < len then a.testBit (k + sh - bits)
      else c.testBit (k + sh - bits - len) := by
  rw [shiftedLow, Nat.testBit_div_two_pow, Nat.testBit_mul_two_pow, Nat.mul_comm c, Nat.testBit_two_pow_mul_add c ha]
  by_cases h : k + sh < bits
  · simp [h]
  · simp [h, not_lt.mp h]

/-- Y of WSHHC (R309), bit by bit: from the bottom up `sh` zeros, the carry word, the operand. -/
theorem testBit_shiftedHigh {bits c : Nat} (hc : c < 2 ^ bits) (a sh k : Nat) :
    (shiftedHigh bits a c sh).testBit k =
      if k < sh then false
      else if k - sh < bits then c.testBit (k - sh)
      else a.testBit (k - sh - bits) := by
  rw [shiftedHigh, Nat.testBit_mul_two_pow, Nat.mul_comm a, Nat.testBit_two_pow_mul_add a hc]
  by_cases h : k < sh
  · simp [h]
  · simp [h, not_lt.mp h]

/-- R310: with no carry the part of Y that stays in the operand is the operand shifted low. -/
theorem shiftedLow_zero_div (bits len a sh : Nat) : shiftedLow bits len a 0 sh / 2 ^ bits = a / 2 ^ sh := by
  rw [shiftedLow, Nat.zero_mul, Nat.zero_add, Nat.div_right_comm, Nat.mul_div_cancel _ (Nat.two_pow_pos bits)]

/-- R310: with no carry Y without its bottom limb is the operand shifted high. -/
theorem shiftedHigh_zero_div (bits a sh : Nat) : shiftedHigh bits a 0 sh / 2 ^ bits = a * 2 ^ sh := by
  rw [shiftedHigh, Nat.add_zero, Nat.mul_right_comm, Nat.mul_div_cancel _ (Nat.two_pow_pos bits)]

/-! ## Commands on (RA, n) -/

variable {i : Instr} {s : State} {base n : Nat} {a : Nat → Nat}

/-- A written operand has no bit from L on. -/
theorem HoldsLimbs.testBit_eq_false (ha : HoldsLimbs s base n a) {j : Nat} (hj : n * s.cfg.bits ≤ j) :
    (limbValue s.cfg.bits n a).testBit j = false :=
  Nat.testBit_lt_two_pow (ha.value_lt.trans_le (Nat.pow_le_pow_right (by norm_num) hj))

/-- A command whose only region is (RA, n) passes its checks if its parameters are good and the region fits. -/
theorem checksPass_of_regionA (hp : ParamOk i s) (ho : OverlapsOk i s) (hf : Fits s s.baseA s.lenN)
    (hregions : ∀ r ∈ readRegions i s ++ storeRegions i s, r = (s.baseA, s.lenN) := by
      simp [readRegions, storeRegions]) : ChecksPass i s :=
  ⟨hp, fun r hr => by rw [hregions r hr]; exact hf, ho⟩

/-- A command that modifies (RA, n) in place, by the value it leaves there. -/
theorem exec_inPlace {new : Nat → Nat}
    (hx : exec i s = checked s (checksOf i s)
      (withOperand s s.baseA s.lenN fun v => complete (s.writeOperand s.baseA s.lenN (new v))))
    (hc : ChecksPass i s) (ha : HoldsLimbs s s.baseA s.lenN a)
    (hlt : new (limbValue s.cfg.bits s.lenN a) < 2 ^ (s.lenN * s.cfg.bits)) :
    ∃ m a', exec i s = .next { s.completed .ok with opmem := m } ∧ Stores s m s.baseA s.lenN a' ∧
      limbValue s.cfg.bits s.lenN a' = new (limbValue s.cfg.bits s.lenN a) := by
  obtain ⟨m, hm, hs⟩ := complete_writeOperand s s.baseA s.lenN (new (limbValue s.cfg.bits s.lenN a))
  refine ⟨m, _, (exec_of_operand hx hc ha).trans hm, hs, ?_⟩
  rw [limbValue_of_limb, Nat.mod_eq_of_lt hlt]

/-- A command that modifies (RA, n) in place, by the bits it leaves there, none of them above the region. -/
theorem exec_inPlace_testBit {new : Nat → Nat} {bit : Nat → Bool}
    (hx : exec i s = checked s (checksOf i s)
      (withOperand s s.baseA s.lenN fun v => complete (s.writeOperand s.baseA s.lenN (new v))))
    (hc : ChecksPass i s) (ha : HoldsLimbs s s.baseA s.lenN a)
    (hbit : ∀ j, (new (limbValue s.cfg.bits s.lenN a)).testBit j = bit j)
    (hhigh : ∀ j, s.lenN * s.cfg.bits ≤ j → bit j = false) :
    ∃ m a', exec i s = .next { s.completed .ok with opmem := m } ∧ Stores s m s.baseA s.lenN a' ∧
      ∀ j, (limbValue s.cfg.bits s.lenN a').testBit j = bit j := by
  obtain ⟨m, a', hm, hs, hv⟩ := exec_inPlace hx hc ha
    (Nat.lt_pow_two_of_testBit _ fun j hj => (hbit j).trans (hhigh j hj))
  exact ⟨m, a', hm, hs, fun j => by rw [hv, hbit]⟩

/-- A shift of (RA, n): the part of the shifted value that stays there, and the word it puts in RESW. -/
theorem exec_shift {stay out : Nat → Nat}
    (hx : exec i s = checked s (checksOf i s) (withOperand s s.baseA s.lenN fun v =>
      complete ((s.writeOperand s.baseA s.lenN (stay v % 2 ^ s.bitsL)).setResw (wordResult s.cfg (out v)))))
    (hc : ChecksPass i s) (ha : HoldsLimbs s s.baseA s.lenN a) :
    ∃ m a', exec i s = .next { s.completed .ok with
        opmem := m, resw := wordResult s.cfg (out (limbValue s.cfg.bits s.lenN a)) } ∧
      Stores s m s.baseA s.lenN a' ∧
      limbValue s.cfg.bits s.lenN a' = stay (limbValue s.cfg.bits s.lenN a) % 2 ^ (s.lenN * s.cfg.bits) :=
  ⟨_, _, exec_of_operand hx hc ha, stores_memWrite s _ _ _, (limbValue_of_limb _ _ _).trans (Nat.mod_mod _ _)⟩

/-- A second store into the region of a first one leaves the memory outside as it was before both. -/
theorem Stores.after {t : State} {m : Memory} {base n : Nat} {a b : Nat → Nat} (h : Stores t m base n b)
    (hcfg : t.cfg = s.cfg) (hfirst : Stores s t.opmem base n a) : Stores s m base n b := by
  obtain ⟨hin, hout⟩ := h
  obtain ⟨_, hout₁⟩ := hfirst
  rw [hcfg] at hin hout
  exact ⟨hin, fun x hx => (hout x hx).trans (hout₁ x hx)⟩

end Sys2Proof.Machine
end

section
/-! The word-array unit (41_wordarray_bits): bit access, zero counts, shifts and trims, in terms of the bits of the
operand. -/

namespace Sys2Proof.Machine

variable {s : State} {a : Nat → Nat}

/-! ## Reading bits -/

/-- Settles O43: bit p of the value is a bit of one limb. -/
theorem wtbitReadsTheBit : Obligations.WtbitReadsTheBit := by
  intro s a hp hf ha
  have hc : ChecksPass .wtbit s := checksPass_of_regionA hp trivial hf
  have hbit : (limbValue s.cfg.bits s.lenN a).testBit s.posP =
      (a (s.posP / s.cfg.bits)).testBit (s.posP % s.cfg.bits) := by
    simp [testBit_limbValue s.cfg.bits_pos ha.lt, hp]
  rw [exec_of_operand rfl hc ha, bitAt_eq, hbit, apply_ite countResult]
  rfl

/-- Settles O44: RESW holds the low wd bits of the value shifted low by p. -/
theorem wgbitsReadsTheField : Obligations.WgbitsReadsTheField := by
  intro wd s a hwd hp hf ha
  have hc : ChecksPass (.wgbits wd) s := checksPass_of_regionA ⟨hwd, hp⟩ trivial hf
  refine ⟨_, exec_of_operand rfl hc ha, fun j => ?_⟩
  have hlow : j < s.cfg.bits ∧ j < wd ↔ j < wd := by omega
  rw [State.setResw_resw, getLsbD_wordResult, Nat.testBit_mod_two_pow, Nat.testBit_div_two_pow, Nat.add_comm j,
    ← Bool.and_assoc, ← Bool.decide_and, decide_eq_decide.mpr hlow]

/-! ## Changing bits -/

/-- Settles O45: bit p is below L, so the bits from L on stay 0. -/
theorem wsbitAndWfbitChangeOneBit : Obligations.WsbitAndWfbitChangeOneBit := by
  intro s a hp hf ha
  have hhigh (b : Bool) (j : Nat) (hj : s.lenN * s.cfg.bits ≤ j) :
      (if j = s.posP then b else (limbValue s.cfg.bits s.lenN a).testBit j) = false := by
    rw [if_neg (by omega), ha.testBit_eq_false hj]
  have hset : ChecksPass .wsbit s := checksPass_of_regionA hp trivial hf
  have hflip : ChecksPass .wfbit s := checksPass_of_regionA hp trivial hf
  exact ⟨exec_inPlace_testBit rfl hset ha (testBit_setBit _ _ _) (hhigh _),
    exec_inPlace_testBit rfl hflip ha (testBit_flipBit _ _) fun j => hhigh _ j⟩

/-- Settles O46: the field ends at L at most, so the bits from L on stay 0. -/
theorem wsbitsWritesTheField : Obligations.WsbitsWritesTheField := by
  intro wd s a hwd hp hf ha
  have hc : ChecksPass (.wsbits wd) s := checksPass_of_regionA ⟨hwd, hp⟩ trivial hf
  refine exec_inPlace_testBit rfl hc ha (testBit_setField _ _ _ _) fun j hj => ?_
  rw [if_neg (by omega), ha.testBit_eq_false hj]

/-- Settles O50: a position past the end of the operand trims it as its end does. -/
theorem wtrlAndWtrhTrim : Obligations.WtrlAndWtrhTrim := by
  intro s a hf ha
  have hmin := mod_two_pow_min ha.value_lt s.posP
  have hlow : ChecksPass .wtrl s := checksPass_of_regionA trivial trivial hf
  have hhigh : ChecksPass .wtrh s := checksPass_of_regionA trivial trivial hf
  constructor
  · refine exec_inPlace_testBit rfl hlow ha (fun j => ?_) fun j hj => ?_
    · rw [State.bitsL, hmin, testBit_sub_mod_two_pow]
    · rw [ha.testBit_eq_false hj, Bool.and_false]
  · obtain ⟨m, a', hx, hs, hv⟩ := exec_inPlace (new := fun v => v % 2 ^ min s.posP s.bitsL) rfl hhigh ha
      ((Nat.mod_le _ _).trans_lt ha.value_lt)
    exact ⟨m, a', hx, hs, hv.trans hmin⟩

/-! ## Zero counts -/

/-- Settles O47: both counts are at most L, which is below 2^32. -/
theorem wlzcAndWhzcCountTheZeroRuns : Obligations.WlzcAndWhzcCountTheZeroRuns := by
  intro s a hw hf ha
  have hL := lenBits_lt hw hf
  obtain ⟨hlow, hlow0, hrun⟩ := lowZeroBits_spec ha.value_lt
  obtain ⟨hlt, hge, hzero⟩ := bitLen_spec (limbValue s.cfg.bits s.lenN a)
  have hlen := bitLen_le ha.value_lt
  have hwlzc := exec_of_operand (i := .wlzc) rfl (checksPass_of_regionA trivial trivial hf) ha
  have hwhzc := exec_of_operand (i := .whzc) rfl (checksPass_of_regionA trivial trivial hf) ha
  refine ⟨⟨_, hwlzc, hlow.trans_lt (by omega), hlow0, hrun⟩, _, hwhzc, ?_, fun h0 => ?_, fun h0 => ?_⟩
  · rw [State.bitsL]; omega
  · rw [hzero.mpr h0]; rfl
  · have hpos : 0 < bitLen (limbValue s.cfg.bits s.lenN a) := Nat.pos_of_ne_zero (mt hzero.mp h0)
    have htop : s.lenN * s.cfg.bits - (s.lenN * s.cfg.bits - bitLen (limbValue s.cfg.bits s.lenN a)) =
        bitLen (limbValue s.cfg.bits s.lenN a) := by omega
    rw [State.bitsL, htop]
    exact ⟨by omega, hge hpos, hlt⟩

/-! ## Shifts -/

/-- WSHLC: the part of Y above its bottom limb stays in the operand, the bottom limb goes to RESW (R308). -/
theorem exec_wshlc (hp : s.posP ≤ s.lenN * s.cfg.bits) (hf : Fits s s.baseA s.lenN)
    (ha : HoldsLimbs s s.baseA s.lenN a) :
    ∃ m a', exec .wshlc s = .next { s.completed .ok with
        opmem := m
        resw := wordResult s.cfg
          (shiftedLow s.cfg.bits (s.lenN * s.cfg.bits) (limbValue s.cfg.bits s.lenN a) s.valV s.posP) } ∧
      Stores s m s.baseA s.lenN a' ∧
      limbValue s.cfg.bits s.lenN a' =
        shiftedLow s.cfg.bits (s.lenN * s.cfg.bits) (limbValue s.cfg.bits s.lenN a) s.valV s.posP /
          2 ^ s.cfg.bits % 2 ^ (s.lenN * s.cfg.bits) :=
  exec_shift rfl (checksPass_of_regionA (i := .wshlc) hp trivial hf) ha

/-- WSHHC: the part of Y above its bottom limb stays in the operand, cut to L bits; the limb above goes to RESW
(R309). -/
theorem exec_wshhc (hp : s.posP ≤ s.lenN * s.cfg.bits) (hf : Fits s s.baseA s.lenN)
    (ha : HoldsLimbs s s.baseA s.lenN a) :
    ∃ m a', exec .wshhc s = .next { s.completed .ok with
        opmem := m
        resw := wordResult s.cfg
          (shiftedHigh s.cfg.bits (limbValue s.cfg.bits s.lenN a) s.valV s.posP /
            2 ^ (s.cfg.bits + s.lenN * s.cfg.bits)) } ∧
      Stores s m s.baseA s.lenN a' ∧
      limbValue s.cfg.bits s.lenN a' =
        shiftedHigh s.cfg.bits (limbValue s.cfg.bits s.lenN a) s.valV s.posP /
          2 ^ s.cfg.bits % 2 ^ (s.lenN * s.cfg.bits) :=
  exec_shift rfl (checksPass_of_regionA (i := .wshhc) hp trivial hf) ha

/-- Settles O48: each bit is one of Y, which is the operand between zeros and the carry word. -/
theorem wshlcShiftsLowWithCarry : Obligations.WshlcShiftsLowWithCarry := by
  intro s a hp hf ha
  obtain ⟨m, a', hx, hs, hv⟩ := exec_wshlc hp hf ha
  refine ⟨m, a', _, hx, hs, fun j hj => ?_, fun j => ?_⟩
  · have hsub : j + s.cfg.bits + s.posP - s.cfg.bits = j + s.posP := by omega
    rw [hv, Nat.testBit_mod_two_pow, Nat.testBit_div_two_pow, testBit_shiftedLow ha.value_lt, if_neg (by omega), hsub,
      decide_eq_true hj, Bool.true_and]
  · rw [getLsbD_wordResult, testBit_shiftedLow ha.value_lt]
    by_cases hj : j < s.cfg.bits
    · simp only [decide_eq_true hj, Bool.true_and, not_le.mpr hj, false_or]
    · rw [decide_eq_false hj, Bool.false_and, if_pos (.inl (not_lt.mp hj))]

/-- Settles O49: each bit is one of Y, which is the operand above the carry word above zeros. -/
theorem wshhcShiftsHighWithCarry : Obligations.WshhcShiftsHighWithCarry := by
  intro s a hp hf hv ha
  obtain ⟨m, a', hx, hs, hval⟩ := exec_wshhc hp hf ha
  refine ⟨m, a', _, hx, hs, fun j hj => ?_, fun j => ?_⟩
  · rw [hval, Nat.testBit_mod_two_pow, Nat.testBit_div_two_pow, testBit_shiftedHigh hv, decide_eq_true hj,
      Bool.true_and]
    by_cases hoperand : s.posP ≤ j
    · have hsub : j + s.cfg.bits - s.posP - s.cfg.bits = j - s.posP := by omega
      rw [if_neg (by omega), if_neg (by omega), if_pos hoperand, hsub]
    · rw [if_neg hoperand, Nat.add_comm j]
      by_cases hcarry : s.posP ≤ s.cfg.bits + j
      · rw [if_neg (by omega), if_pos (by omega), if_pos hcarry]
      · rw [if_pos (by omega), if_neg hcarry]
  · have hsub : j + (s.cfg.bits + s.lenN * s.cfg.bits) - s.posP - s.cfg.bits = s.lenN * s.cfg.bits - s.posP + j := by
      omega
    rw [getLsbD_wordResult, Nat.testBit_div_two_pow, testBit_shiftedHigh hv, if_neg (by omega), if_neg (by omega), hsub]

/-! ## Shifts with no carry -/

/-- R310: with RV = 0 WSHLC divides by 2^s. -/
theorem exec_wshlc_zero (hp : s.posP ≤ s.lenN * s.cfg.bits) (hf : Fits s s.baseA s.lenN) (hv : s.valV = 0)
    (ha : HoldsLimbs s s.baseA s.lenN a) :
    ∃ m r a', exec .wshlc s = .next { s.completed .ok with opmem := m, resw := r } ∧ Stores s m s.baseA s.lenN a' ∧
      limbValue s.cfg.bits s.lenN a' = limbValue s.cfg.bits s.lenN a / 2 ^ s.posP := by
  obtain ⟨m, a', hx, hs, hval⟩ := exec_wshlc hp hf ha
  refine ⟨m, _, a', hx, hs, ?_⟩
  rw [hval, hv, shiftedLow_zero_div, Nat.mod_eq_of_lt ((Nat.div_le_self ..).trans_lt ha.value_lt)]

/-- R310: with RV = 0 WSHHC multiplies by 2^s, mod 2^L. -/
theorem exec_wshhc_zero (hp : s.posP ≤ s.lenN * s.cfg.bits) (hf : Fits s s.baseA s.lenN) (hv : s.valV = 0)
    (ha : HoldsLimbs s s.baseA s.lenN a) :
    ∃ m r a', exec .wshhc s = .next { s.completed .ok with opmem := m, resw := r } ∧ Stores s m s.baseA s.lenN a' ∧
      limbValue s.cfg.bits s.lenN a' =
        limbValue s.cfg.bits s.lenN a * 2 ^ s.posP % 2 ^ (s.lenN * s.cfg.bits) := by
  obtain ⟨m, a', hx, hs, hval⟩ := exec_wshhc hp hf ha
  refine ⟨m, _, a', hx, hs, ?_⟩
  rw [hval, hv, shiftedHigh_zero_div]

/-- Settles O51: the shift back multiplies the quotient by 2^s, which loses nothing at the top. -/
theorem shiftLowThenHighClearsTheLowBits : Obligations.ShiftLowThenHighClearsTheLowBits := by
  intro s a hp hf hv ha
  obtain ⟨m₁, r₁, a₁, hx₁, hs₁, hlow⟩ := exec_wshlc_zero hp hf hv ha
  have ⟨hholds, _⟩ := hs₁
  obtain ⟨m₂, r₂, a₂, hx₂, hs₂, hhigh⟩ := exec_wshhc_zero
    (s := { s.completed .ok with opmem := m₁, resw := r₁, latch := s.latch }) hp hf hv hholds
  replace hhigh : limbValue s.cfg.bits s.lenN a₂ =
    limbValue s.cfg.bits s.lenN a₁ * 2 ^ s.posP % 2 ^ (s.lenN * s.cfg.bits) := hhigh
  refine ⟨_, a₁, _, a₂, hx₁, hs₁, hlow, hx₂, hs₂.after rfl hs₁, ?_⟩
  rw [hhigh, hlow, Nat.mod_eq_of_lt ((Nat.div_mul_le_self ..).trans_lt ha.value_lt),
    Nat.div_mul_self_eq_mod_sub_self]

end Sys2Proof.Machine
end

section
/-! Digit lists of the recodings (42_wordarray_recoding R400), and the odd recoding (R405, R410): the digits of an odd
number to the base 2^w, and their code. -/

namespace Sys2Proof.Machine

variable {w k : Nat}

/-! ## Values of digit lists -/

@[simp] theorem digitValue_nil (w : Nat) : digitValue w [] = 0 := rfl

@[simp] theorem digitValue_cons (w : Nat) (x : Int) (d : List Int) :
    digitValue w (x :: d) = x + 2 ^ w * digitValue w d := rfl

theorem digitValue_append (w : Nat) (d e : List Int) :
    digitValue w (d ++ e) = digitValue w d + 2 ^ (w * d.length) * digitValue w e := by
  induction d with
  | nil => simp
  | cons x d ih =>
    rw [List.cons_append, digitValue_cons, digitValue_cons, ih, List.length_cons, Nat.mul_succ, pow_add]
    ring

theorem digitValue_zeros_append (w n : Nat) (d : List Int) :
    digitValue w (List.replicate n 0 ++ d) = 2 ^ (w * n) * digitValue w d := by
  induction n with
  | zero => simp
  | succ n ih =>
    rw [List.replicate_succ, List.cons_append, digitValue_cons, ih, Nat.mul_succ, pow_add]
    ring

/-! ## Odd digits -/

/-- An odd digit of at most 2^w - 1 in size: one of the set of R405. -/
abbrev OddDigit (w : Nat) (d : Int) : Prop := d % 2 = 1 ∧ d.natAbs ≤ 2 ^ w - 1

/-- A number is its first digit and 2^w times what R405 says is left: `2*floor(a / 2^(w+1)) + 1`. -/
theorem eq_orec_digit_add (w a : Nat) :
    (a : Int) = ((a % 2 ^ (w + 1) : Nat) : Int) - 2 ^ w + 2 ^ w * ((2 * (a / 2 ^ (w + 1)) + 1 : Nat) : Int) := by
  have hdiv : (2 : Int) ^ (w + 1) * ((a / 2 ^ (w + 1) : Nat) : Int) + ((a % 2 ^ (w + 1) : Nat) : Int) = a := by
    exact_mod_cast Nat.div_add_mod a (2 ^ (w + 1))
  push_cast at hdiv ⊢
  linear_combination -hdiv

/-- R405: the recurrence goes on with `2*floor(a / 2^(w+1)) + 1`, which is odd again. -/
theorem orec_succ_succ (w k a : Nat) :
    orec w (k + 2) a = (((a % 2 ^ (w + 1) : Nat) : Int) - 2 ^ w) :: orec w (k + 1) (2 * (a / 2 ^ (w + 1)) + 1) := by
  rw [orec_cons, sub_eq_of_eq_add' (eq_orec_digit_add w a), Int.mul_ediv_cancel_left _ (by positivity),
    Int.toNat_natCast]

theorem oddDigit_orec {a : Nat} (hw : 1 ≤ w) (ha : a % 2 = 1) :
    OddDigit w (((a % 2 ^ (w + 1) : Nat) : Int) - 2 ^ w) := by
  have hr : a % 2 ^ (w + 1) % 2 = 1 := by rwa [Nat.mod_mod_of_dvd _ (dvd_pow_self 2 (by omega))]
  have hlt : a % 2 ^ (w + 1) < 2 * 2 ^ w := (Nat.mod_lt _ (by positivity)).trans_eq (by ring)
  have heven : 2 ∣ 2 ^ w := dvd_pow_self 2 (by omega)
  have hcast : ((2 ^ w : Nat) : Int) = 2 ^ w := by norm_cast
  rw [OddDigit, ← hcast]
  omega

theorem orec_rest_lt {a : Nat} (hw : 1 ≤ w) (hlt : a < 2 ^ ((k + 2) * w)) :
    2 * (a / 2 ^ (w + 1)) + 1 < 2 ^ ((k + 1) * w) := by
  obtain ⟨e, he⟩ : ∃ e, (k + 1) * w = e + 1 := Nat.exists_eq_succ_of_ne_zero (Nat.mul_ne_zero (by omega) (by omega))
  have hexp : (k + 2) * w = e + (w + 1) := by rw [Nat.succ_mul, he]; ring
  have hq : a / 2 ^ (w + 1) < 2 ^ e := by
    rwa [Nat.div_lt_iff_lt_mul (by positivity), ← pow_add, ← hexp]
  rw [he, pow_succ 2 e]
  omega

/-- R405: for odd A < 2^(k*w) the k digits are odd, at most 2^w - 1 in size, and sum to A. -/
theorem orec_spec {a : Nat} (hw : 1 ≤ w) (ha : a % 2 = 1) (hlt : a < 2 ^ (k * w)) :
    (orec w k a).length = k ∧ (∀ d ∈ orec w k a, OddDigit w d) ∧ digitValue w (orec w k a) = a := by
  induction k generalizing a with
  | zero => simp at hlt; omega
  | succ k ih =>
    rcases k with _ | k
    · simp only [Nat.zero_add, Nat.one_mul] at hlt
      refine ⟨rfl, ?_, by simp [orec]⟩
      simp only [orec, List.mem_singleton, forall_eq]
      constructor <;> omega
    · obtain ⟨hlen, hdigits, hsum⟩ := ih (a := 2 * (a / 2 ^ (w + 1)) + 1) (by omega) (orec_rest_lt hw hlt)
      rw [orec_succ_succ]
      refine ⟨by simp [hlen], List.forall_mem_cons.mpr ⟨oddDigit_orec hw ha, hdigits⟩, ?_⟩
      rw [digitValue_cons, hsum, ← eq_orec_digit_add]

/-- R410: the codes of odd digits take w bits each, and decoding gives the digits back. -/
theorem ocodeDecode_ocodeSum {d : List Int} (hw : 1 ≤ w) (hd : ∀ x ∈ d, OddDigit w x) :
    ocodeSum w d < 2 ^ (d.length * w) ∧ ocodeDecode w (ocodeSum w d) d.length = d := by
  induction d with
  | nil => exact ⟨by simp [ocodeSum], rfl⟩
  | cons x d ih =>
    obtain ⟨⟨hodd, hsize⟩, hrest⟩ := List.forall_mem_cons.mp hd
    obtain ⟨hlt, hdec⟩ := ih hrest
    have hc := ocode_lt hw hsize
    constructor
    · rw [ocodeSum, List.length_cons, Nat.succ_mul, Nat.add_comm (d.length * w), pow_add]
      nlinarith
    · rw [List.length_cons, ocodeDecode, ocodeSum, Nat.add_mul_mod_self_left, Nat.mod_eq_of_lt hc,
        Nat.add_mul_div_left _ _ (Nat.two_pow_pos w), Nat.div_eq_of_lt hc, Nat.zero_add, hdec,
        decode_ocode hw hodd hsize]

/-- R411: what WOREC and WOWF write for an odd A < 2^(k*w), and what its decoding gives. -/
theorem ocodeSum_orec_spec {a : Nat} (hw : 1 ≤ w) (ha : a % 2 = 1) (hlt : a < 2 ^ (k * w)) :
    ocodeSum w (orec w k a) < 2 ^ (k * w) ∧ (∀ d ∈ ocodeDecode w (ocodeSum w (orec w k a)) k, OddDigit w d) ∧
      digitValue w (ocodeDecode w (ocodeSum w (orec w k a)) k) = a := by
  obtain ⟨hlen, hdigits, hsum⟩ := orec_spec hw ha hlt
  obtain ⟨hcode, hdec⟩ := ocodeDecode_ocodeSum hw hdigits
  rw [hlen] at hcode hdec
  rw [hdec]
  exact ⟨hcode, hdigits, hsum⟩

end Sys2Proof.Machine
end

section
/-! The windowed NAF (42_wordarray_recoding R401, R404): the digits that the loop takes, and the rewrite at their most
significant end. -/

namespace Sys2Proof.Machine

variable {w k fuel : Nat} {d : List Int} {x : Int}

/-! ## One turn of the loop -/

/-- What the loop of R401 goes on with after k. -/
def nafRest (w k : Nat) : Nat := (((k : Int) - nafDigit w k) / 2).toNat

theorem nafLoop_zero (w fuel : Nat) : nafLoop w fuel 0 = [] := by cases fuel <;> rfl

theorem nafLoop_succ (hk : k ≠ 0) : nafLoop w (fuel + 1) k = nafDigit w k :: nafLoop w fuel (nafRest w k) := if_neg hk

theorem nafRest_of_even (h : k % 2 = 0) : nafRest w k = k / 2 := by
  rw [nafRest, nafDigit_of_even h]; omega

/-- After an odd k the loop goes on with a multiple of 2^(w-1), because k less its digit is one of 2^w and not
negative. -/
theorem nafRest_of_odd (hw : 2 ≤ w) (h : k % 2 = 1) :
    ∃ q : Nat, (k : Int) = nafDigit w k + 2 ^ w * q ∧ nafRest w k = 2 ^ (w - 1) * q := by
  obtain ⟨-, -, hle, q, hq⟩ := nafDigit_of_odd hw h
  have hpow : (2 : Int) ^ w = 2 ^ (w - 1) * 2 := (pow_sub_one_mul (by omega) 2).symm
  have hpos : (0 : Int) < 2 ^ (w - 1) := by positivity
  have hq0 : 0 ≤ q := by
    by_contra hneg
    nlinarith
  lift q to Nat using hq0
  refine ⟨q, by linarith, ?_⟩
  rw [nafRest, hq, hpow, mul_right_comm, Int.mul_ediv_cancel _ (by norm_num)]
  norm_cast

/-- The digit and twice what is left make k. -/
theorem nafDigit_add_nafRest (hw : 2 ≤ w) (k : Nat) : nafDigit w k + 2 * (nafRest w k : Int) = k := by
  rcases Nat.mod_two_eq_zero_or_one k with h | h
  · rw [nafRest_of_even h, nafDigit_of_even h]; omega
  · obtain ⟨q, hk, hrest⟩ := nafRest_of_odd hw h
    have hpow : (2 : Int) ^ w = 2 * 2 ^ (w - 1) := (mul_pow_sub_one (by omega) 2).symm
    rw [hrest, hk, hpow]
    push_cast
    ring

/-- A bound 2^b of k is halved. A negative digit takes k up, but to a multiple of 2^w below 2^b + 2^(w-1), and so to 2^b
at most. -/
theorem two_mul_nafRest_le {b : Nat} (hw : 2 ≤ w) (hk : k ≤ 2 ^ b) : 2 * nafRest w k ≤ 2 ^ b := by
  rcases Nat.mod_two_eq_zero_or_one k with h | h
  · rw [nafRest_of_even h]; omega
  · obtain ⟨-, hge, -⟩ := nafDigit_of_odd hw h
    obtain ⟨q, hq, hrest⟩ := nafRest_of_odd hw h
    have hpow : 2 ^ w = 2 * 2 ^ (w - 1) := (mul_pow_sub_one (by omega) 2).symm
    have hlt : 2 ^ w * q < 2 ^ b + 2 ^ (w - 1) := by
      zify at hk ⊢
      linarith
    rw [hrest, ← mul_assoc, ← hpow]
    rcases Nat.lt_or_ge b w with hb | hb
    · have hsmall : 2 ^ b ≤ 2 ^ (w - 1) := Nat.pow_le_pow_right (by norm_num) (by omega)
      have hq0 : q = 0 := by
        by_contra hne
        nlinarith [Nat.pos_of_ne_zero hne]
      simp [hq0]
    · obtain ⟨c, rfl⟩ := Nat.exists_eq_add_of_le hb
      rw [pow_add] at hlt ⊢
      have : q ≤ 2 ^ c := by
        by_contra hgt
        nlinarith [Nat.two_pow_pos (w - 1)]
      exact Nat.mul_le_mul_left _ this

theorem pow_dvd_nafRest_of_odd (hw : 2 ≤ w) (h : k % 2 = 1) : 2 ^ (w - 1) ∣ nafRest w k :=
  let ⟨q, _, hrest⟩ := nafRest_of_odd hw h
  ⟨q, hrest⟩

theorem pow_dvd_nafRest_of_dvd {g : Nat} (h : 2 ^ (g + 1) ∣ k) : 2 ^ g ∣ nafRest w k := by
  obtain ⟨c, rfl⟩ := h
  rw [pow_succ', Nat.mul_assoc, nafRest_of_even (Nat.mul_mod_right ..), Nat.mul_div_cancel_left _ (by norm_num)]
  exact Nat.dvd_mul_right ..

/-! ## The digits of the loop -/

/-- A nonzero digit of a windowed NAF (R404 item 2). -/
abbrev NafDigit (w : Nat) (x : Int) : Prop := x % 2 = 1 ∧ -(2 ^ (w - 1) - 1) ≤ x ∧ x ≤ 2 ^ (w - 1) - 1

theorem nafDigit_of_ne_zero (hw : 2 ≤ w) (h : nafDigit w k ≠ 0) : k % 2 = 1 ∧ NafDigit w (nafDigit w k) := by
  have hodd : k % 2 = 1 := by
    by_contra heven
    exact h (nafDigit_of_even (by omega))
  obtain ⟨hx, hge, hle, -⟩ := nafDigit_of_odd hw hodd
  exact ⟨hodd, hx, hge, hle⟩

theorem digitValue_nafLoop (hw : 2 ≤ w) (h : 2 * k ≤ 2 ^ fuel) : digitValue 1 (nafLoop w fuel k) = k := by
  induction fuel generalizing k with
  | zero =>
    obtain rfl : k = 0 := by rw [pow_zero] at h; omega
    rfl
  | succ fuel ih =>
    by_cases hk : k = 0
    · subst hk; rfl
    · have hle := two_mul_nafRest_le hw (k := k) (b := fuel) (by rw [pow_succ] at h; omega)
      rw [nafLoop_succ hk, digitValue_cons, ih hle, pow_one, nafDigit_add_nafRest hw]

theorem nafDigit_of_mem_nafLoop (hw : 2 ≤ w) (h : x ∈ nafLoop w fuel k) (hx : x ≠ 0) : NafDigit w x := by
  induction fuel generalizing k with
  | zero => simp [nafLoop] at h
  | succ fuel ih =>
    by_cases hk : k = 0
    · simp [hk, nafLoop_zero] at h
    · rw [nafLoop_succ hk, List.mem_cons] at h
      rcases h with rfl | h
      · exact (nafDigit_of_ne_zero hw hx).2
      · exact ih h

theorem length_nafLoop_le (hw : 2 ≤ w) {t : Nat} (h : 2 * k ≤ 2 ^ t) : (nafLoop w fuel k).length ≤ t := by
  induction fuel generalizing k t with
  | zero => simp [nafLoop]
  | succ fuel ih =>
    by_cases hk : k = 0
    · simp [hk, nafLoop_zero]
    · obtain ⟨t, rfl⟩ : ∃ t', t = t' + 1 := Nat.exists_eq_succ_of_ne_zero (by rintro rfl; omega)
      rw [nafLoop_succ hk, List.length_cons]
      exact Nat.succ_le_succ (ih (two_mul_nafRest_le hw (by rw [pow_succ] at h; omega)))

theorem nafLoop_eq_nil_iff : nafLoop w (fuel + 1) k = [] ↔ k = 0 := by
  by_cases hk : k = 0
  · simp [hk, nafLoop_zero]
  · simp [hk, nafLoop_succ]

/-- A run of zero bits of k is a run of zero digits. -/
theorem getD_nafLoop_of_dvd {g i : Nat} (hk : 2 ^ g ∣ k) (hi : i < g) :
    (nafLoop w fuel k).getD i 0 = 0 := by
  induction fuel generalizing k g i with
  | zero => rfl
  | succ fuel ih =>
    by_cases hk0 : k = 0
    · simp [hk0, nafLoop_zero]
    · obtain ⟨g, rfl⟩ : ∃ g', g = g' + 1 := Nat.exists_eq_succ_of_ne_zero (by omega)
      rw [nafLoop_succ hk0]
      rcases i with _ | i
      · exact nafDigit_of_even (Nat.mod_eq_zero_of_dvd ((dvd_pow_self 2 (by omega)).trans hk))
      · exact ih (pow_dvd_nafRest_of_dvd hk) (by omega)

/-- R404 item 3, before the rewrite. -/
theorem nafLoop_spaced (hw : 2 ≤ w) {i j : Nat} (hij : i < j) (hi : (nafLoop w fuel k).getD i 0 ≠ 0)
    (hj : (nafLoop w fuel k).getD j 0 ≠ 0) : w ≤ j - i := by
  induction fuel generalizing k i j with
  | zero => exact absurd rfl hi
  | succ fuel ih =>
    by_cases hk : k = 0
    · simp [hk, nafLoop_zero] at hi
    · rw [nafLoop_succ hk] at hi hj
      obtain ⟨j, rfl⟩ : ∃ j', j = j' + 1 := Nat.exists_eq_succ_of_ne_zero (by omega)
      rw [List.getD_cons_succ] at hj
      rcases i with _ | i
      · obtain ⟨hodd, -⟩ := nafDigit_of_ne_zero hw hi
        by_contra hlt
        exact hj (getD_nafLoop_of_dvd (pow_dvd_nafRest_of_odd hw hodd) (by omega))
      · rw [List.getD_cons_succ] at hi
        have := ih (by omega) hi hj
        omega

/-! ## The length of their code -/

/-- The number of bits of the code of the digits: one for a zero digit, w for another (R403). -/
def nafCodeLength (w : Nat) : List Int → Nat
  | [] => 0
  | x :: d => (if x = 0 then 1 else w) + nafCodeLength w d

theorem nafCodeLength_append (w : Nat) (d e : List Int) :
    nafCodeLength w (d ++ e) = nafCodeLength w d + nafCodeLength w e := by
  induction d with
  | nil => simp [nafCodeLength]
  | cons x d ih => rw [List.cons_append, nafCodeLength, nafCodeLength, ih, Nat.add_assoc]

theorem nafCodeLength_zeros (w n : Nat) : nafCodeLength w (List.replicate n 0) = n := by
  induction n with
  | zero => rfl
  | succ n ih => rw [List.replicate_succ, nafCodeLength, ih, if_pos rfl, Nat.add_comm]

theorem nafCodeLength_reverse (w : Nat) (d : List Int) : nafCodeLength w d.reverse = nafCodeLength w d := by
  induction d with
  | nil => rfl
  | cons x d ih => rw [List.reverse_cons, nafCodeLength_append, ih, Nat.add_comm]; rfl

/-- R404 item 5: the spacing leaves two bits a digit, and one window more. The run of g zero bits of k makes up for the
window of the digit before it. -/
theorem nafCodeLength_nafLoop (hw : 2 ≤ w) {g : Nat} (hg : g < w) (hk : 2 ^ g ∣ k) :
    nafCodeLength w (nafLoop w fuel k) + g < 2 * (nafLoop w fuel k).length + w := by
  induction fuel generalizing k g with
  | zero => simpa [nafLoop, nafCodeLength]
  | succ fuel ih =>
    by_cases hk0 : k = 0
    · simpa [hk0, nafLoop_zero, nafCodeLength]
    · rw [nafLoop_succ hk0, nafCodeLength, List.length_cons]
      by_cases hx : nafDigit w k = 0
      · have hrest : 2 ^ (g - 1) ∣ nafRest w k := by
          rcases g with _ | g
          · exact one_dvd _
          · exact pow_dvd_nafRest_of_dvd hk
        have := ih (by omega) hrest
        rw [if_pos hx]
        omega
      · obtain ⟨hodd, -⟩ := nafDigit_of_ne_zero hw hx
        have := ih (g := w - 1) (by omega) (pow_dvd_nafRest_of_odd hw hodd)
        have hg0 : g = 0 := by
          by_contra hne
          have := (dvd_pow_self 2 hne).trans hk
          omega
        rw [if_neg hx]
        omega

/-! ## The rewrite -/

/-- The two endings that the rewrite of R401 is about: x, n zeros, and the top digit 1. -/
def nafTop (x : Int) (n : Nat) : List Int := x :: (List.replicate n 0 ++ [1])

@[simp] theorem length_nafTop (x : Int) (n : Nat) : (nafTop x n).length = n + 2 := by simp [nafTop]

@[simp] theorem digitValue_nafTop (x : Int) (n : Nat) : digitValue 1 (nafTop x n) = x + 2 ^ (n + 1) := by
  rw [nafTop, digitValue_cons, digitValue_zeros_append]
  simp [pow_succ']

theorem nafCodeLength_nafTop (hx : x ≠ 0) (n : Nat) : nafCodeLength w (nafTop x n) = w + (n + w) := by
  rw [nafTop, nafCodeLength, if_neg hx, nafCodeLength_append, nafCodeLength_zeros]
  simp [nafCodeLength]

theorem getD_nafTop_ne_zero {n i : Nat} (h : (nafTop x n).getD i 0 ≠ 0) :
    i = 0 ∨ i = n + 1 ∧ (nafTop x n).getD i 0 = 1 := by
  rcases i with _ | i
  · exact .inl rfl
  · rw [nafTop, List.getD_cons_succ] at h ⊢
    rcases lt_trichotomy i n with hi | rfl | hi
    · rw [List.getD_append _ _ _ _ (by simpa using hi), List.getD_replicate _ hi] at h
      exact absurd rfl h
    · simp
    · rw [List.getD_eq_default _ _ (by simpa using hi)] at h
      exact absurd rfl h

/-- Where the rewrite applies, the digits end with a negative one, w - 1 zeros and a 1. -/
theorem drop_of_nafRewritable (hw : 2 ≤ w) (hr : nafRewritable w d = true) :
    d.getD (d.length - w - 1) 0 < 0 ∧
      d.drop (d.length - w - 1) = nafTop (d.getD (d.length - w - 1) 0) (w - 1) := by
  simp only [nafRewritable, Bool.and_eq_true, decide_eq_true_eq, beq_iff_eq] at hr
  obtain ⟨⟨⟨hlen, hlast⟩, hzeros⟩, hneg⟩ := hr
  obtain ⟨f, hf⟩ : ∃ f, d.length = f + (w + 1) := Nat.exists_eq_add_of_le' hlen
  obtain ⟨hdigit, hbelow⟩ : d.length - w - 1 = f ∧ d.length - w = f + 1 := by omega
  have hend : d.drop (f + w) = [1] := by
    rw [List.getLast?_eq_getElem?, hf, Nat.add_succ_sub_one, List.getElem?_eq_getElem (by omega), Option.some_inj]
      at hlast
    rw [List.drop_eq_getElem_cons (by omega), List.drop_eq_nil_of_le (by omega), ← hlast]
  have htail := List.take_append_drop (w - 1) (d.drop (f + 1))
  rw [hbelow] at hzeros
  rw [hzeros, List.drop_drop, show f + 1 + (w - 1) = f + w by omega, hend] at htail
  refine ⟨hneg, ?_⟩
  rw [hdigit, nafTop, htail, List.getD_eq_getElem _ _ (by omega), ← List.drop_eq_getElem_cons]

/-- The rewrite changes nothing, or it takes one zero out of an ending with a negative digit. -/
theorem nafRewrite_cases (hw : 2 ≤ w) (d : List Int) :
    nafRewrite w d = d ∨ ∃ front x, x < 0 ∧ d = front ++ nafTop x (w - 1) ∧
      nafRewrite w d = front ++ nafTop (x + 2 ^ (w - 1)) (w - 2) := by
  by_cases hr : nafRewritable w d = true
  · obtain ⟨hneg, hdrop⟩ := drop_of_nafRewritable hw hr
    refine .inr ⟨d.take (d.length - w - 1), _, hneg, ?_, ?_⟩
    · rw [← hdrop, List.take_append_drop]
    · rw [nafRewrite, if_pos hr]
      simp [nafTop]
  · exact .inl (if_neg hr)

/-! ## The digits after the rewrite -/

theorem digitValue_nafRewrite (hw : 2 ≤ w) (d : List Int) : digitValue 1 (nafRewrite w d) = digitValue 1 d := by
  rcases nafRewrite_cases hw d with h | ⟨front, x, -, hd, h⟩
  · rw [h]
  · obtain ⟨m, rfl⟩ := Nat.exists_eq_add_of_le' hw
    rw [h, hd, digitValue_append, digitValue_append, digitValue_nafTop, digitValue_nafTop]
    simp only [Nat.add_sub_cancel, Nat.add_succ_sub_one]
    ring

theorem nafDigit_of_mem_nafRewrite (hw : 2 ≤ w) (hd : ∀ x ∈ d, x ≠ 0 → NafDigit w x) :
    ∀ x ∈ nafRewrite w d, x ≠ 0 → NafDigit w x := by
  rcases nafRewrite_cases hw d with h | ⟨front, y, hneg, rfl, h⟩
  · rwa [h]
  · obtain ⟨hodd, hge, -⟩ := hd y (by simp [nafTop]) hneg.ne
    have hone := hd 1 (by simp [nafTop]) one_ne_zero
    have heven : (2 : Int) ∣ 2 ^ (w - 1) := dvd_pow_self 2 (by omega)
    have hnew : NafDigit w (y + 2 ^ (w - 1)) := ⟨by omega, by omega, by omega⟩
    rw [h]
    intro x hx hx0
    simp only [nafTop, List.mem_append, List.mem_cons, List.mem_replicate, List.not_mem_nil, or_false] at hx
    rcases hx with hx | rfl | ⟨-, rfl⟩ | rfl
    · exact hd x (List.mem_append_left _ hx) hx0
    · exact hnew
    · exact absurd rfl hx0
    · exact hone

theorem length_nafRewrite_le (hw : 2 ≤ w) (d : List Int) : (nafRewrite w d).length ≤ d.length := by
  rcases nafRewrite_cases hw d with h | ⟨front, x, -, hd, h⟩
  · rw [h]
  · rw [h, hd]
    simp only [List.length_append, length_nafTop]
    omega

theorem nafRewrite_eq_nil_iff (hw : 2 ≤ w) : nafRewrite w d = [] ↔ d = [] := by
  rcases nafRewrite_cases hw d with h | ⟨front, x, -, hd, h⟩
  · rw [h]
  · rw [h, hd]
    simp [nafTop]

/-- R404 item 3: the rewrite moves only the top digit, which is then w - 1 above the digit that was negative. -/
theorem nafRewrite_spaced (hw : 2 ≤ w)
    (hd : ∀ {i j}, i < j → d.getD i 0 ≠ 0 → d.getD j 0 ≠ 0 → w ≤ j - i) {i j : Nat} (hij : i < j)
    (hi : (nafRewrite w d).getD i 0 ≠ 0) (hj : (nafRewrite w d).getD j 0 ≠ 0) :
    w ≤ j - i ∨
      (j - i = w - 1 ∧ j = (nafRewrite w d).length - 1 ∧ (nafRewrite w d).getD j 0 = 1) := by
  rcases nafRewrite_cases hw d with h | ⟨front, x, hneg, rfl, h⟩
  · rw [h] at hi hj
    exact .inl (hd hij hi hj)
  · rw [h] at hi hj ⊢
    have hdigit : (front ++ nafTop x (w - 1)).getD front.length 0 ≠ 0 := by
      rw [List.getD_append_right _ _ _ _ le_rfl, Nat.sub_self]
      exact hneg.ne
    have hold {l : Nat} (hl : l ≤ front.length)
        (h0 : (front ++ nafTop (x + 2 ^ (w - 1)) (w - 2)).getD l 0 ≠ 0) :
        (front ++ nafTop x (w - 1)).getD l 0 ≠ 0 := by
      rcases hl.lt_or_eq with hl | rfl
      · rwa [List.getD_append _ _ _ _ hl] at h0 ⊢
      · exact hdigit
    rcases le_or_gt j front.length with hjf | hjf
    · exact .inl (hd hij (hold (by omega) hi) (hold hjf hj))
    · rw [List.getD_append_right _ _ _ _ hjf.le] at hj ⊢
      obtain hj0 | ⟨hjtop, hone⟩ := getD_nafTop_ne_zero hj
      · omega
      · rcases lt_trichotomy i front.length with hif | hif | hif
        · have hbelow := hd hif (hold hif.le hi) hdigit
          exact .inl (by omega)
        · refine .inr ⟨by omega, ?_, hone⟩
          simp only [List.length_append, length_nafTop]
          omega
        · rw [List.getD_append_right _ _ _ _ hif.le] at hi
          obtain hi0 | ⟨hitop, -⟩ := getD_nafTop_ne_zero hi <;> omega

theorem nafCodeLength_nafRewrite_le (hw : 2 ≤ w) (hd : ∀ x ∈ d, x ≠ 0 → NafDigit w x) :
    nafCodeLength w (nafRewrite w d) ≤ nafCodeLength w d := by
  rcases nafRewrite_cases hw d with h | ⟨front, x, hneg, rfl, h⟩
  · rw [h]
  · obtain ⟨-, hge, -⟩ := hd x (by simp [nafTop]) hneg.ne
    have hnew : x + 2 ^ (w - 1) ≠ 0 := by omega
    rw [h, nafCodeLength_append, nafCodeLength_append, nafCodeLength_nafTop hneg.ne, nafCodeLength_nafTop hnew]
    omega

end Sys2Proof.Machine
end

section
/-! The code of the windowed NAF (42_wordarray_recoding R403, R404): what stands at each position, and its decoding. -/

namespace Sys2Proof.Machine

variable {w : Nat} {d : List Int} {x : Int}

/-! ## The w bits of a digit -/

theorem twosOf_lt (w : Nat) (x : Int) : twosOf w x < 2 ^ w := by
  have := Int.emod_lt_of_pos x (show (0 : Int) < 2 ^ w by positivity)
  zify [twosOf]
  rwa [Int.toNat_of_nonneg (Int.emod_nonneg _ (by positivity))]

theorem twosOf_eq (hx : NafDigit w x) : (twosOf w x : Int) = if x < 0 then x + 2 ^ w else x := by
  obtain ⟨-, hge, hle⟩ := hx
  have hpow : (2 : Int) ^ (w - 1) ≤ 2 ^ w := pow_le_pow_right₀ (by norm_num) (Nat.sub_le w 1)
  rw [twosOf, Int.toNat_of_nonneg (Int.emod_nonneg _ (by positivity))]
  split_ifs
  · rw [← Int.add_emod_right, Int.emod_eq_of_lt (by omega) (by omega)]
  · exact Int.emod_eq_of_lt (by omega) (by omega)

/-- Reading the w bits of a digit as a signed number gives the digit back (00_scope R14). -/
theorem signed_twosOf (hw : 1 ≤ w) (hx : NafDigit w x) :
    (if twosOf w x < 2 ^ (w - 1) then (twosOf w x : Int) else (twosOf w x : Int) - 2 ^ w) = x := by
  have heq := twosOf_eq hx
  obtain ⟨-, hge, hle⟩ := hx
  have hpow : (2 : Int) ^ w = 2 * 2 ^ (w - 1) := (mul_pow_sub_one (by omega) 2).symm
  have hcast : ((2 ^ (w - 1) : Nat) : Int) = 2 ^ (w - 1) := by norm_cast
  split_ifs at heq ⊢ <;> omega

theorem twosOf_odd (hw : 1 ≤ w) (hx : NafDigit w x) : twosOf w x % 2 = 1 := by
  have heq := twosOf_eq hx
  obtain ⟨hodd, -⟩ := hx
  have heven : (2 : Int) ∣ 2 ^ w := dvd_pow_self 2 (by omega)
  split_ifs at heq <;> omega

/-! ## The code -/

/-- The code of the digits, given most significant first: the first takes the lowest bits (R403). -/
def nafCode (w : Nat) : List Int → Nat
  | [] => 0
  | x :: d => if x = 0 then 2 * nafCode w d else twosOf w x + 2 ^ w * nafCode w d

/-- `naf_encode` puts the code at its position, and ends behind it. -/
theorem nafEncodeFrom_eq (w : Nat) (d : List Int) (p : Nat) :
    nafEncodeFrom w d p = (2 ^ p * nafCode w d, p + nafCodeLength w d) := by
  induction d generalizing p with
  | nil => rfl
  | cons x d ih =>
    rw [nafEncodeFrom_cons, nafCode, nafCodeLength]
    split_ifs with hx
    · rw [ih, pow_succ, mul_assoc, Nat.add_assoc]
    · have hlow : 2 ^ p * twosOf w x < 2 ^ (p + w) := by
        rw [pow_add]
        exact Nat.mul_lt_mul_of_pos_left (twosOf_lt w x) (by positivity)
      rw [ih, mul_comm (twosOf w x), Nat.lor_comm, ← Nat.two_pow_add_eq_or_of_lt hlow, Nat.add_assoc]
      congr 1
      ring

theorem nafCode_lt (d : List Int) : nafCode w d < 2 ^ nafCodeLength w d := by
  induction d with
  | nil => simp [nafCode, nafCodeLength]
  | cons x d ih =>
    rw [nafCode, nafCodeLength, pow_add]
    split_ifs
    · omega
    · have := twosOf_lt w x
      nlinarith

/-- R404 item 6: the decoding procedure, on a code whose bits from p on are those of the digits. -/
theorem nafDecode_eq (hw : 1 ≤ w) (hd : ∀ x ∈ d, x ≠ 0 → NafDigit w x) {code p : Nat}
    (hcode : code / 2 ^ p = nafCode w d) : nafDecode w code d.length p = (d, p + nafCodeLength w d) := by
  induction d generalizing p with
  | nil => rfl
  | cons x d ih =>
    obtain ⟨hx, hrest⟩ := List.forall_mem_cons.mp hd
    have hskip (b : Nat) : code / 2 ^ (p + b) = nafCode w (x :: d) / 2 ^ b := by
      rw [pow_add, ← Nat.div_div_eq_div_mul, hcode]
    rw [List.length_cons, nafDecode, nafCodeLength, hcode, ← Nat.add_assoc]
    by_cases hx0 : x = 0
    · have hc : nafCode w (x :: d) = 2 * nafCode w d := if_pos hx0
      have hnext : code / 2 ^ (p + 1) = nafCode w d := by rw [hskip, hc]; omega
      rw [hc, if_pos (Nat.mul_mod_right ..), if_pos hx0, ih hrest hnext, hx0]
    · have hc : nafCode w (x :: d) = twosOf w x + 2 ^ w * nafCode w d := if_neg hx0
      have hlt := twosOf_lt w x
      have hnext : code / 2 ^ (p + w) = nafCode w d := by
        rw [hskip, hc, Nat.add_mul_div_left _ _ (Nat.two_pow_pos w), Nat.div_eq_of_lt hlt, Nat.zero_add]
      have hlow : nafCode w (x :: d) % 2 ^ w = twosOf w x := by
        rw [hc, Nat.add_mul_mod_self_left, Nat.mod_eq_of_lt hlt]
      have hone : nafCode w (x :: d) % 2 = 1 := by
        rw [← Nat.mod_mod_of_dvd _ (dvd_pow_self 2 (show w ≠ 0 by omega)), hlow, twosOf_odd hw (hx hx0)]
      rw [if_neg (by omega), if_neg hx0, hlow, ih hrest hnext]
      simp only [signed_twosOf hw (hx hx0)]

/-- R404 items 5 and 6: the code of naf_w(A) for an A of L bits ends by bit 2L + w + 1, has no bit from its length on,
and decodes to the digits. -/
theorem nafEncode_spec {a L : Nat} (hw : 2 ≤ w) (ha : a < 2 ^ L) :
    (nafEncode w (naf w a)).2 ≤ 2 * L + w + 1 ∧ (nafEncode w (naf w a)).1 < 2 ^ (nafEncode w (naf w a)).2 ∧
      nafDecode w (nafEncode w (naf w a)).1 (naf w a).length 0 = ((naf w a).reverse, (nafEncode w (naf w a)).2) := by
  have hloop : ∀ x ∈ nafLoop w (bitLen a + 1) a, x ≠ 0 → NafDigit w x := fun _ => nafDigit_of_mem_nafLoop hw
  have hdigits : ∀ x ∈ naf w a, x ≠ 0 → NafDigit w x := nafDigit_of_mem_nafRewrite hw hloop
  have hcode : nafEncode w (naf w a) = (nafCode w (naf w a).reverse, nafCodeLength w (naf w a)) := by
    rw [nafEncode, nafEncodeFrom_eq, nafCodeLength_reverse, pow_zero, Nat.one_mul, Nat.zero_add]
  rw [hcode]
  refine ⟨?_, ?_, ?_⟩
  · have hcount := length_nafLoop_le (fuel := bitLen a + 1) hw (show 2 * a ≤ 2 ^ (L + 1) by rw [pow_succ]; omega)
    have hlen := nafCodeLength_nafLoop (fuel := bitLen a + 1) hw (show 0 < w by omega) (one_dvd a)
    have hle : nafCodeLength w (naf w a) ≤ _ := nafCodeLength_nafRewrite_le hw hloop
    omega
  · rw [← nafCodeLength_reverse]
    exact nafCode_lt _
  · have h := nafDecode_eq (by omega) (p := 0) (fun x hx => hdigits x (List.mem_reverse.mp hx)) (Nat.div_one _)
    rwa [List.length_reverse, nafCodeLength_reverse, Nat.zero_add] at h

end Sys2Proof.Machine
end

section
/-! The word-array unit (42_wordarray_recoding): the NAF and its code, the odd recodings, and the counts of their
digits. -/

namespace Sys2Proof.Machine

variable {w k : Nat} {s : State} {a : Nat → Nat}

/-! ## The windowed NAF -/

/-- Settles O52: each property holds of the digits of the loop, and the rewrite keeps it. -/
theorem nafDigitsRepresentTheValue : Obligations.NafDigitsRepresentTheValue := by
  intro w a hw
  have hbound {b : Nat} (hb : a < 2 ^ b) : 2 * a ≤ 2 ^ (b + 1) := by rw [pow_succ]; omega
  obtain ⟨hlt, -⟩ := bitLen_spec a
  refine ⟨?_, ?_, fun b hb => ?_, ?_, fun i j => ?_⟩
  · rw [naf, digitValue_nafRewrite hw, digitValue_nafLoop hw (hbound hlt)]
  · exact nafDigit_of_mem_nafRewrite hw fun x => nafDigit_of_mem_nafLoop hw
  · exact (length_nafRewrite_le hw _).trans (length_nafLoop_le hw (hbound hb))
  · rw [naf, nafRewrite_eq_nil_iff hw, nafLoop_eq_nil_iff]
  · exact nafRewrite_spaced hw (nafLoop_spaced hw)

/-- Settles O53: the code of A < 2^L is shorter than the 2L + B bits of the destination. -/
theorem wnafStoresADecodableNaf : Obligations.WnafStoresADecodableNaf := by
  intro w s a hwf hw hwB hfa hfd ho ha
  have hc : ChecksPass (.wnaf w) s :=
    ⟨⟨hw, hwB⟩, by simp [RangesOk, readRegions, storeRegions, hfa, hfd], ho⟩
  have hsize : (2 * s.lenN + 1) * s.cfg.bits = 2 * (s.lenN * s.cfg.bits) + s.cfg.bits := by ring
  have hroom := lenBits_lt hwf hfd
  obtain ⟨-, -, hcount, -⟩ := nafDigitsRepresentTheValue w (limbValue s.cfg.bits s.lenN a) hw
  replace hcount := hcount _ ha.value_lt
  obtain ⟨hlen, hlt, hdec⟩ := nafEncode_spec hw ha.value_lt
  have hfit := hlt.trans_le (Nat.pow_le_pow_right (by norm_num)
    (show _ ≤ (2 * s.lenN + 1) * s.cfg.bits by omega))
  refine ⟨_, _, _, exec_of_operand rfl hc ha, by omega, by omega, stores_memWrite s _ _ _, ?_⟩
  rw [limbValue_of_limb, Nat.mod_eq_of_lt hfit]
  exact ⟨hlt, hdec⟩

/-! ## The commands of the odd recodings -/

theorem exec_worsz (hw : 1 ≤ w) (hwB : w < s.cfg.bits) :
    exec (.worsz w) s = .next { s.completed .ok with
      res := BitVec.ofNat 32 ((s.lenN * s.cfg.bits + w - 1) / w) } :=
  exec_of_checksPass rfl ⟨⟨hw, hwB⟩, by simp [RangesOk, readRegions, storeRegions], trivial⟩

theorem exec_wowsz (hw : 1 ≤ w) (hwB : w < s.cfg.bits) :
    exec (.wowsz w) s = .next { s.completed .ok with res := BitVec.ofNat 32 (s.lenN * s.cfg.bits / w) } :=
  exec_of_checksPass rfl ⟨⟨hw, hwB⟩, by simp [RangesOk, readRegions, storeRegions], trivial⟩

theorem exec_worec (hw : 1 ≤ w) (hwB : w < s.cfg.bits) (hn : 1 ≤ s.lenN) (hfa : Fits s s.baseA s.lenN)
    (hfd : Fits s s.baseD (worecLength s w)) (ho : ¬Overlap s.baseA s.lenN s.baseD (worecLength s w))
    (ha : HoldsLimbs s s.baseA s.lenN a) (hodd : limbValue s.cfg.bits s.lenN a % 2 = 1) :
    exec (.worec w) s = .next { s.completed .ok with
      opmem := memWrite s.cfg s.opmem s.baseD (worecLength s w)
        (ocodeSum w (orec w ((s.lenN * s.cfg.bits + w - 1) / w) (limbValue s.cfg.bits s.lenN a)))
      res := BitVec.ofNat 32 ((s.lenN * s.cfg.bits + w - 1) / w) } := by
  have hc : ChecksPass (.worec w) s :=
    ⟨⟨⟨hw, hwB⟩, hn⟩, by simp [RangesOk, readRegions, storeRegions, hfa, hfd], ho⟩
  exact (exec_of_operand rfl hc ha).trans (if_neg (by omega))

theorem exec_wowf (hw : 1 ≤ w) (hwB : w < s.cfg.bits) (hn : 1 ≤ s.lenN) (hfa : Fits s s.baseA s.lenN)
    (hfd : Fits s s.baseD (wowfLength s w)) (ho : ¬Overlap s.baseA s.lenN s.baseD (wowfLength s w))
    (ha : HoldsLimbs s s.baseA s.lenN a) (hodd : limbValue s.cfg.bits s.lenN a % 2 = 1)
    (hlt : limbValue s.cfg.bits s.lenN a < 2 ^ (s.lenN * s.cfg.bits / w * w)) :
    exec (.wowf w) s = .next { s.completed .ok with
      opmem := memWrite s.cfg s.opmem s.baseD (wowfLength s w)
        (ocodeSum w (orec w (s.lenN * s.cfg.bits / w) (limbValue s.cfg.bits s.lenN a)))
      res := BitVec.ofNat 32 (s.lenN * s.cfg.bits / w) } := by
  have hc : ChecksPass (.wowf w) s :=
    ⟨⟨⟨hw, hwB⟩, hn⟩, by simp [RangesOk, readRegions, storeRegions, hfa, hfd], ho⟩
  have hok : ¬(limbValue s.cfg.bits s.lenN a % 2 = 0 ∨
      limbValue s.cfg.bits s.lenN a ≥ 2 ^ (owfDigits s.cfg.bits s.lenN w * w)) := by
    rw [owfDigits]; omega
  exact (exec_of_operand rfl hc ha).trans (if_neg hok)

theorem le_ceilDiv_mul (x : Nat) {y : Nat} (hy : 0 < y) : x ≤ ceilDiv x y * y := (ceilDiv_le_iff hy).mp le_rfl

/-- R411: the memory that WOREC and WOWF leave for an odd A < 2^(k*w), with `ceil_div(k*w, B)` words written. -/
theorem stores_orec {v : Nat} (base : Nat) (hw : 1 ≤ w) (hodd : v % 2 = 1) (hlt : v < 2 ^ (k * w)) :
    ∃ c, Stores s (memWrite s.cfg s.opmem base (ceilDiv (k * w) s.cfg.bits) (ocodeSum w (orec w k v))) base
        (ceilDiv (k * w) s.cfg.bits) c ∧
      limbValue s.cfg.bits (ceilDiv (k * w) s.cfg.bits) c < 2 ^ (k * w) ∧
      (∀ d ∈ ocodeDecode w (limbValue s.cfg.bits (ceilDiv (k * w) s.cfg.bits) c) k, OddDigit w d) ∧
      digitValue w (ocodeDecode w (limbValue s.cfg.bits (ceilDiv (k * w) s.cfg.bits) c) k) = v := by
  have hspec := ocodeSum_orec_spec hw hodd hlt
  have ⟨hcode, _⟩ := hspec
  refine ⟨_, stores_memWrite s _ _ _, ?_⟩
  rwa [limbValue_of_limb, Nat.mod_eq_of_lt
    (hcode.trans_le (Nat.pow_le_pow_right (by norm_num) (le_ceilDiv_mul _ s.cfg.bits_pos)))]

/-! ## The odd recodings -/

/-- Settles O56: neither query has a region to check, and 0 bits take no digit. -/
theorem sizeQueriesNeedNoRegion : Obligations.SizeQueriesNeedNoRegion := by
  intro w s hw hwB
  refine ⟨exec_worsz hw hwB, exec_wowsz hw hwB, fun hn => ?_⟩
  rw [exec_worsz hw hwB, hn, Nat.zero_mul, Nat.zero_add, Nat.div_eq_of_lt (Nat.sub_lt hw Nat.one_pos)]
  rfl

/-- Settles O54: A is below 2^(k*w), because k digits cover the L bits of the operand. -/
theorem worecRoundTrips : Obligations.WorecRoundTrips := by
  intro w s a hwf hw hwB hn hfa hfd ho ha hodd
  have hcover := le_ceilDiv_mul (s.lenN * s.cfg.bits) hw
  have hcount : ceilDiv (s.lenN * s.cfg.bits) w ≤ s.lenN * s.cfg.bits :=
    (ceilDiv_le_iff hw).mpr (Nat.le_mul_of_pos_right _ hw)
  have hL := lenBits_lt hwf hfa
  obtain ⟨c, hstored⟩ := stores_orec (s := s) s.baseD hw hodd
    (ha.value_lt.trans_le (Nat.pow_le_pow_right (by norm_num) hcover))
  exact ⟨_, c, _, exec_worec hw hwB hn hfa hfd ho ha hodd, exec_worsz hw hwB, hcount.trans_lt (by omega), rfl,
    hstored⟩

/-- Settles O55: the precondition bounds A by 2^(k'*w). -/
theorem wowfRoundTrips : Obligations.WowfRoundTrips := by
  intro w s a hwf hw hwB hn hfa hfd ho ha hodd hlt
  have hcount : s.lenN * s.cfg.bits / w ≤ s.lenN * s.cfg.bits := Nat.div_le_self _ _
  have hL := lenBits_lt hwf hfa
  obtain ⟨c, hstored⟩ := stores_orec (s := s) s.baseD hw hodd hlt
  exact ⟨_, c, _, exec_wowf hw hwB hn hfa hfd ho ha hodd hlt, exec_wowsz hw hwB, by omega, rfl, hstored⟩

end Sys2Proof.Machine
end

section
/-! The round of the cipher undone (45_block_cipher R455), and its two block commands as inverses of each other. -/

namespace Sys2Proof.Machine

variable {cfg : Config} {key : Vector Reg32 8}

/-! ## One round -/

/-- The round with its subkeys in reverse order, on the reversed words of the round's result, takes its steps back: steps 1
to 3 take back 9, 8 and 7, steps 4 to 6 take back 4 to 6, and steps 7 to 9 take back 3, 2 and 1. -/
theorem cipherRound_reverse {i : Nat} {k k' : Nat → Reg32} (hk : ∀ j ≤ 6, k' j = k (6 - j)) (q : Quad) :
    cipherRound cfg i k' (Row.dcba.gather (cipherRound cfg i k q)) = Row.dcba.gather q := by
  have cancel_xor (x y : Reg32) : x ^^^ y ^^^ y = x := by rw [BitVec.xor_assoc, BitVec.xor_self, BitVec.xor_zero]
  have hc (b c e : Reg32) : c + b - (b + e) + e = c := by abel
  simp [cipherRound, Row.gather, hk, cancel_xor, hc]

/-- Two rounds over bindings that reverse each other across the permutation `r`. -/
theorem boundRounds_reverse {e e' r : Row} {i : Nat} {k k' : Nat → Reg32} (hk : ∀ j ≤ 6, k' j = k (6 - j))
    (hrow : ∀ q, e'.gather (r.gather (e.scatter q)) = Row.dcba.gather q) (p : Quad) :
    e'.scatter (cipherRound cfg i k' (e'.gather (r.gather (e.scatter (cipherRound cfg i k (e.gather p)))))) =
      r.gather p := by
  have hback := hrow (e.gather p)
  rw [Row.scatter_gather] at hback
  rw [hrow, cipherRound_reverse hk, ← hback, Row.scatter_gather]

/-! ## Eight rounds -/

/-- The decryption subkeys of a round are its encryption subkeys in reverse order (45_block_cipher R456, R457). -/
theorem decSubkey_eq {i j : Nat} (hi : 1 ≤ i) (hj : j ≤ 6) : decSubkey key i j = encSubkey key i (6 - j) :=
  congrArg (keyWord key) (by omega)

/-- Decryption's row for the index of encryption's round t follows the output permutation of encryption with that
round's words reversed (45_block_cipher R458, R459). -/
theorem decRow_reverses_encRow {t : Nat} (h1 : 1 ≤ t) (h8 : t ≤ 8) (q : Quad) :
    (decRow (9 - t)).gather (Row.bdac.gather ((encRow t).scatter q)) = Row.dcba.gather q := by
  interval_cases t <;> rfl

/-- Decryption's step of round index t takes back encryption's round t. -/
theorem decStep_encStep {t : Nat} (h1 : 1 ≤ t) (h8 : t ≤ 8) (p : Quad) :
    decStep cfg key (9 - t) (Row.bdac.gather (encStep cfg key t p)) = Row.bdac.gather p := by
  rw [decStep, encStep, Nat.sub_sub_self (by omega)]
  exact boundRounds_reverse (fun _ => decSubkey_eq h1) (decRow_reverses_encRow h1 h8) p

/-- The first n steps of decryption take back the last n of the eight rounds of encryption. -/
theorem decRounds_encRounds {n : Nat} (hn : n ≤ 8) (p : Quad) :
    decRounds cfg key n (Row.bdac.gather (encRounds cfg key 8 p)) = Row.bdac.gather (encRounds cfg key (8 - n) p) := by
  induction n with
  | zero => rfl
  | succ n ih =>
    obtain ⟨m, hm⟩ : ∃ m, 8 - n = m + 1 := ⟨7 - n, by omega⟩
    have hstep := decStep_encStep (cfg := cfg) (key := key) (t := m + 1) (by omega) (by omega) (encRounds cfg key m p)
    rw [show 9 - (m + 1) = n + 1 by omega] at hstep
    rw [decRounds, ih (by omega), hm, encRounds, hstep, show 8 - (n + 1) = m by omega]

theorem decryptBlock_encryptBlock : Function.LeftInverse (decryptBlock cfg key) (encryptBlock cfg key) := by
  intro p
  rw [decryptBlock, encryptBlock, decRounds_encRounds le_rfl]
  rfl

theorem Quad.finite : Finite Quad :=
  Finite.of_injective (fun q : Quad => (q.p0, q.p1, q.p2, q.p3)) fun q r h => by
    cases q; cases r; simpa using h

/-- There are finitely many blocks, so what takes encryption back is also what encryption takes back. -/
theorem encryptBlock_decryptBlock : Function.RightInverse (decryptBlock cfg key) (encryptBlock cfg key) :=
  have := Quad.finite
  decryptBlock_encryptBlock.rightInverse_of_surjective
    (Finite.injective_iff_surjective.mp decryptBlock_encryptBlock.injective)

/-- Settles O59: either order of the two commands gives the block back. -/
theorem bdecAndBencAreInverse : Obligations.BdecAndBencAreInverse := by
  intro s
  refine ⟨⟨_, exec_benc s, ?_⟩, ⟨_, exec_bdec s, ?_⟩⟩
  · rw [exec_bdec, State.completed_key, State.completed_cfg, quadOfBlk_blkOfQuad, decryptBlock_encryptBlock,
      blkOfQuad_quadOfBlk]
    rfl
  · rw [exec_benc, State.completed_key, State.completed_cfg, quadOfBlk_blkOfQuad, encryptBlock_decryptBlock,
      blkOfQuad_quadOfBlk]
    rfl

end Sys2Proof.Machine
end

section
/-! The substitution tables of the cipher (45_block_cipher R453, R454), its key expansion (R460), and its rounds over the
binding tables (R458, R459). -/

namespace Sys2Proof.Machine

variable {cfg : Config} {key : Vector Reg32 8}

/-! ## The rotated tables -/

theorem rotl32_eq_rotateLeft {r : Nat} (hr : r < 32) (x : Reg32) : rotl32 x r = x.rotateLeft r :=
  (BitVec.rotateLeft_eq_rotateLeftAux_of_lt hr).symm

theorem rotateLeft_xor (x y : Reg32) (r : Nat) :
    (x ^^^ y).rotateLeft r = x.rotateLeft r ^^^ y.rotateLeft r := by
  ext i hi
  simp only [BitVec.getElem_rotateLeft, BitVec.getElem_xor]
  split <;> rfl

/-- Bit i of a rotated word is the bit r below it, around the word. -/
theorem getLsbD_rotateLeft_eq_mod (x : Reg32) (r : Nat) {i : Nat} (hi : i < 32) :
    (x.rotateLeft r).getLsbD i = x.getLsbD ((i + (32 - r % 32)) % 32) := by
  rw [BitVec.getLsbD_rotateLeft]
  by_cases hir : i < r % 32
  · rw [decide_eq_true hir, cond_true]
    congr 1
    omega
  · rw [decide_eq_false hir, cond_false, decide_eq_true hi, Bool.true_and]
    congr 1
    omega

theorem rotateLeft_rotateLeft (x : Reg32) (r t : Nat) : (x.rotateLeft r).rotateLeft t = x.rotateLeft (r + t) := by
  apply BitVec.eq_of_getLsbD_eq
  intro i hi
  rw [getLsbD_rotateLeft_eq_mod _ _ hi, getLsbD_rotateLeft_eq_mod _ _ (Nat.mod_lt _ (by decide)),
    getLsbD_rotateLeft_eq_mod _ _ hi]
  congr 1
  omega

/-- An octet shifted inside the word is the octet rotated: nothing leaves the word at the top. -/
theorem octet_shiftLeft_eq_rotateLeft (b : Byte) {k : Nat} (hk : k ≤ 24) :
    b.setWidth 32 <<< k = (b.setWidth 32 : Reg32).rotateLeft k := by
  have htop : (b.setWidth 32 : Reg32) >>> (32 - k) = 0 := by
    apply BitVec.eq_of_getLsbD_eq
    intro i hi
    simp [BitVec.getLsbD_of_ge b (32 - k + i) (by omega)]
  rw [BitVec.rotateLeft_def, Nat.mod_eq_of_lt (by omega), htop]
  exact BitVec.or_zero.symm

/-- A word whose bits from k up are 0 does not meet a word shifted up by k. -/
theorem or_shiftLeft_eq_xor {x : Reg32} {k : Nat} (hx : ∀ i, k ≤ i → x.getLsbD i = false) (y : Reg32) :
    x ||| y <<< k = x ^^^ y <<< k := by
  apply BitVec.eq_of_getLsbD_eq
  intro i _
  rcases Nat.lt_or_ge i k with hik | hik
  · simp [hik]
  · simp [hx i hik]

/-- The four octets of S(x) stand in bits of their own, each the octet rotated to its place. -/
theorem substituted_eq_xor (cfg : Config) (x : Reg32) :
    substituted cfg x = (sbox cfg (byteOf 0 x)).setWidth 32 ^^^
      ((sbox cfg (byteOf 1 x)).setWidth 32 : Reg32).rotateLeft 8 ^^^
      ((sbox cfg (byteOf 2 x)).setWidth 32 : Reg32).rotateLeft 16 ^^^
      ((sbox cfg (byteOf 3 x)).setWidth 32 : Reg32).rotateLeft 24 := by
  have hoctet (b : Byte) {i : Nat} (hi : 8 ≤ i) : b.getLsbD i = false := BitVec.getLsbD_of_ge b i hi
  rw [substituted, or_shiftLeft_eq_xor fun i hi => ?_, or_shiftLeft_eq_xor fun i hi => ?_,
    or_shiftLeft_eq_xor fun i hi => ?_, octet_shiftLeft_eq_rotateLeft _ (by norm_num),
    octet_shiftLeft_eq_rotateLeft _ (by norm_num), octet_shiftLeft_eq_rotateLeft _ (by norm_num)]
  · simp [hoctet _ hi]
  · simp [hoctet _ (show 8 ≤ i by omega), hoctet _ (show 8 ≤ i - 8 by omega)]
  · simp [hoctet _ (show 8 ≤ i by omega), hoctet _ (show 8 ≤ i - 8 by omega), hoctet _ (show 8 ≤ i - 16 by omega)]

/-- 45_block_cipher R454: table indices that go up by 8 from one octet to the next, around the word, rotate S(x). -/
theorem substitute_eq_rotateLeft (cfg : Config) (x : Reg32) {r r1 r2 r3 : Nat} (h : r < 32) (h1 : r1 = (8 + r) % 32)
    (h2 : r2 = (16 + r) % 32) (h3 : r3 = (24 + r) % 32) :
    substitute cfg r r1 r2 r3 x = (substituted cfg x).rotateLeft r := by
  subst h1 h2 h3
  have hmod (n : Nat) : n % 32 < 32 := Nat.mod_lt n (by norm_num)
  simp only [substitute, rotatedSbox, rotl32_eq_rotateLeft, h, hmod, substituted_eq_xor, rotateLeft_xor,
    rotateLeft_rotateLeft, BitVec.rotateLeft_mod_eq_rotateLeft]

/-- Settles O60: the table indices 5, 13, 21 and 29 go up by 8 in each of the three functions. -/
theorem gFunctionsRotateTheSubstitution : Obligations.GFunctionsRotateTheSubstitution := fun cfg x =>
  have rotates {r r1 r2 r3 : Nat} := substitute_eq_rotateLeft cfg x (r := r) (r1 := r1) (r2 := r2) (r3 := r3)
  ⟨rotates (by decide) rfl rfl rfl, rotates (by decide) rfl rfl rfl, rotates (by decide) rfl rfl rfl⟩

/-! ## The expanded key -/

/-- BKEXP in full: KEY gets the expanded key (45_block_cipher R460). -/
theorem exec_bkexp {octets : Nat} (h : octets = 16 ∨ octets = 24 ∨ octets = 32) (s : State) :
    exec (.bkexp octets) s = .next { s.completed .ok with key := expandKey octets s.key } :=
  exec_of_checksPass rfl ⟨h, by simp [RangesOk, readRegions, storeRegions], trivial⟩

theorem expandKey_16 (k : Vector Reg32 8) : expandKey 16 k = #v[k[0], k[1], k[2], k[3], k[0], k[1], k[2], k[3]] := rfl

theorem expandKey_24 (k : Vector Reg32 8) :
    expandKey 24 k = #v[k[0], k[1], k[2], k[3], k[4], k[5], k[0] ^^^ k[1] ^^^ k[2], k[3] ^^^ k[4] ^^^ k[5]] := rfl

theorem expandKey_32 (k : Vector Reg32 8) : expandKey 32 k = k := rfl

theorem getElem_expandKey_16 (k : Vector Reg32 8) (j : Fin 4) :
    (expandKey 16 k)[j.val] = k[j.val] ∧ (expandKey 16 k)[j.val + 4] = k[j.val] := by
  rw [expandKey_16]
  fin_cases j <;> exact ⟨rfl, rfl⟩

theorem expandKey_16_congr {k k' : Vector Reg32 8} (h : ∀ j : Fin 4, k[j.val] = k'[j.val]) :
    expandKey 16 k = expandKey 16 k' := by
  have h0 : k[0] = k'[0] := h 0
  have h1 : k[1] = k'[1] := h 1
  have h2 : k[2] = k'[2] := h 2
  have h3 : k[3] = k'[3] := h 3
  rw [expandKey_16, expandKey_16, h0, h1, h2, h3]

theorem getElem_expandKey_24 (k : Vector Reg32 8) (j : Fin 6) : (expandKey 24 k)[j.val] = k[j.val] := by
  rw [expandKey_24]
  fin_cases j <;> rfl

/-- Settles O57: each clause reads the words of the expanded key for its length. -/
theorem bkexpExpandsTheKey : Obligations.BkexpExpandsTheKey := by
  refine ⟨fun s => ?_, fun s t h => ?_, fun s => ?_, fun s => ?_⟩
  · exact ⟨_, exec_bkexp (.inl rfl) s, getElem_expandKey_16 s.key⟩
  · exact ⟨_, exec_bkexp (.inl rfl) s, expandKey_16_congr h ▸ exec_bkexp (.inl rfl) t⟩
  · exact ⟨_, exec_bkexp (.inr (.inl rfl)) s, getElem_expandKey_24 s.key, rfl, rfl⟩
  · rw [exec_bkexp (.inr (.inr rfl)), expandKey_32]
    rfl

/-! ## The rounds over the binding tables -/

/-- The numbers of the registers a row stands for, role a first (45_block_cipher R458, R459). -/
def Row.registers : Row → List Nat
  | .abcd => [0, 1, 2, 3]
  | .bdac => [1, 3, 0, 2]
  | .dcba => [3, 2, 1, 0]
  | .cadb => [2, 0, 3, 1]

theorem boundRound_registers (i : Nat) (k : Nat → Reg32) (e : Row) (p : Quad) :
    boundRound cfg i k e.registers p = e.scatter (cipherRound cfg i k (e.gather p)) := by
  cases e <;> rfl

theorem encRow_registers (t : Nat) : encRowTable.getD (t % 4) [] = (encRow (t + 1)).registers := by
  have ht : t % 4 < 4 := Nat.mod_lt t (by norm_num)
  rw [encRow, Nat.add_sub_cancel]
  interval_cases t % 4 <;> rfl

theorem decRow_registers (t : Nat) : decRowTable.getD (t % 4) [] = (decRow (t + 1)).registers := by
  have ht : t % 4 < 4 := Nat.mod_lt t (by norm_num)
  rw [decRow, Nat.add_sub_cancel]
  interval_cases t % 4 <;> rfl

/-- A loop over the rounds 0 to n - 1 is whatever iterates its body. -/
theorem foldl_range_eq {f : Nat → Quad → Quad} {rounds : Nat → Quad} (hsucc : ∀ t, rounds (t + 1) = f t (rounds t))
    (n : Nat) : (List.range n).foldl (fun p t => f t p) (rounds 0) = rounds n := by
  induction n with
  | zero => rfl
  | succ n ih => rw [List.range_succ, List.foldl_append, ih, hsucc]; rfl

theorem bencLoop_eq (p : Quad) : bencLoop cfg key p = encRounds cfg key 8 p := by
  simp only [bencLoop, encRow_registers, boundRound_registers]
  exact foldl_range_eq (rounds := (encRounds cfg key · p)) (fun t => encRounds_succ cfg key t p) 8

theorem bdecLoop_eq (p : Quad) : bdecLoop cfg key p = decRounds cfg key 8 p := by
  have hsucc (t : Nat) := decRounds_succ cfg key t p
  simp only [Nat.reduceSubDiff] at hsucc
  simp only [bdecLoop, decRow_registers, boundRound_registers]
  exact foldl_range_eq (rounds := (decRounds cfg key · p)) hsucc 8

theorem blkOfQuad_gather_bdac (q : Quad) : blkOfQuad (Row.bdac.gather q) = #v[q.p1, q.p3, q.p0, q.p2] := rfl

theorem blkOfQuad_gather_cadb (q : Quad) : blkOfQuad (Row.cadb.gather q) = #v[q.p2, q.p0, q.p3, q.p1] := rfl

/-- Settles O58: the rows of the machine are those of the tables, and the loops are its eight rounds. -/
theorem bencAndBdecFollowTheBindingTables : Obligations.BencAndBdecFollowTheBindingTables := by
  intro s
  constructor
  · rw [exec_benc, encryptBlock, blkOfQuad_gather_bdac, ← bencLoop_eq]
  · rw [exec_bdec, decryptBlock, blkOfQuad_gather_cadb, ← bdecLoop_eq]

end Sys2Proof.Machine
end

section
/-! The order of the checks, and what they settle (60_exceptions R502, R503): a command that fails a check completes with
the code of the first one that fails and looks at no OPMEM word, and one that passes them all completes with OK or is
FAULT. -/

namespace Sys2Proof.Machine

variable {i : Instr} {s t : State}

/-! ## A failing check -/

/-- Checks that all report one code, one of which fails: the command completes with that code. -/
theorem checked_of_code {checks : List (Option Err)} {e : Err} {body : StepResult}
    (hcode : ∀ c ∈ checks, c = none ∨ c = some e) (hfail : ¬∀ c ∈ checks, c = none) :
    checked s checks body = .next (s.completed e) := by
  rcases checked_cases s checks body with ⟨hpass, _⟩ | ⟨before, e', after, hsplit, _, hnext⟩
  · exact absurd hpass hfail
  · have he : e' = e := by simpa using hcode (some e') (by simp [hsplit])
    rw [hnext, he, State.finish_eq_completed]

/-- Every rule lists its check_param lines, then its check_range lines, then its overlap checks. -/
theorem exec_eq_checked_in_order (i : Instr) (s : State) : ∃ body, exec i s =
    checked s (paramChecks i s) (checked s ((rangeRegions i s).map fun r => checkRange s.cfg r.1 r.2)
      (checked s (overlapChecks i s) body)) := by
  obtain ⟨body, hbody⟩ := exec_eq_checked i s
  exact ⟨body, by rw [hbody, checksOf, List.append_assoc, checked_append, checked_append]⟩

theorem exec_of_not_rangesOk (hp : ParamOk i s) (hr : ¬RangesOk i s) : exec i s = .next (s.completed .range) := by
  obtain ⟨body, hbody⟩ := exec_eq_checked_in_order i s
  rw [hbody, checked_of_pass ((paramChecks_pass_iff i s).mpr hp)]
  exact checked_of_code (rangeChecks_code i s) (mt (rangeChecks_pass_iff i s).mp hr)

theorem exec_of_not_overlapsOk (hp : ParamOk i s) (hr : RangesOk i s) (ho : ¬OverlapsOk i s) :
    exec i s = .next (s.completed .overlap) := by
  obtain ⟨body, hbody⟩ := exec_eq_checked_in_order i s
  rw [hbody, checked_of_pass ((paramChecks_pass_iff i s).mpr hp),
    checked_of_pass ((rangeChecks_pass_iff i s).mpr hr)]
  exact checked_of_code (overlapChecks_code i s) (mt (overlapChecks_pass_iff i s).mp ho)

/-- Settles O6: each kind of check has its one code, and a later kind is looked at once the earlier ones pass. -/
theorem firstFailingCheckSetsErr : Obligations.FirstFailingCheckSetsErr := by
  refine ⟨fun s hb hl => ?_, fun i s => ⟨exec_of_not_paramOk, exec_of_not_rangesOk, exec_of_not_overlapsOk⟩⟩
  obtain ⟨e, hd⟩ := legal_eq_false_iff.mp hl
  exact coreTurn_of_illegal hb hd

/-! ## The recodings outside their preconditions -/

/-- Settles O8: past the checks and the read of A stands the test of the precondition, which A does not pass. -/
theorem undefinedRecodingInputsFault : Obligations.UndefinedRecodingInputsFault :=
  ⟨fun _ _ _ hc ha heven => (exec_of_operand rfl hc ha).trans (if_pos heven),
    fun _ _ _ hc ha hbad => (exec_of_operand rfl hc ha).trans (if_pos hbad)⟩

/-! ## Every check passes -/

/-- The answer is no error completion: if it is a next state, then one with ERR = OK. -/
def NeverErrs (r : StepResult) : Prop := ∀ t, r = .next t → t.status.err = .ok

theorem neverErrs_complete (s : State) : NeverErrs (complete s) := by
  rintro _ ⟨⟩
  rfl

theorem neverErrs_fault (f : Fault) : NeverErrs (.fault f) := nofun

theorem neverErrs_withOperand {base n : Nat} {k : Nat → StepResult} (h : ∀ v, NeverErrs (k v)) :
    NeverErrs (withOperand s base n k) := by
  rcases withOperand_cases s base n k with ⟨a, _, hk⟩ | ⟨_, hf⟩
  · rw [hk]; exact h _
  · rw [hf]; exact neverErrs_fault _

/-- After its checks no command has an error to report. -/
theorem exec_eq_checked_neverErrs (i : Instr) (s : State) :
    ∃ body, exec i s = checked s (checksOf i s) body ∧ NeverErrs body := by
  cases i with
  | wzero | wsetw | wfill | worsz | wowsz | bkexp | benc | bdec => exact ⟨_, rfl, neverErrs_complete _⟩
  | wcopy | wcmpw | wisz | wiszf | wisw | wisrep | wswl | wsbyl | wsbl | wtbit | wgbits | wsbit | wsbits | wfbit
  | wlzc | whzc | wshlc | wshhc | wtrl | wtrh | wnaf =>
    exact ⟨_, rfl, neverErrs_withOperand fun _ => neverErrs_complete _⟩
  | wswap | weq | weqf | wcmp | wcmpf | wcmpl | wxor | wxora =>
    exact ⟨_, rfl, neverErrs_withOperand fun _ => neverErrs_withOperand fun _ => neverErrs_complete _⟩
  | worec | wowf =>
    refine ⟨_, rfl, neverErrs_withOperand fun a => ?_⟩
    split
    · exact neverErrs_fault _
    · exact neverErrs_complete _

theorem err_eq_ok_of_checksPass (hc : ChecksPass i s) (ht : exec i s = .next t) : t.status.err = .ok := by
  obtain ⟨body, hbody, hok⟩ := exec_eq_checked_neverErrs i s
  exact hok t ((exec_of_checksPass hbody hc).symm.trans ht)

/-- Settles O12: of the three endings, the checks rule out an error and the operands every fault of a command. -/
theorem commandsWithGoodOperandsComplete : Obligations.CommandsWithGoodOperandsComplete := by
  intro i s hc hwritten hodd hfits
  obtain ⟨x, hx, he⟩ := exec_eq_ended i s
  cases x with
  | ok e => exact ⟨_, he, rfl⟩
  | error e =>
    have hok : e = .ok := err_eq_ok_of_checksPass hc he
    rcases hx with rfl | rfl | rfl <;> cases hok
  | fault f =>
    obtain ⟨_, hf⟩ := hx
    cases f with
    | unwrittenWord =>
      obtain ⟨r, hr, hu⟩ := hf
      exact absurd hu (hwritten r hr)
    | evenInput =>
      obtain ⟨w, a, hi, ha, heven⟩ := hf
      have := hodd w a (.inl hi) ha
      omega
    | owfPrecondition =>
      obtain ⟨w, a, hi, ha, hbad⟩ := hf
      have := hodd w a (.inr hi) ha
      have := hfits w a hi ha
      omega
    | commandWhileBusy | writeWhileBusy | accessInReset => exact hf.elim

/-! ## Errors are precise -/

/-- No check looks at OPMEM. -/
theorem checksOf_withOpmem (i : Instr) (s : State) (m : Memory) : checksOf i { s with opmem := m } = checksOf i s := by
  cases i <;> rfl

/-- A command that fails a check completes with one code, whatever OPMEM holds. -/
theorem exec_of_not_checksPass (h : ¬ChecksPass i s) :
    ∃ e, ∀ m, exec i { s with opmem := m } = .next (State.completed { s with opmem := m } e) := by
  rcases checked_cases s (checksOf i s) (.next s) with ⟨hpass, _⟩ | ⟨before, e, after, hsplit, hbefore, _⟩
  · exact absurd ((checksOf_pass_iff i s).mp hpass) h
  · refine ⟨e, fun m => ?_⟩
    obtain ⟨body, hbody⟩ := exec_eq_checked i { s with opmem := m }
    rw [hbody, checksOf_withOpmem, hsplit, checked_of_fail hbefore, State.finish_eq_completed]

/-- A core turn that completes with an error has one code, whatever OPMEM holds. -/
theorem coreTurn_of_error (hb : s.status.busy = true) (ht : coreTurn s = .next t) (herr : t.status.err ≠ .ok) :
    ∃ e, ∀ m, coreTurn { s with opmem := m } = .next (State.completed { s with opmem := m } e) := by
  rcases hd : decode s.latch.cmd with _ | i
  · exact ⟨.illegal, fun m => coreTurn_of_illegal (s := { s with opmem := m }) hb hd⟩
  · rw [coreTurn_of_decode hb hd] at ht
    obtain ⟨e, he⟩ := exec_of_not_checksPass fun hc => herr (err_eq_ok_of_checksPass hc ht)
    exact ⟨e, fun m => (coreTurn_of_decode (s := { s with opmem := m }) hb hd).trans (he m)⟩

/-- Settles O9: the turn at OPMEM as it stands is one of those of `coreTurn_of_error`, and fixes their code. -/
theorem errorsArePrecise : Obligations.ErrorsArePrecise := by
  intro s t hb ht herr
  obtain ⟨e, he⟩ := coreTurn_of_error hb ht herr
  obtain rfl : s.completed e = t := by simpa using (he s.opmem).symm.trans ht
  exact ⟨rfl, he⟩

end Sys2Proof.Machine
end

section
/-! The busy window at the host port (60_exceptions R511), and the interrupt level (R520). -/

namespace Sys2Proof.Machine

variable {s t : State} {rest : List Turn} {o : BitVec 28}

/-! ## The busy window -/

/-- A slot off the offsets of CTRL, STATUS and CMD may not be written while BUSY = 1. -/
theorem busyDuty_of_offset {cfg : Config} (h : o.toNat / 8 * 8 ∉ [0x010, 0x018, 0x020]) :
    busyDuty (slotOf cfg o) = some .writeWhileBusy := by
  simp only [List.mem_cons, List.not_mem_nil, or_false, not_or] at h
  obtain ⟨hctrl, hstatus, hcmd⟩ := h
  rcases busyDuty_cases (slotOf cfg o) with ⟨hsl | hsl, _⟩ | ⟨hsl, _⟩ | ⟨_, _, _, hd⟩
  · exact absurd (number_of_slotOf hsl nofun) (by simp only [Slot.number]; omega)
  · exact absurd (number_of_slotOf hsl nofun) (by simp only [Slot.number]; omega)
  · exact absurd (slotOf_eq_cmd_iff.mp hsl) hcmd
  · exact hd

/-- The offsets of the result registers, KEY, BLK and OPMEM (10_state R54). -/
theorem slotOf_unspecifiedWhileBusy {cfg : Config}
    (h : (0x060 ≤ o.toNat / 8 * 8 ∧ o.toNat / 8 * 8 ≤ 0x070) ∨ (0x080 ≤ o.toNat / 8 * 8 ∧ o.toNat / 8 * 8 ≤ 0x0D8) ∨
      (0x8000000 ≤ o.toNat / 8 * 8 ∧ o.toNat / 8 * 8 < 0x8000000 + 8 * cfg.opmemWords)) :
    (slotOf cfg o).unspecifiedWhileBusy = true := by
  have hk : slotOf cfg o = slotAt cfg (o.toNat / 8) := rfl
  rw [hk]
  generalize o.toNat / 8 = k at h
  rcases slotAt_cases cfg k with hlow | ⟨j, rfl⟩ | ⟨j, rfl⟩ | ⟨i, hi, rfl⟩ | hreserved
  · obtain ⟨hge, hle⟩ : 12 ≤ k ∧ k ≤ 14 := by omega
    interval_cases k <;> rfl
  · rw [slotAt_key]; rfl
  · rw [slotAt_blk]; rfl
  · rw [slotAt_opmem hi]; rfl
  · omega

/-- A slot whose reads are unspecified is B bits wide if it is RESW or an OPMEM word, and 32 bits if not. -/
theorem width_of_unspecifiedWhileBusy {cfg : Config} (h : (slotOf cfg o).unspecifiedWhileBusy = true) :
    (slotOf cfg o).width cfg =
      if o.toNat / 8 * 8 = 0x070 ∨ 0x8000000 ≤ o.toNat / 8 * 8 then cfg.bits else 32 := by
  have hn : o.toNat / 8 = (slotOf cfg o).number :=
    number_of_slotOf rfl fun hr => by rw [hr] at h; cases h
  generalize slotOf cfg o = sl at h hn
  cases sl with
  | resw | opmem i => rw [if_pos (by simp only [Slot.number] at hn; omega)]; rfl
  | res | res2 | key j | blk j => rw [if_neg (by simp only [Slot.number] at hn; omega)]; rfl
  | id | cfg | ctrl | status | cmd | arg | reserved => cases h

/-- Settles O22: each access by the slot at its offset. -/
theorem busyWindowDuties : Obligations.BusyWindowDuties := by
  intro s rest o hr hb
  refine ⟨fun v hs => ⟨fun ho => ?_, fun ho => ?_⟩, fun hs => ⟨fun ho => ?_, fun r hreg hle ho => ?_⟩⟩
  · exact step_write_fault hs hr (slotOf_cmd ho) hb rfl
  · exact step_write_fault hs hr rfl hb (busyDuty_of_offset ho)
  · have hu := slotOf_unspecifiedWhileBusy ho
    refine ⟨_, step_read_busy hs hr rfl hb hu, ?_⟩
    rw [← width_of_unspecifiedWhileBusy hu]
    exact busyRead_lt ..
  · obtain ⟨hreads, -⟩ := hostReadsHaveNoSideEffect
    exact hreads s rest o hs hr r hreg (.inl hle) ho

/-! ## The interrupt level -/

/-- With a command pending the step is the core's turn, whether by the script or for want of one. -/
theorem step_of_coreMoves (h : CoreMoves s) : ∃ script, step s = coreTurn { s with script := script } := by
  obtain ⟨_, hs | ⟨rest, hs⟩⟩ := h
  · exact ⟨s.script, step_of_empty hs⟩
  · exact ⟨rest, step_of_turn hs⟩

/-- A pending command that the core's turn completes sets DONE and leaves IE. -/
theorem coreTurn_done_ie (hb : s.status.busy = true) (ht : coreTurn s = .next t) :
    t.status.done = true ∧ t.ie = s.ie := by
  rcases coreTurn_cases s with ⟨hidle, _⟩ | ⟨_, he | ⟨i, x, _, _, he⟩⟩
  · rw [hb] at hidle; cases hidle
  · rw [he] at ht; cases ht; exact ⟨rfl, rfl⟩
  · rw [he] at ht
    cases x with
    | ok e | error e => cases ht; exact ⟨rfl, rfl⟩
    | fault f => cases ht

/-- A host write that is no FAULT is the write of the slot at its offset. -/
theorem step_write_next {v : Word} (hs : s.script = .host (.write o v) :: rest) (ht : step s = .next t) :
    t = State.writeSlot { s with script := rest } (slotOf s.cfg o) v := by
  rw [step_of_access hs] at ht
  rcases hostAccess_cases { s with script := rest } (.write o v) with ⟨_, he⟩ | ⟨_, ⟨o', ho, _⟩ | ⟨o', v', ho, he⟩⟩
  · rw [he] at ht; cases ht
  · cases ho
  · cases ho
    rw [he] at ht
    rcases hostWrite_cases { s with script := rest } o v with ⟨_, hn⟩ | ⟨_, _, hf⟩ | ⟨_, _, _, _, hf⟩
    · rw [hn] at ht; cases ht; rfl
    · rw [hf] at ht; cases ht
    · rw [hf] at ht; cases ht

theorem irq_eq (s : State) : s.irq = (s.status.done && s.ie) := rfl

theorem irq_writeCtrl (s : State) (v : Word) :
    (s.writeCtrl v).irq = (s.status.done && v.getLsbD 0 && !v.getLsbD 1) := by
  rcases hv : v.getLsbD 1 with _ | _
  · rw [writeCtrl_of_clear hv, irq_eq]; simp
  · rw [writeCtrl_of_set hv, Bool.not_true, Bool.and_false]; rfl

theorem irq_writeStatus {v : Word} (hv : v.getLsbD 1 = true) : (s.writeStatus v).irq = false := by
  simp [writeStatus_eq, irq_eq, hv]

theorem irq_issue (s : State) (c : Reg32) : (s.issue c).irq = false := by simp [irq_eq]

/-- Settles O27: DONE and IE after the core's turn, after the power-on reset, and after each of the three writes. -/
theorem irqFollowsDoneAndEnable : Obligations.IrqFollowsDoneAndEnable := by
  refine ⟨irq_eq, fun s t hm ht => ?_, fun s t rest hs ht => ?_, fun s t rest o v hs ht => ?_⟩
  · obtain ⟨script, he⟩ := step_of_coreMoves hm
    obtain ⟨hb, _⟩ := hm
    obtain ⟨hdone, hie⟩ := coreTurn_done_ie (s := { s with script := script }) hb (he.symm.trans ht)
    rw [irq_eq, hdone, hie, Bool.true_and]
  · rw [step_of_turn hs] at ht
    cases ht
    rfl
  · obtain rfl := step_write_next hs ht
    refine ⟨fun ho => ?_, fun ho hv => ?_, fun ho => ?_⟩
    · rw [slotOf_ctrl ho]; exact irq_writeCtrl _ v
    · rw [slotOf_status ho]; exact irq_writeStatus hv
    · rw [slotOf_cmd ho]; exact irq_issue _ _

end Sys2Proof.Machine
end

section
/-! The soft reset: what becomes of OPMEM when it abandons a pending command (70_reset R552, R553). -/

namespace Sys2Proof.Machine

variable {s : State} {i : Instr}

/-- The machine's regions of an abandoned command are those the opcode map says its rule writes (30_encoding R126). -/
theorem writtenRegions_eq_storeRegions (i : Instr) (s : State) : writtenRegions i s = storeRegions i s := by
  cases i <;> rfl

theorem abandonedRegions_of_ok (h : decode s.latch.cmd = .ok i) : abandonedRegions s = storeRegions i s := by
  rw [abandonedRegions, h, ← writtenRegions_eq_storeRegions]

theorem abandonedRegions_of_error {e : Illegal} (h : decode s.latch.cmd = .error e) : abandonedRegions s = [] := by
  rw [abandonedRegions, h]

/-- Marking several regions unwritten: a word loses its value when one of them holds it below OPMEM_WORDS, and keeps it
otherwise. -/
theorem loadWord_foldl_memUnwrite (cfg : Config) (regions : List (Nat × Nat)) (m : Memory) (k : Nat) :
    loadWord cfg (regions.foldl (fun m r => memUnwrite cfg m r.1 r.2) m) k =
      if k < cfg.opmemWords ∧ ∃ r ∈ regions, r.1 ≤ k ∧ k < r.1 + r.2 then none else loadWord cfg m k := by
  induction regions generalizing m with
  | nil => simp
  | cons r rest ih =>
    rw [List.foldl_cons, ih, loadWord_memUnwrite, ← ite_or]
    refine if_congr ?_ rfl rfl
    rw [List.exists_mem_cons_iff, lt_min_iff]
    by_cases hk : k < cfg.opmemWords
    · simp only [hk, true_and, and_true, or_comm]
    · simp only [hk, false_and, and_false, or_false]

theorem opmemAfterSoftReset_of_idle (hb : s.status.busy = false) : opmemAfterSoftReset s = s.opmem := by
  rw [opmemAfterSoftReset, hb]; rfl

theorem opmemAfterSoftReset_of_busy (hb : s.status.busy = true) :
    opmemAfterSoftReset s = (abandonedRegions s).foldl (fun m r => memUnwrite s.cfg m r.1 r.2) s.opmem :=
  if_pos hb

/-- Log 10: an illegal word has no rule, and its abandonment marks nothing, whether BUSY or not. -/
theorem opmemAfterSoftReset_of_illegal {e : Illegal} (h : decode s.latch.cmd = .error e) :
    opmemAfterSoftReset s = s.opmem := by
  cases hb : s.status.busy with
  | false => exact opmemAfterSoftReset_of_idle hb
  | true => rw [opmemAfterSoftReset_of_busy hb, abandonedRegions_of_error h, List.foldl_nil]

/-- A word after the soft reset that abandons the command `i`. -/
theorem loadWord_opmemAfterSoftReset (hb : s.status.busy = true) (hi : decode s.latch.cmd = .ok i) (k : Nat) :
    loadWord s.cfg (opmemAfterSoftReset s) k =
      if k < s.cfg.opmemWords ∧ ∃ r ∈ storeRegions i s, r.1 ≤ k ∧ k < r.1 + r.2 then none else s.word k := by
  rw [opmemAfterSoftReset_of_busy hb, abandonedRegions_of_ok hi, loadWord_foldl_memUnwrite]
  rfl

/-- A CTRL write with bit 1 = 1 is the soft reset, BUSY or not (10_state R44, 70_reset R552). -/
theorem hostAccess_softReset {o : BitVec 28} {v : Word} (hr : s.resetHeld = false) (ho : o.toNat / 8 * 8 = 0x010)
    (hv : v.getLsbD 1 = true) : hostAccess s (.write o v) = .next s.softReset :=
  (hostAccess_write hr (slotOf_ctrl ho) (.inr rfl)).trans (congrArg Host.Outcome.next (writeCtrl_of_set hv))

/-- Settles O19: the registers are those of `State.softReset`, and OPMEM is `opmemAfterSoftReset`. -/
theorem softResetAbandonsThePendingCommand : Obligations.SoftResetAbandonsThePendingCommand := by
  intro s o v hr ho hv
  refine ⟨opmemAfterSoftReset s, ?_, opmemAfterSoftReset_of_idle, fun _ => opmemAfterSoftReset_of_illegal,
    fun i hb hi k => ?_⟩
  · rw [hostAccess_softReset hr ho hv, State.softReset, State.toPowerOn, hr]
    rfl
  · rw [loadWord_opmemAfterSoftReset hb hi]
    exact ⟨fun hk hin => if_pos ⟨hk, hin⟩, fun hout => if_neg fun ⟨_, r, hmem, hin⟩ => hout r hmem hin⟩

end Sys2Proof.Machine
end
